-- ==== Sys2Proof/Word.lean ====
section
/-! DEFINITION. The widths of the block's words (00_scope.md R8, R9; 20_memory.md R65): every value is unsigned. -/

namespace Sys2Proof

/-- Every u8 operand (30_encoding.md R100), and the container of one register, of which the low `REG_DATA_BITS` bits are the
register (00_scope.md R8; log 13). -/
abbrev Byte := BitVec 8

/-- Every u16 operand (30_encoding.md R100), and the container of one sample, of which the low `SAMPLE_CONTAINER_BITS` bits are
stored (00_scope.md R8; log 13). -/
abbrev Half := BitVec 16

/-- One host operation word or extension word (30_encoding.md R99, R100), and the container of one command frame, whose low
`CMD_WORD_BITS` bits are the frame (30_encoding.md R91; log 13). -/
abbrev Word := BitVec 32

/-- A register address: an index of the 256-entry register file (20_memory.md R61), of which a frame carries the low
`FRAME_ADDR_BITS` bits (30_encoding.md R91, 90_conflicts.md C5). -/
abbrev RegAddr := BitVec 8

end Sys2Proof
end

