-- ==== Sys2Proof/Config.lean ====
section
/-! DEFINITION. What an implementation fixes (00_scope.md R7, R8), and the free values: the answers that no rule of the
spec constrains. The free values have no body, so no proof can rest on one. -/

namespace Sys2Proof

/-- The three flag input pins (10_state.md R36). -/
inductive FlagPin where
  | tx   -- tx-active
  | rx   -- rx-active
  | ovl  -- fault/overload
  deriving DecidableEq, Repr, Inhabited

/-- Which agent takes the next step (00_scope.md R6; 42_sched.md R230, R232, R233; 60_exceptions.md R261, R262, R265). -/
inductive Turn where
  | host                   -- HOST issues its next operation, or goes on from a wait
  | txeEmit                -- the TXE emit step
  | txeHalt                -- the TXE halt step
  | flagmon (x : FlagPin)  -- the FLAGMON instance of pin x
  | env (x : FlagPin)      -- ENV changes pin x to its other value
  deriving DecidableEq, Repr, Inhabited

/-- The three field positions of a command frame (30_encoding.md R91, 92_eei_decisions.md D4), each the number of the field's
lowest bit. The widths of `addr` and `data` are `FRAME_ADDR_BITS` and `REG_DATA_BITS`. -/
structure FramePlaces where
  /-- `rw`, bit 15. -/
  rw : Nat := 15
  /-- `addr`, bits 14:8. -/
  addrLo : Nat := 8
  /-- `data`, bits 7:0. -/
  dataLo : Nat := 0
  deriving DecidableEq, Repr

/-- The bit positions of the fields of the chip's registers (10_state.md R29, R31 to R34), each the number of the field's lowest
bit: the enable bits are one bit wide, the gain fields two, the calibration bits one. -/
structure RegisterPlaces where
  /-- ENABLE1 `PA`. -/
  pa : Nat := 0
  /-- ENABLE1 `TX`. -/
  tx : Nat := 1
  /-- ENABLE1 `RX`. -/
  rx : Nat := 2
  /-- ENABLE1 `DAC`. -/
  dac : Nat := 5
  /-- ENABLE2 `ZC`. -/
  zc : Nat := 0
  /-- ENABLE2 `REF1`. -/
  ref1 : Nat := 1
  /-- ENABLE2 `REF2`. -/
  ref2 : Nat := 2
  /-- ENABLE2 `PA_OUT`. -/
  paOut : Nat := 3
  /-- GAIN `RX1G`. -/
  rx1gLo : Nat := 0
  /-- GAIN `RX2G`. -/
  rx2gLo : Nat := 2
  /-- GAIN `TXG`. -/
  txgLo : Nat := 4
  /-- CONTROL1 `TX_CAL`. -/
  txCal : Nat := 0
  /-- CONTROL1 `RX_CAL`. -/
  rxCal : Nat := 1
  /-- CONTROL1 `TX_PGA_CAL`. -/
  txPgaCal : Nat := 2
  deriving DecidableEq, Repr

/-- The parameters the document leaves to the platform, with the spec's defaults (00_scope.md R8). A machine carries one
such record and never changes it (log 13). -/
structure Config where
  /-- `SAMPLE_BITS`, 10 to 16. -/
  sampleBits : Nat := 10
  /-- `SAMPLE_CONTAINER_BITS`, at least `SAMPLE_BITS`: a stored sample fits `SAMPLE_BITS` (20_memory.md R70) and so its container. -/
  sampleContainerBits : Nat := 16
  /-- `CMD_WORD_BITS`. -/
  cmdWordBits : Nat := 16
  /-- `FRAME_ADDR_BITS`. -/
  frameAddrBits : Nat := 7
  /-- `REG_DATA_BITS`. -/
  regDataBits : Nat := 8
  /-- The field positions of a command frame (30_encoding.md R91). -/
  frame : FramePlaces := {}
  /-- The field positions of the registers (10_state.md R29). -/
  places : RegisterPlaces := {}
  /-- `A_ENABLE1`. -/
  aEnable1 : RegAddr := 0x01#8
  /-- `A_GAIN`. -/
  aGain : RegAddr := 0x02#8
  /-- `A_ENABLE2`. -/
  aEnable2 : RegAddr := 0x03#8
  /-- `A_CONTROL1`. -/
  aControl1 : RegAddr := 0x04#8
  /-- `A_REVISION`. -/
  aRevision : RegAddr := 0x0B#8
  /-- `EXPECTED_REVISION`. -/
  expectedRevision : Byte := 0x02#8
  /-- `LADDER_RUNGS`. -/
  ladderRungs : Nat := 16
  /-- `DMA_MAX_SAMPLES`. -/
  dmaMaxSamples : Nat := 2048
  /-- `S_MAX`. -/
  sMax : Nat := 65535
  deriving DecidableEq, Repr

/-- The defaults of 00_scope.md R8. -/
def Config.default : Config := {}

/-- Two fields, each a lowest bit and a width, share no bit. -/
def apart (lo n lo' n' : Nat) : Bool := decide (lo + n ≤ lo' ∨ lo' + n' ≤ lo)

/-- The fields of a frame lie in the word and share no bit (30_encoding.md R91), and the widths fit the containers: an operand is
a u8 (R100) and the register file has 256 entries (00_scope.md R7). -/
def Config.frameAdmissible (c : Config) : Bool :=
  decide (c.cmdWordBits ≤ 32 ∧ c.frameAddrBits ≤ 8 ∧ c.regDataBits ≤ 8) &&
    decide (c.frame.rw < c.cmdWordBits ∧ c.frame.addrLo + c.frameAddrBits ≤ c.cmdWordBits ∧
      c.frame.dataLo + c.regDataBits ≤ c.cmdWordBits) &&
    (apart c.frame.rw 1 c.frame.addrLo c.frameAddrBits && apart c.frame.rw 1 c.frame.dataLo c.regDataBits &&
      apart c.frame.addrLo c.frameAddrBits c.frame.dataLo c.regDataBits)

/-- The fields of each register lie in it and share no bit (10_state.md R31 to R34). -/
def Config.placesAdmissible (c : Config) : Bool :=
  decide (c.places.pa < c.regDataBits ∧ c.places.tx < c.regDataBits ∧ c.places.rx < c.regDataBits ∧
      c.places.dac < c.regDataBits ∧ [c.places.pa, c.places.tx, c.places.rx, c.places.dac].Nodup) &&
    decide (c.places.zc < c.regDataBits ∧ c.places.ref1 < c.regDataBits ∧ c.places.ref2 < c.regDataBits ∧
      c.places.paOut < c.regDataBits ∧ [c.places.zc, c.places.ref1, c.places.ref2, c.places.paOut].Nodup) &&
    decide (c.places.rx1gLo + 2 ≤ c.regDataBits ∧ c.places.rx2gLo + 2 ≤ c.regDataBits ∧
      c.places.txgLo + 2 ≤ c.regDataBits) &&
    (apart c.places.rx1gLo 2 c.places.rx2gLo 2 && apart c.places.rx1gLo 2 c.places.txgLo 2 &&
      apart c.places.rx2gLo 2 c.places.txgLo 2) &&
    decide (c.places.txCal < c.regDataBits ∧ c.places.rxCal < c.regDataBits ∧ c.places.txPgaCal < c.regDataBits ∧
      [c.places.txCal, c.places.rxCal, c.places.txPgaCal].Nodup)

/-- The five registers stand at five addresses a frame can carry, and the expected revision is a value of a register
(10_state.md R29, R35: no aliases). -/
def Config.addressesAdmissible (c : Config) : Bool :=
  decide (c.aEnable1.toNat < 2 ^ c.frameAddrBits ∧ c.aGain.toNat < 2 ^ c.frameAddrBits ∧
      c.aEnable2.toNat < 2 ^ c.frameAddrBits ∧ c.aControl1.toNat < 2 ^ c.frameAddrBits ∧
      c.aRevision.toNat < 2 ^ c.frameAddrBits ∧ c.expectedRevision.toNat < 2 ^ c.regDataBits) &&
    decide ([c.aEnable1, c.aGain, c.aEnable2, c.aControl1, c.aRevision].Nodup)

/-- The parameters describe a machine: 00_scope.md R8's ranges, and fields that lie in their words and share no bit (log 13). -/
def Config.admissible (c : Config) : Bool :=
  decide (10 ≤ c.sampleBits ∧ c.sampleBits ≤ c.sampleContainerBits ∧ c.sampleContainerBits ≤ 16 ∧ 1 ≤ c.ladderRungs) &&
    c.frameAdmissible && c.placesAdmissible && c.addressesAdmissible

/-- The low `REG_DATA_BITS` bits of a value, as a register holds them (00_scope.md R8). At R8's 8 bits a byte is kept whole
(log 24). -/
def Config.regBits (c : Config) {n : Nat} (v : BitVec n) : Byte := (v.setWidth c.regDataBits).setWidth 8

/-- `REG_COUNT`, the entries of the shadow register file (00_scope.md R7). -/
def Config.regCount : Nat := 256

/-- `BUS_TOP_BPS`, the top rung of the ladder in bit/s (00_scope.md R7). -/
def Config.busTopBps : Rat := 12000000

/-- `WORD_OVERHEAD`, bit-times per sample word (00_scope.md R7). -/
def Config.wordOverhead : Rat := 21 / 2

/-- `CS_PULSE`, seconds per word (00_scope.md R7). -/
def Config.csPulse : Rat := 165 / 10 ^ 9

/-- Free value: ENV's answer to the n-th unlisted resource request (60_exceptions.md R252: `draw Bool`; log 6). -/
opaque Config.resourceAnswer : Nat → Bool

/-- Free value: the word a physical chip sends during the second frame of the n-th unlisted read
(20_memory.md R66: `draw u8` in bits 7:0; log 7). -/
opaque Config.receivedWord : Nat → Word

/-- Free value: sample `p` of the data `FillSrc(n, S)` where the state lists none (42_sched.md R206; log 8). -/
opaque Config.fillSample : (n S p : Nat) → Half

/-- Free value: which agent moves at the n-th unlisted turn (42_sched.md R233, 60_exceptions.md R265; log 1). -/
opaque Config.scheduledTurn : Nat → Turn

end Sys2Proof
end

