-- ==== Sys2Proof/Syntax.lean ====
section
/-! DEFINITION. The instructions: one constructor per row of spec/opcode_table.json (00_scope.md R15: an "instruction" is a
host operation; the wire words CMD_WRITE, CMD_READ and SAMPLE are the table's three other rows). Operands stand as the
word carries them, u8, u16 or u32; whether one is in its legal range is checked when the operation runs (30_encoding.md
R106). -/

namespace Sys2Proof

inductive Instr where
  -- BUS operations (30_encoding.md R101)
  | busCreate (a : Byte)
  | busRelease
  | busConfigure (a : Byte) (w : Half)
  | busSetSampleMode (a : Byte)
  | busWriteCommand (a b : Byte)
  | busReadCommand (a : Byte)
  | busTransferSingleSample (w : Half)
  | busTransferSampleBuffer (samples : List Half)
  | busRateToBits (e : Word)
  | busBitsToRate (a : Byte)
  | busGetEffectiveRate
  -- AFEC operations (30_encoding.md R102)
  | afeCreate
  | afeRelease
  | afeActivateBlocks (m : Byte)
  | afeSetGainTx (g : Byte)
  | afeSetGainsRx (g1 g2 : Byte)
  | afeSetCalibration (c : Byte)
  | afeSetStandby (a : Byte)
  | afeGetRevision
  | afeGetState
  | afeSetFlagsCallback (a : Byte)
  | afeIsPresent
  -- SCHED operations (30_encoding.md R103)
  | schedCreate (v : Byte) (w : Half)
  | schedStart
  | schedFillNextBuffer
  | schedFlushAndWaitBuffer
  | schedGetAddressBufferInTx
  | schedStop
  | schedRelease
  | schedGetMissed
  -- wire words (30_encoding.md R91 to R96)
  | cmdWrite (addr : RegAddr) (data : Byte)
  | cmdRead (addr : RegAddr)
  | sample (w : Half)
  deriving DecidableEq, Repr

end Sys2Proof
end

