-- ==== Sys2Proof/WellFormed.lean ====
section
/-! DEFINITION. Which instructions have an encoding. An operand outside its legal range is still well formed
(30_encoding.md R106: "A well-formed word whose operand is outside the legal range is rejected with status E_PARAM"); what
has no word at all is a sample list longer than the u16 count field, a wire sample wider than SAMPLE_BITS, and a frame's address
or data wider than its field. -/

namespace Sys2Proof

/-- `i` can be written as words on a machine with parameters `c`. -/
def Instr.wellFormed (c : Config) : Instr → Bool
  | .busTransferSampleBuffer samples => decide (samples.length < 65536)  -- format HV, field w (30_encoding.md R100)
  | .sample s => decide (s.toNat < 2 ^ c.sampleBits)                     -- format FS (30_encoding.md R96)
  | .cmdWrite a v => decide (a.toNat < 2 ^ c.frameAddrBits ∧ v.toNat < 2 ^ c.regDataBits)  -- format F16 (30_encoding.md R91)
  | .cmdRead a => decide (a.toNat < 2 ^ c.frameAddrBits)
  | .busCreate _ => true
  | .busRelease => true
  | .busConfigure _ _ => true
  | .busSetSampleMode _ => true
  | .busWriteCommand _ _ => true
  | .busReadCommand _ => true
  | .busTransferSingleSample _ => true
  | .busRateToBits _ => true
  | .busBitsToRate _ => true
  | .busGetEffectiveRate => true
  | .afeCreate => true
  | .afeRelease => true
  | .afeActivateBlocks _ => true
  | .afeSetGainTx _ => true
  | .afeSetGainsRx _ _ => true
  | .afeSetCalibration _ => true
  | .afeSetStandby _ => true
  | .afeGetRevision => true
  | .afeGetState => true
  | .afeSetFlagsCallback _ => true
  | .afeIsPresent => true
  | .schedCreate _ _ => true
  | .schedStart => true
  | .schedFillNextBuffer => true
  | .schedFlushAndWaitBuffer => true
  | .schedGetAddressBufferInTx => true
  | .schedStop => true
  | .schedRelease => true
  | .schedGetMissed => true

end Sys2Proof
end

