-- ==== Sys2Proof/Decode.lean ====
section
/-! DEFINITION. The decoder and, after it, the encoder, both from 30_encoding.md: the command frame (R91 to R95), the sample
word (R96) and the host operation word (R99 to R106). Nothing is byte-addressed, so there is no byte order (20_memory.md
R68): a host operation is a list of 32-bit words, a wire word one 16-bit container. -/

namespace Sys2Proof

/-! ## Command frames -/

/-- What a command frame says (30_encoding.md R95). -/
inductive Frame where
  | write (addr : RegAddr) (data : Byte)
  | read (addr : RegAddr)
  deriving DecidableEq, Repr

/-- The `n` bits from bit `lo` up, as a byte. -/
def fieldOf (w : Word) (lo n : Nat) : Byte := (w.extractLsb' lo n).setWidth 8

/-- The low `n` bits of a byte, moved to bit `lo`. -/
def fieldAt (v : Byte) (lo n : Nat) : Word := ((v.setWidth n).setWidth 32) <<< lo

/-- The low `CMD_WORD_BITS` bits: a command frame is one word of that width (30_encoding.md R91). -/
def Config.frameWord (c : Config) (w : Word) : Word := (w.setWidth c.cmdWordBits).setWidth 32

/-- `dec(w)` (30_encoding.md R95): total, every frame word is a frame, and a read frame's data bits are ignored. The three field
positions are the configuration's (R91). -/
def decFrame (c : Config) (w : Word) : Frame :=
  let f := c.frameWord w
  if f.getLsbD c.frame.rw then .read (fieldOf f c.frame.addrLo c.frameAddrBits)
  else .write (fieldOf f c.frame.addrLo c.frameAddrBits) (fieldOf f c.frame.dataLo c.regDataBits)

/-- `enc_write(a, v)` (30_encoding.md R92): the read/write bit is 0. -/
def encWrite (c : Config) (a : RegAddr) (v : Byte) : Word :=
  c.frameWord (fieldAt a c.frame.addrLo c.frameAddrBits ||| fieldAt v c.frame.dataLo c.regDataBits)

/-- `enc_read(a)` (30_encoding.md R93): the read/write bit is 1, the data field is sent as zero. -/
def encRead (c : Config) (a : RegAddr) : Word :=
  c.frameWord (fieldAt 1 c.frame.rw 1 ||| fieldAt a c.frame.addrLo c.frameAddrBits)

/-- The instruction a frame stands for. -/
def Frame.instr : Frame → Instr
  | .write a v => .cmdWrite a v
  | .read a => .cmdRead a

/-! ## Host operation words -/

/-- Why a word is not an operation (30_encoding.md R104, 40_bus.md R127): each is answered with status E_OP. -/
inductive Reject where
  | unknownOperation   -- the operation code is assigned to nothing
  | mustBeZero         -- a must-be-zero field is not zero
  | extensionHighBits  -- bits 31:16 of a sample extension word are not zero
  deriving DecidableEq, Repr

/-- The decoder's answer: an operation and the words after it, a rejection by name, or that HOST has not yet presented all
the words the operation is made of (30_encoding.md R105; log 3). -/
inductive Decoded where
  | instr (i : Instr) (rest : List Word)
  | reject (why : Reject)
  | incomplete
  deriving DecidableEq, Repr

/-- Bits 31:24, the operation code (30_encoding.md R100). -/
def opField (w : Word) : Byte := w.extractLsb' 24 8
/-- Bits 23:16. -/
def highField (w : Word) : Byte := w.extractLsb' 16 8
/-- Bits 15:8. -/
def midField (w : Word) : Byte := w.extractLsb' 8 8
/-- Bits 7:0. -/
def lowField (w : Word) : Byte := w.extractLsb' 0 8
/-- Bits 15:0, the field `w` of formats HW and HV. -/
def halfField (w : Word) : Half := w.extractLsb' 0 16

/-- Format H0: no operands, bits 23:0 zero. -/
def decodeH0 (w : Word) (rest : List Word) (i : Instr) : Decoded :=
  if highField w = 0 ∧ midField w = 0 ∧ lowField w = 0 then .instr i rest else .reject .mustBeZero

/-- Format H1: one u8 in bits 7:0, bits 23:8 zero. -/
def decodeH1 (w : Word) (rest : List Word) (f : Byte → Instr) : Decoded :=
  if highField w = 0 ∧ midField w = 0 then .instr (f (lowField w)) rest else .reject .mustBeZero

/-- Format H2: two u8 in bits 15:8 and 7:0, bits 23:16 zero. -/
def decodeH2 (w : Word) (rest : List Word) (f : Byte → Byte → Instr) : Decoded :=
  if highField w = 0 then .instr (f (midField w) (lowField w)) rest else .reject .mustBeZero

/-- Format HW: a u8 in bits 23:16 and a u16 in bits 15:0. -/
def decodeHW (w : Word) (rest : List Word) (f : Byte → Half → Instr) : Decoded :=
  .instr (f (highField w) (halfField w)) rest

/-- Format HX: bits 23:0 zero, then one extension word. -/
def decodeHX (w : Word) (rest : List Word) (f : Word → Instr) : Decoded :=
  if highField w = 0 ∧ midField w = 0 ∧ lowField w = 0 then
    match rest with
    | [] => .incomplete
    | e :: rest' => .instr (f e) rest'
  else .reject .mustBeZero

/-- The extension words of format HV: `n` words `0x0000 ++ sample`, each added to `acc` in order. A word whose bits 31:16 are not
zero rejects the operation as soon as it stands at the port, also while later extension words are still missing; a missing word
before it leaves the operation incomplete (DESIGN CHOICE, log 3: 30_encoding.md R105 and 40_bus.md R127 do not say when an
operation presented in part is answered). -/
def decodeSamples (f : List Half → Instr) : Nat → List Half → List Word → Decoded
  | 0, acc, rest => .instr (f acc) rest
  | _ + 1, _, [] => .incomplete
  | n + 1, acc, e :: rest =>
    if e.extractLsb' 16 16 = 0#16 then decodeSamples f n (acc ++ [halfField e]) rest else .reject .extensionHighBits

/-- Format HV: a count in bits 15:0, bits 23:16 zero, then that many sample words. -/
def decodeHV (w : Word) (rest : List Word) (f : List Half → Instr) : Decoded :=
  if highField w = 0 then decodeSamples f (halfField w).toNat [] rest else .reject .mustBeZero

/-- The operation code map (30_encoding.md R101 to R104), total on any list of words. -/
def decodeWords : List Word → Decoded
  | [] => .incomplete
  | w :: rest =>
    match (opField w).toNat with
    | 0x01 => decodeH1 w rest .busCreate
    | 0x02 => decodeH0 w rest .busRelease
    | 0x03 => decodeHW w rest .busConfigure
    | 0x04 => decodeH1 w rest .busSetSampleMode
    | 0x05 => decodeH2 w rest .busWriteCommand
    | 0x06 => decodeH1 w rest .busReadCommand
    | 0x07 => if highField w = 0 then .instr (.busTransferSingleSample (halfField w)) rest else .reject .mustBeZero
    | 0x08 => decodeHV w rest .busTransferSampleBuffer
    | 0x09 => decodeHX w rest .busRateToBits
    | 0x0A => decodeH1 w rest .busBitsToRate
    | 0x0B => decodeH0 w rest .busGetEffectiveRate
    | 0x10 => decodeH0 w rest .afeCreate
    | 0x11 => decodeH0 w rest .afeRelease
    | 0x12 => decodeH1 w rest .afeActivateBlocks
    | 0x13 => decodeH1 w rest .afeSetGainTx
    | 0x14 => decodeH2 w rest .afeSetGainsRx
    | 0x15 => decodeH1 w rest .afeSetCalibration
    | 0x16 => decodeH1 w rest .afeSetStandby
    | 0x17 => decodeH0 w rest .afeGetRevision
    | 0x18 => decodeH0 w rest .afeGetState
    | 0x19 => decodeH1 w rest .afeSetFlagsCallback
    | 0x1A => decodeH0 w rest .afeIsPresent
    | 0x20 => decodeHW w rest .schedCreate
    | 0x21 => decodeH0 w rest .schedStart
    | 0x22 => decodeH0 w rest .schedFillNextBuffer
    | 0x23 => decodeH0 w rest .schedFlushAndWaitBuffer
    | 0x24 => decodeH0 w rest .schedGetAddressBufferInTx
    | 0x25 => decodeH0 w rest .schedStop
    | 0x26 => decodeH0 w rest .schedRelease
    | 0x27 => decodeH0 w rest .schedGetMissed
    | _ => .reject .unknownOperation

/-! ## The three encoding spaces together -/

/-- An encoding in one of the three spaces (30_encoding.md R90). -/
inductive Code where
  | host (ws : List Word)   -- host operation words
  | frame (w : Word)        -- a command frame in its container
  | sample (w : Half)       -- a sample word in its container
  deriving DecidableEq, Repr

/-- The decoder of all three spaces. A frame and a sample word always decode (30_encoding.md R98). -/
def decode (c : Config) : Code → Decoded
  | .host ws => decodeWords ws
  | .frame w => .instr (decFrame c w).instr []
  | .sample w => .instr (.sample w) []

/-! ## The encoder -/

/-- The four bytes of an operation word, the operation code first (30_encoding.md R100). -/
def hostWord (op a b c : Byte) : Word := (op ++ a ++ b ++ c : BitVec 32)

/-- An operation word of format HW or HV. -/
def hostWordW (op a : Byte) (w : Half) : Word := (op ++ a ++ w : BitVec 32)

/-- The extension word of one sample (30_encoding.md R100, format HV). -/
def sampleExtension (s : Half) : Word := (0#16 ++ s : BitVec 32)

/-- The words of an instruction (30_encoding.md R92, R93, R96, R100 to R103); only a frame depends on the configuration. -/
def encode (cfg : Config) : Instr → Code
  | .busCreate a => .host [hostWord 0x01 0 0 a]
  | .busRelease => .host [hostWord 0x02 0 0 0]
  | .busConfigure a w => .host [hostWordW 0x03 a w]
  | .busSetSampleMode a => .host [hostWord 0x04 0 0 a]
  | .busWriteCommand a b => .host [hostWord 0x05 0 a b]
  | .busReadCommand a => .host [hostWord 0x06 0 0 a]
  | .busTransferSingleSample w => .host [hostWordW 0x07 0 w]
  | .busTransferSampleBuffer ss => .host (hostWordW 0x08 0 (BitVec.ofNat 16 ss.length) :: ss.map sampleExtension)
  | .busRateToBits e => .host [hostWord 0x09 0 0 0, e]
  | .busBitsToRate a => .host [hostWord 0x0A 0 0 a]
  | .busGetEffectiveRate => .host [hostWord 0x0B 0 0 0]
  | .afeCreate => .host [hostWord 0x10 0 0 0]
  | .afeRelease => .host [hostWord 0x11 0 0 0]
  | .afeActivateBlocks m => .host [hostWord 0x12 0 0 m]
  | .afeSetGainTx g => .host [hostWord 0x13 0 0 g]
  | .afeSetGainsRx g1 g2 => .host [hostWord 0x14 0 g1 g2]
  | .afeSetCalibration c => .host [hostWord 0x15 0 0 c]
  | .afeSetStandby a => .host [hostWord 0x16 0 0 a]
  | .afeGetRevision => .host [hostWord 0x17 0 0 0]
  | .afeGetState => .host [hostWord 0x18 0 0 0]
  | .afeSetFlagsCallback a => .host [hostWord 0x19 0 0 a]
  | .afeIsPresent => .host [hostWord 0x1A 0 0 0]
  | .schedCreate v w => .host [hostWordW 0x20 v w]
  | .schedStart => .host [hostWord 0x21 0 0 0]
  | .schedFillNextBuffer => .host [hostWord 0x22 0 0 0]
  | .schedFlushAndWaitBuffer => .host [hostWord 0x23 0 0 0]
  | .schedGetAddressBufferInTx => .host [hostWord 0x24 0 0 0]
  | .schedStop => .host [hostWord 0x25 0 0 0]
  | .schedRelease => .host [hostWord 0x26 0 0 0]
  | .schedGetMissed => .host [hostWord 0x27 0 0 0]
  | .cmdWrite a v => .frame (encWrite cfg a v)
  | .cmdRead a => .frame (encRead cfg a)
  | .sample s => .sample s

/-! ## A row of the opcode table as a number -/

/-- How many extension words an operation word calls for (30_encoding.md R105). -/
def extensionCount (w : Word) : Nat :=
  if opField w = 0x08#8 then (halfField w).toNat else if opField w = 0x09#8 then 1 else 0

/-- The encoding whose bits are the `nbits` low bits of `w`, the first word least significant and every bit above `nbits`
zero. More than 16 bits are host operation words, 16 bits a command frame, fewer a sample word (log 5). -/
def tableCode (nbits w : Nat) : Code :=
  let v := w % 2 ^ nbits
  if nbits < 16 then .sample (BitVec.ofNat 16 v)
  else if nbits = 16 then .frame (BitVec.ofNat 32 v)
  else
    let first := BitVec.ofNat 32 v
    .host (first :: (List.range (extensionCount first)).map fun k => BitVec.ofNat 32 (v >>> (32 * (k + 1))))

/-- The instruction the decoder reads from a row's bits, with the defaults of 00_scope.md R8; none where it refuses. -/
def decodeTableWord (nbits w : Nat) : Option Instr :=
  match decode Config.default (tableCode nbits w) with
  | .instr i _ => some i
  | .reject _ => none
  | .incomplete => none

end Sys2Proof
end

