-- ==== Sys2Proof/Machine/State.lean ====
section
/-! DEFINITION. The state of the block as plain data (10_state.md R20 to R51), the model's own bookkeeping of what the other
agents will do, the fault and refusal reasons, and the state at reset (R50, 70_reset_and_hazards.md R290, R291). -/

namespace Sys2Proof.Machine

/-! ## Why a run stops -/

/-- The sticky fault reasons (60_exceptions.md R254). A step raises one by recording it (`State.raise`); the step after
that answers it, since "from then on no agent takes a step" (R255; log 11). Stopping there is safe: it is the spec's own
end of the run. -/
inductive Fault where
  /-- F_INTEGRITY, raised by WriteVerify and MaskedUpdate when a readback disagrees with what was written. Safe. -/
  | integrity
  /-- F_LIFECYCLE, raised by every operation whose unit is ABSENT or RELEASED, by a second create, by a double release, and by
  BUS_RELEASE while a unit that depends on the bus is alive. Safe. -/
  | lifecycle
  /-- F_SEQ, raised by a fill or a flush out of turn and by SCHED_RELEASE without a prior stop. Safe. -/
  | seq
  /-- F_MODE, raised by a command transaction in SAMPLE mode and by a sample word in COMMAND mode. Safe. -/
  | mode
  /-- F_BUSY, raised by a HOST bus operation while TXE owns the bus. Safe. -/
  | busy
  /-- F_SAMPLE_RANGE, raised by MemWrite, SampleWord and BUS_TRANSFER_SAMPLE_BUFFER for a sample that does not fit. Safe. -/
  | sampleRange
  /-- F_UNWRITTEN, raised by MemRead for a buffer entry that was never filled. Safe. -/
  | unwritten
  deriving DecidableEq, Repr

/-- Why a step has no meaning. -/
inductive Refusal where
  /-- Answered by no arm any more: every instruction has its meaning. Safe. -/
  | notModelled (mnemonic : String)
  /-- Answered by the step after an operation returned E_REFUSED: "the run has no meaning from this point" (60_exceptions.md
  R250; log 12). Safe: nothing can be proved about what follows. -/
  | afterRefusedOperation
  deriving DecidableEq, Repr

/-! ## The bus handle -/

/-- The lifecycle of the bus and of the AFE handle (10_state.md R22). -/
inductive Life where
  | absent
  | live
  | released
  deriving DecidableEq, Repr

/-- `bus.mode` (10_state.md R24). -/
inductive BusMode where
  | command
  | sample
  deriving DecidableEq, Repr

/-- The bus handle (10_state.md R23 to R28). -/
structure BusHandle where
  /-- `bus.life` (R23). -/
  life : Life
  /-- `bus.mode` (R24). -/
  mode : BusMode
  /-- `bus.rung`, the configured rung of the bit-rate ladder (R25). -/
  rung : Nat
  /-- `bus.iwd`, the inter-word delay, read by no rule (R26). -/
  iwd : Half
  /-- `bus.emul`, true in EMU (R28). -/
  emul : Bool
  deriving DecidableEq, Repr

/-- The events of `bus_log` (10_state.md R30). -/
inductive BusEvent where
  | modeSel (b : Bool)                  -- MODE_SEL(b)
  | cmdWr (a : RegAddr) (v : Byte)      -- CMD_WR(a, v)
  | cmdRd (a : RegAddr) (v : Byte)      -- CMD_RD(a, v)
  | sample (w : Half)                   -- SAMPLE(w), w of SAMPLE_BITS bits in its container
  deriving DecidableEq, Repr

/-! ## The AFE handle and the flag pins -/

/-- One bit per flag pin (10_state.md R36, R38). -/
structure FlagBits where
  tx : Bool
  rx : Bool
  ovl : Bool
  deriving DecidableEq, Repr

/-- `afe.cal` (10_state.md R37). -/
inductive Cal where
  | none
  | tx
  | rx
  | txPga
  deriving DecidableEq, Repr

/-- The AFE handle (10_state.md R37 to R39). -/
structure AfeHandle where
  /-- `afe.life`. -/
  life : Life
  /-- `afe.revision`, read once by AFE_CREATE. -/
  revision : Byte
  /-- `afe.blocks`, in the layout of R39. -/
  blocks : Byte
  /-- `afe.cal`. -/
  cal : Cal
  /-- `afe.gain_tx`, 0 to 3. -/
  gainTx : BitVec 2
  /-- `afe.gain_rx1`, 0 to 3. -/
  gainRx1 : BitVec 2
  /-- `afe.gain_rx2`, 0 to 3. -/
  gainRx2 : BitVec 2
  /-- `afe.cb_on`, whether the combined flag callback is registered (R38). -/
  cbOn : Bool
  /-- `afe.pend`, the edges not yet reported (R38). -/
  pend : FlagBits
  deriving DecidableEq, Repr

/-! ## The scheduler instance -/

/-- `sch.life` (10_state.md R40). -/
inductive SchedLife where
  | absent
  | created
  | running
  | stopped
  | released
  deriving DecidableEq, Repr

/-- `sch.variant` (10_state.md R41). -/
inductive Variant where
  | sync
  | worker
  | dma
  deriving DecidableEq, Repr

/-- `sch.phase` (10_state.md R44). -/
inductive Phase where
  | needFill
  | needFlush
  deriving DecidableEq, Repr

/-- `sch.fresh[0]` and `sch.fresh[1]` (10_state.md R44). -/
structure FreshBits where
  b0 : Bool
  b1 : Bool
  deriving DecidableEq, Repr

/-- The scheduler instance (10_state.md R40 to R45), but for its buffers, which are `State.buf`. -/
structure Scheduler where
  /-- `sch.life` (R40). -/
  life : SchedLife
  /-- `sch.variant` (R41). -/
  variant : Variant
  /-- `sch.S`, the buffer length in samples (R41). -/
  len : Nat
  /-- `sch.fill_tgt`, the buffer the next fill writes (R43). -/
  fillTgt : Fin 2
  /-- `sch.tx_cur`, the buffer in flight (R43). -/
  txCur : Fin 2
  /-- `sch.tx_pos`, the position of the next sample TXE emits (R43). -/
  txPos : Nat
  /-- `sch.fresh` (R44). -/
  fresh : FreshBits
  /-- `sch.phase` (R44). -/
  phase : Phase
  /-- `sch.missed` (R45). -/
  missed : Nat
  /-- `sch.terminate` (R45). -/
  terminate : Bool
  /-- `sch.txe_active` (R45). -/
  txeActive : Bool
  deriving DecidableEq, Repr

/-- Which `block until` HOST is suspended in (42_sched.md R213). -/
inductive HostWait where
  | ready  -- HOST is not blocked
  | flush  -- SCHED_FLUSH_AND_WAIT_BUFFER (R205)
  | stop   -- SCHED_STOP (R208)
  deriving DecidableEq, Repr

/-! ## Results -/

/-- The statuses (60_exceptions.md R250). -/
inductive Status where
  | ok
  | ePresence
  | eResource
  | eParam
  | eState
  | eOp
  | eRefused
  deriving DecidableEq, Repr

/-- The value a host operation returns beside its status (30_encoding.md R109: typed values, no wire form). -/
inductive Value where
  | none
  | byte (v : Byte)          -- a register or revision value
  | rung (k : Nat)           -- a rung of the ladder
  | rate (r : Rat)           -- samples per second, exact
  | flag (b : Bool)
  | index (b : Fin 2)        -- a buffer index
  | count (n : Nat)
  | afeState (blocks : Byte) (cal : Cal) (gainTx gainRx1 gainRx2 : BitVec 2) (mode : BusMode) (rung : Nat) (iwd : Half)
  deriving DecidableEq, Repr

/-- What a host operation returned (00_scope.md R11, R12). -/
structure Result where
  status : Status
  value : Value
  deriving DecidableEq, Repr

/-! ## What the other agents will answer -/

/-- The answers of the outside world that are already fixed, each list from the next one on. Where a list is used up the
answer is a free value of Config (log 6, 7, 8). -/
structure Env where
  /-- ENV's answers to resource requests (60_exceptions.md R252). -/
  resources : List Bool
  /-- The words a physical chip sends during the second frame of a read (20_memory.md R66, 30_encoding.md R94), each in the
  container of a frame. -/
  received : List Word
  /-- The fill source: the data of invocation n is entry n (42_sched.md R206). -/
  fills : List (List Half)
  /-- How many answers have been free values so far. -/
  draws : Nat
  deriving DecidableEq, Repr

/-! ## The state -/

/-- Everything the spec gives the block, and the model's own fields, which stand last. -/
structure State where
  /-- The parameters of 00_scope.md R8, never written (log 13). -/
  cfg : Config
  /-- The bus handle (10_state.md R23 to R28). -/
  bus : BusHandle
  /-- `bus.shadow`, the register space in EMU (10_state.md R28); an unlisted entry reads 0 (log 19). -/
  shadow : List Host.Cell
  /-- The level last written to `pin.mode_sel` (10_state.md R27); `State.modeSelPin` is the pin. -/
  modeSel : Bool
  /-- `pin.flag_tx`, `pin.flag_rx`, `pin.flag_ovl` (10_state.md R36). -/
  flags : FlagBits
  /-- The AFE handle (10_state.md R37, R38). -/
  afe : AfeHandle
  /-- The scheduler instance (10_state.md R40 to R45). -/
  sch : Scheduler
  /-- `sch.buf`, by sample address b * S + p (10_state.md R42); an unlisted entry is empty (log 19). -/
  buf : List (Nat × Half)
  /-- `bus_log` (10_state.md R30). -/
  busLog : List BusEvent
  /-- `cb_log`: the three pin values of each FLAGS event (10_state.md R38). -/
  cbLog : List FlagBits
  /-- The results returned to HOST (00_scope.md R12). -/
  results : List Result
  /-- `fill_count` (10_state.md R51). -/
  fillCount : Nat
  /-- `fault` (10_state.md R47). -/
  fault : Option Fault
  /-- E_REFUSED has been returned (60_exceptions.md R250; log 12). -/
  runVoid : Bool
  /-- What HOST is waiting for (42_sched.md R213). -/
  wait : HostWait
  /-- Host operation words presented at the port and not yet taken (20_memory.md R60 (c); log 2). -/
  port : List Word
  /-- Bare wire words HOST has presented and not yet sent over the bus, each in the container of a frame (log 4). -/
  line : List Word
  /-- The schedule ahead (log 1). -/
  turns : List Turn
  /-- How many turns have been free choices so far (log 1). -/
  ticks : Nat
  /-- The outside world's answers (log 6, 7, 8). -/
  env : Env
  deriving DecidableEq, Repr

/-- Reset: the start of a board session (70_reset_and_hazards.md R290). Every field the table of 10_state.md R50 gives a value
has it; every field with "no value" holds the value log 9 names, the flag pins those of log 10. -/
def State.reset : State where
  cfg := Config.default
  bus := { life := .absent, mode := .command, rung := 0, iwd := 0, emul := false }
  shadow := []
  modeSel := false
  flags := { tx := false, rx := false, ovl := false }
  afe :=
    { life := .absent, revision := 0, blocks := 0, cal := .none, gainTx := 0, gainRx1 := 0, gainRx2 := 0, cbOn := false,
      pend := { tx := false, rx := false, ovl := false } }
  sch :=
    { life := .absent, variant := .sync, len := 0, fillTgt := 0, txCur := 0, txPos := 0,
      fresh := { b0 := false, b1 := false }, phase := .needFill, missed := 0, terminate := false, txeActive := false }
  buf := []
  busLog := []
  cbLog := []
  results := []
  fillCount := 0
  fault := none
  runVoid := false
  wait := .ready
  port := []
  line := []
  turns := []
  ticks := 0
  env := { resources := [], received := [], fills := [], draws := 0 }

end Sys2Proof.Machine
end

