-- ==== Sys2Proof/Machine/Memory.lean ====
section
/-! DEFINITION. The two address spaces (20_memory.md R60) as sparse lists in one canonical form: addresses strictly rising, and
no entry equal to what an unlisted address reads as. An unlisted register reads 0 (10_state.md R28: "Every entry is 0 after
BUS_CREATE"); an unlisted sample is empty (R42: "All entries are empty after SCHED_CREATE"). -/

namespace Sys2Proof.Machine

/-! ## Sparse lists -/

/-- The entry listed at address `a`. -/
def cellAt {α : Type} : List (Nat × α) → Nat → Option α
  | [], _ => none
  | (b, v) :: m, a => if a = b then some v else cellAt m a

/-- The list with `v` at address `a`, kept in rising order. -/
def cellPut {α : Type} (a : Nat) (v : α) : List (Nat × α) → List (Nat × α)
  | [] => [(a, v)]
  | (b, w) :: m => if a < b then (a, v) :: (b, w) :: m else if a = b then (a, v) :: m else (b, w) :: cellPut a v m

/-- The list with nothing at address `a`. -/
def cellDrop {α : Type} (a : Nat) : List (Nat × α) → List (Nat × α)
  | [] => []
  | (b, w) :: m => if a = b then m else (b, w) :: cellDrop a m

/-- Every address is above `lo`, and the addresses rise strictly. -/
def risingFrom {α : Type} : Nat → List (Nat × α) → Bool
  | _, [] => true
  | lo, (b, _) :: m => decide (lo < b) && risingFrom b m

/-- The addresses rise strictly. -/
def rising {α : Type} : List (Nat × α) → Bool
  | [] => true
  | (b, _) :: m => risingFrom b m

/-! ## The register space in EMU -/

/-- What `bus.shadow[a]` reads as (20_memory.md R62). -/
def shadowGet (m : List Host.Cell) (a : Nat) : Byte := (cellAt m a).getD 0

/-- `bus.shadow[a] <- v` (20_memory.md R62): writing 0 takes the entry out of the list. -/
def shadowPut (m : List Host.Cell) (a : Nat) (v : Byte) : List Host.Cell :=
  if v = 0 then cellDrop a m else cellPut a v m

/-- The canonical form of the register space on a machine with parameters `c`: rising addresses below `REG_COUNT`, no entry 0, and
every entry a value of `REG_DATA_BITS` bits. -/
def Memory.wf (c : Config) (m : List Host.Cell) : Bool :=
  rising m && m.all fun e => decide (e.1 < Config.regCount) && decide (e.2 ≠ 0) && decide (e.2.toNat < 2 ^ c.regDataBits)

/-! ## The sample-buffer space -/

/-- What the entry at sample address `a` holds; none is an empty entry (10_state.md R42). -/
def sampleAt (m : List (Nat × Half)) (a : Nat) : Option Half := cellAt m a

/-- The samples `vs` stored from address `a` on. -/
def samplesPut : Nat → List Half → List (Nat × Half) → List (Nat × Half)
  | _, [], m => m
  | a, v :: vs, m => samplesPut (a + 1) vs (cellPut a v m)

/-- The `n` entries from address `a` on; none if one of them is empty. -/
def samplesFrom (m : List (Nat × Half)) : Nat → Nat → Option (List Half)
  | _, 0 => some []
  | a, n + 1 =>
    match sampleAt m a, samplesFrom m (a + 1) n with
    | some v, some vs => some (v :: vs)
    | _, _ => none

/-- The canonical form of the sample-buffer space on a machine with parameters `c`: rising addresses, and every entry a sample below
2^SAMPLE_BITS (20_memory.md R70). -/
def SampleMemory.wf (c : Config) (m : List (Nat × Half)) : Bool :=
  rising m && m.all fun e => decide (e.2.toNat < 2 ^ c.sampleBits)

end Sys2Proof.Machine
end

