-- ==== Sys2Proof/Machine/Ops.lean ====
section
/-! DEFINITION. The operations every meaning is written over: returning a status, raising a fault, the checks, the draws from
the outside world, the register transactions, the sample word, the buffer accesses and the fill. -/

namespace Sys2Proof.Machine

/-! ## Code numbers -/

/-- The number of a status (00_scope.md R11, 60_exceptions.md R250). -/
def Status.code : Status → Nat
  | .ok => 0
  | .ePresence => 1
  | .eResource => 2
  | .eParam => 3
  | .eState => 4
  | .eOp => 5
  | .eRefused => 6

/-- The number of a fault reason (60_exceptions.md R254). -/
def Fault.code : Fault → Nat
  | .integrity => 1
  | .lifecycle => 2
  | .seq => 3
  | .mode => 4
  | .busy => 5
  | .sampleRange => 6
  | .unwritten => 7

/-! ## Ending an operation -/

/-- `return (status, value)` (00_scope.md R10, R11): HOST receives the result and goes on with whatever it chooses
(60_exceptions.md R267). -/
def State.reply (s : State) (st : Status) (v : Value := .none) : State :=
  { s with results := s.results ++ [{ status := st, value := v }] }

/-- `raise Fault(F)` (60_exceptions.md R255): the reason is recorded, the effects so far stay, nothing is returned. It is the
one way into a fault; there is no handler and no return from it (R266, R267), so nothing stands beside it. -/
def State.raise (s : State) (f : Fault) : State := { s with fault := some f }

/-- E_REFUSED is returned, and the run has no meaning from then on (60_exceptions.md R250; log 12). -/
def State.refuse (s : State) : State := { s.reply .eRefused with runVoid := true }

/-! ## Checks -/

/-- "require c else status E" (00_scope.md R11). -/
def State.requireStatus (s : State) (c : Prop) [Decidable c] (e : Status) (k : State) : State :=
  if c then k else s.reply e

/-- "require c else fault F" (00_scope.md R11). -/
def State.requireFault (s : State) (c : Prop) [Decidable c] (f : Fault) (k : State) : State :=
  if c then k else s.raise f

/-- `N_BUFFERS(variant)` (00_scope.md R7, 10_state.md R41). -/
def Variant.buffers : Variant → Nat
  | .sync => 1
  | .worker => 2
  | .dma => 2

/-- `sch.N` (10_state.md R41; log 17). -/
def State.schN (s : State) : Nat := s.sch.variant.buffers

/-- `bus_busy`, TXE owns the bus (40_bus.md R128). -/
def State.busBusy (s : State) : Bool := decide (s.sch.life = .running ∧ s.schN = 2)

/-- "require bus live" (40_bus.md R128). -/
def State.requireBusLive (s k : State) : State := s.requireFault (s.bus.life = .live) .lifecycle k

/-- "require bus idle" (40_bus.md R128). -/
def State.requireBusIdle (s k : State) : State := s.requireFault (s.busBusy = false) .busy k

/-- "require mode m" (40_bus.md R128). -/
def State.requireMode (s : State) (m : BusMode) (k : State) : State := s.requireFault (s.bus.mode = m) .mode k

/-- "require afe live" (41_afe.md R174). -/
def State.requireAfeLive (s k : State) : State := s.requireFault (s.afe.life = .live) .lifecycle k

/-- "require sch.life not in ABSENT, RELEASED" (42_sched.md R202 to R210). -/
def State.requireSched (s k : State) : State :=
  s.requireFault (s.sch.life ≠ .absent ∧ s.sch.life ≠ .released) .lifecycle k

/-- A part of an operation either goes on in a state or has ended the step by a fault, in the state the raise left. The whole
operation goes on with `k` in the first case only (60_exceptions.md R255). -/
def proceed {α : Type} (r : Except State α) (k : α → State) : State :=
  match r with
  | .error t => t
  | .ok x => k x

/-! ## Draws -/

/-- ENV's answer to a resource request (60_exceptions.md R252). -/
def State.drawResource (s : State) : State × Bool :=
  match s.env.resources with
  | b :: bs => ({ s with env.resources := bs }, b)
  | [] => ({ s with env.draws := s.env.draws + 1 }, Config.resourceAnswer s.env.draws)

/-- The word a physical chip sends during the second frame of a read (20_memory.md R66, 30_encoding.md R94). -/
def State.drawReceived (s : State) : State × Word :=
  match s.env.received with
  | w :: ws => ({ s with env.received := ws }, w)
  | [] => ({ s with env.draws := s.env.draws + 1 }, Config.receivedWord s.env.draws)

/-! ## Register transactions -/

/-- The pin `pin.mode_sel`: driven while the bus is alive, at the level last written (10_state.md R27, 40_bus.md R121). -/
def State.modeSelPin (s : State) : Option Bool := if s.bus.life = .live then some s.modeSel else none

/-- A write of `pin.mode_sel`, logged as MODE_SEL (10_state.md R27). -/
def State.driveModeSel (s : State) (b : Bool) : State :=
  { s with modeSel := b, busLog := s.busLog ++ [.modeSel b] }

/-- What a write frame makes of the register file in EMU: the entry its decoder names (40_bus.md R129, R131). -/
def frameWrite (c : Config) (m : List Host.Cell) (f : Word) : List Host.Cell :=
  match decFrame c f with
  | .write a v => shadowPut m a.toNat v
  | .read _ => m

/-- What a read frame reads of the register file in EMU: the entry its decoder names (40_bus.md R129, R130). -/
def frameRead (c : Config) (m : List Host.Cell) (f : Word) : Byte :=
  match decFrame c f with
  | .write _ _ => 0
  | .read a => shadowGet m a.toNat

/-- The point of the actual transfer of a write frame (40_bus.md R129, R131): EMU applies the decoder, PHYS sends the frame
and ignores the word received. -/
def State.transferWrite (s : State) (f : Word) : State :=
  if s.bus.emul then { s with shadow := frameWrite s.cfg s.shadow f } else s

/-- The point of the actual transfer of a read (40_bus.md R129, R130): EMU reads the decoded entry; PHYS sends the frame twice
and takes the low `REG_DATA_BITS` bits, 7:0, of the word received during the second (30_encoding.md R94). -/
def State.transferRead (s : State) (f : Word) : State × Byte :=
  if s.bus.emul then (s, frameRead s.cfg s.shadow f) else (s.drawReceived.1, s.cfg.regBits s.drawReceived.2)

/-- The register write transaction `x[a] <- v` (40_bus.md R131). -/
def State.writeReg (s : State) (a : RegAddr) (v : Byte) : State :=
  let t := s.transferWrite (encWrite s.cfg a v)
  { t with busLog := t.busLog ++ [.cmdWr a v] }

/-- The register read transaction `x[a]` (40_bus.md R130). -/
def State.readReg (s : State) (a : RegAddr) : State × Byte :=
  let t := s.transferRead (encRead s.cfg a)
  ({ t.1 with busLog := t.1.busLog ++ [.cmdRd a t.2] }, t.2)

/-- `WriteVerify(a, v)` (41_afe.md R164). -/
def State.writeVerify (s : State) (a : RegAddr) (v : Byte) : Except State State :=
  let r := (s.writeReg a v).readReg a
  if r.2 = v then .ok r.1 else .error (r.1.raise .integrity)

/-- `MaskedUpdate(a, mask, val)` (41_afe.md R164): the old value is read from the chip, the masked bits alone are compared. -/
def State.maskedUpdate (s : State) (a : RegAddr) (mask val : Byte) : Except State State :=
  let old := s.readReg a
  let r := (old.1.writeReg a ((old.2 &&& ~~~mask) ||| val)).readReg a
  if r.2 &&& mask = val then .ok r.1 else .error (r.1.raise .integrity)

/-! ## Sample words -/

/-- `s < 2^SAMPLE_BITS` (00_scope.md R8, 30_encoding.md R96). -/
def State.sampleFits (s : State) (w : Half) : Bool := decide (w.toNat < 2 ^ s.cfg.sampleBits)

/-- `SampleWord(s)` (40_bus.md R132): EMU and PHYS append the same event. -/
def State.sampleWord (s : State) (w : Half) : Except State State :=
  if s.bus.mode = .sample then
    if s.sampleFits w then .ok { s with busLog := s.busLog ++ [.sample w] } else .error (s.raise .sampleRange)
  else .error (s.raise .mode)

/-- `SampleWord` of each word in order. -/
def State.sampleWords (s : State) : List Half → Except State State
  | [] => .ok s
  | w :: ws =>
    match s.sampleWord w with
    | .error t => .error t
    | .ok t => t.sampleWords ws

/-! ## Buffer accesses -/

/-- The sample address of position `p` of buffer `b` (20_memory.md R60). -/
def State.sampleAddr (s : State) (b : Fin 2) (p : Nat) : Nat := b.val * s.sch.len + p

/-- `MemRead(b * S + p, n)` (20_memory.md R70): the access stays in the buffer and no entry is empty, else F_UNWRITTEN. -/
def State.memRead (s : State) (b : Fin 2) (p n : Nat) : Except State (List Half) :=
  if p + n ≤ s.sch.len then
    match samplesFrom s.buf (s.sampleAddr b p) n with
    | some vs => .ok vs
    | none => .error (s.raise .unwritten)
  else .error (s.raise .unwritten)

/-- `MemWrite(addr, n, v)` (20_memory.md R70): every sample fits, else F_SAMPLE_RANGE and nothing is stored. -/
def State.memWrite (s : State) (addr : Nat) (data : List Half) : Except State State :=
  if data.all s.sampleFits then .ok { s with buf := samplesPut addr data s.buf } else .error (s.raise .sampleRange)

/-- `SampleWord(MemRead(b * S + p, 1))` (42_sched.md R204, R230). -/
def State.sendEntry (s : State) (b : Fin 2) (p : Nat) : Except State State :=
  match s.memRead b p 1 with
  | .error t => .error t
  | .ok vs => s.sampleWords vs

/-- Sample `p` of the fill source's n-th invocation (42_sched.md R206): listed in the state, else a free value (log 8). It is
never truncated (30_encoding.md R96): `memWrite` checks it as it comes. -/
def State.fillSampleAt (s : State) (n p : Nat) : Half :=
  match (s.env.fills.getD n [])[p]? with
  | some v => v
  | none => Config.fillSample n s.sch.len p

/-- `FillSrc(n, S)`, exactly `S` samples (42_sched.md R206). -/
def State.fillSrc (s : State) (n : Nat) : List Half := (List.range s.sch.len).map (s.fillSampleAt n)

/-- `Fill(b)` (42_sched.md R206): the invocation is counted before its data is stored. -/
def State.fill (s : State) (b : Fin 2) : Except State State :=
  let t := { s with fillCount := s.fillCount + 1 }
  t.memWrite (t.sampleAddr b 0) (s.fillSrc s.fillCount)

/-- `1 - b`, the other buffer (40_bus.md R149). -/
def otherBuffer (b : Fin 2) : Fin 2 := 1 - b

/-- `sch.fresh[b]` (10_state.md R44). -/
def FreshBits.get (f : FreshBits) (b : Fin 2) : Bool := if b = 0 then f.b0 else f.b1

/-- `sch.fresh[b] <- v`. -/
def FreshBits.set (f : FreshBits) (b : Fin 2) (v : Bool) : FreshBits :=
  if b = 0 then { f with b0 := v } else { f with b1 := v }

end Sys2Proof.Machine
end

