-- ==== Sys2Proof/Machine/Flags.lean ====
section
/-! DEFINITION. The flag pins, their pending edges, and the steps of ENV and FLAGMON (60_exceptions.md R260 to R263). The block
has no condition flags: "The block has no other status flags and no condition codes" (10_state.md R36). -/

namespace Sys2Proof.Machine

/-- The bit of pin `x`. -/
def FlagBits.get (f : FlagBits) : FlagPin → Bool
  | .tx => f.tx
  | .rx => f.rx
  | .ovl => f.ovl

/-- The bits with that of pin `x` set to `v`. -/
def FlagBits.set (f : FlagBits) (x : FlagPin) (v : Bool) : FlagBits :=
  match x with
  | .tx => { f with tx := v }
  | .rx => { f with rx := v }
  | .ovl => { f with ovl := v }

/-- No edge pending. -/
def FlagBits.clear : FlagBits := { tx := false, rx := false, ovl := false }

/-- The ENV pin step (60_exceptions.md R261): an edge is pending only if the callback is registered. -/
def State.envStep (s : State) (x : FlagPin) : State :=
  let t := { s with flags := s.flags.set x (!s.flags.get x) }
  if s.afe.life = .live ∧ s.afe.cbOn = true then { t with afe.pend := s.afe.pend.set x true } else t

/-- When the FLAGMON step of pin `x` is enabled, in a state without a fault (60_exceptions.md R262). -/
def State.flagmonEnabled (s : State) (x : FlagPin) : Bool :=
  decide (s.afe.life = .live) && s.afe.cbOn && s.afe.pend.get x

/-- The FLAGMON step of pin `x` (60_exceptions.md R262). A step that is not enabled leaves everything (log 20). -/
def State.flagmonStep (s : State) (x : FlagPin) : State :=
  if s.flagmonEnabled x then
    { s with afe.pend := s.afe.pend.set x false, cbLog := s.cbLog ++ [s.flags] }
  else s

end Sys2Proof.Machine
end

