-- ==== Sys2Proof/Machine/Operands.lean ====
section
/-! DEFINITION. The operand forms of the host operations: what each u8 operand selects, and the register values it is encoded
to (10_state.md R29, R31 to R34, 41_afe.md R162 to R167), and the legal ranges (30_encoding.md R106). -/

namespace Sys2Proof.Machine

/-! ## Flags and modes -/

/-- An operand in {0, 1} (30_encoding.md R106). -/
def isFlag (a : Byte) : Bool := decide (a = 0 ∨ a = 1)

/-- The bus mode BUS_SET_SAMPLE_MODE selects (40_bus.md R123). -/
def modeOfFlag (a : Byte) : BusMode := if a = 1 then .sample else .command

/-- The variant code of SCHED_CREATE (30_encoding.md R103); 3 is HOST_AUDIO, which is no variant of the block. -/
def variantOf (v : Byte) : Variant := if v = 0 then .sync else if v = 1 then .worker else .dma

/-! ## Blocks -/

/-- Bit `i` of a block mask, moved to bit `j` of a register. -/
def blockBit (m : Byte) (i j : Nat) : Byte := (BitVec.ofBool (m.getLsbD i)).setWidth 8 <<< j

/-- `enc_enable1(m)`: PA, TX, RX, DAC (41_afe.md R162, 10_state.md R31, R39). -/
def encEnable1 (c : Config) (m : Byte) : Byte :=
  blockBit m 5 c.places.pa ||| blockBit m 1 c.places.tx ||| blockBit m 4 c.places.rx ||| blockBit m 0 c.places.dac

/-- `enc_enable2(m)`: ZC, REF1, REF2, PA_OUT (41_afe.md R162, 10_state.md R32, R39). -/
def encEnable2 (c : Config) (m : Byte) : Byte :=
  blockBit m 7 c.places.zc ||| blockBit m 2 c.places.ref1 ||| blockBit m 3 c.places.ref2 ||| blockBit m 6 c.places.paOut

/-! ## Gains -/

/-- The TXG field of GAIN, 0x30 at R8's defaults (10_state.md R33). -/
def txGainMask (c : Config) : Byte := 3#8 <<< c.places.txgLo
/-- The RX1G and RX2G fields of GAIN, 0x0F at R8's defaults (10_state.md R33). -/
def rxGainMask (c : Config) : Byte := 3#8 <<< c.places.rx1gLo ||| 3#8 <<< c.places.rx2gLo

/-- The level in the TXG field (41_afe.md R165). -/
def encGainTx (c : Config) (g : Byte) : Byte := g <<< c.places.txgLo
/-- The levels in the RX1G and RX2G fields (41_afe.md R166). -/
def encGainsRx (c : Config) (g1 g2 : Byte) : Byte := g1 <<< c.places.rx1gLo ||| g2 <<< c.places.rx2gLo

/-- A level 0 to 3 as the handle holds it (10_state.md R37). -/
def gainLevel (g : Byte) : BitVec 2 := g.setWidth 2

/-! ## Calibration -/

/-- The calibration field of CONTROL1, 0x07 at R8's defaults (10_state.md R34). -/
def calMask (c : Config) : Byte := 1#8 <<< c.places.txCal ||| 1#8 <<< c.places.rxCal ||| 1#8 <<< c.places.txPgaCal

/-- The mode an operand selects (41_afe.md R167). -/
def calOf (c : Byte) : Cal := if c = 0 then .none else if c = 1 then .tx else if c = 2 then .rx else .txPga

/-- The register code of a mode (41_afe.md R167, 10_state.md R34). -/
def calCode (c : Config) : Cal → Byte
  | .none => 0
  | .tx => 1#8 <<< c.places.txCal
  | .rx => 1#8 <<< c.places.rxCal
  | .txPga => 1#8 <<< c.places.txPgaCal

/-! ## Legal ranges -/

/-- The range of a register operand: an address the frame's address field can carry, 0 to 127 at R8's 7 bits (30_encoding.md R106,
90_conflicts.md C5). -/
def regAddrLegal (c : Config) (a : Byte) : Bool := decide (a.toNat < 2 ^ c.frameAddrBits)

/-- The range of SCHED_CREATE's operands (42_sched.md R201). -/
def schedOperandsLegal (c : Config) (v : Byte) (w : Half) : Bool :=
  decide (v.toNat ≤ 3 ∧ 1 ≤ w.toNat ∧ w.toNat ≤ c.sMax ∧ ¬ (v = 2 ∧ c.dmaMaxSamples < w.toNat))

end Sys2Proof.Machine
end

