-- ==== Sys2Proof/Machine/Afe.lean ====
section
/-! DEFINITION. The AFEC operations (41_afe.md R160 to R173). -/

namespace Sys2Proof.Machine

/-- The unwinding of a failed AFE_CREATE: the bus handle is released, without bus traffic (41_afe.md R160,
60_exceptions.md R252). -/
def State.unwindAfe (s : State) (e : Status) : State := { s with bus.life := .released }.reply e

/-- The revision probe of AFE_CREATE and what follows it (41_afe.md R160). -/
def State.probeAfe (s : State) : State :=
  let r := s.readReg s.cfg.aRevision
  if r.2 ≠ s.cfg.expectedRevision ∧ s.bus.emul = false then r.1.unwindAfe .ePresence
  else
    { r.1 with
      afe :=
        { r.1.afe with
          life := .live, revision := r.2, blocks := 0, cal := .none, gainTx := 0, gainRx1 := 0, gainRx2 := 0,
          cbOn := false } }.reply .ok

/-- AFE_CREATE (41_afe.md R160). -/
def execAfeCreate (s : State) : Host.Outcome State Fault Refusal :=
  .next <|
    s.requireFault (s.afe.life = .absent) .lifecycle <|
    s.requireStatus (s.bus.life = .live) .eState <|
    s.requireBusIdle <| s.requireMode .command <|
    if s.bus.emul then s.probeAfe
    else if s.drawResource.2 then s.drawResource.1.probeAfe
    else s.drawResource.1.unwindAfe .eResource

/-- AFE_RELEASE (41_afe.md R161): FLAGMON stops, no bus transfer, the chip stays as it is. -/
def execAfeRelease (s : State) : Host.Outcome State Fault Refusal :=
  .next <| s.requireAfeLive <| { s with afe.cbOn := false, afe.life := .released }.reply .ok

/-- What every setter requires (41_afe.md R174). -/
def State.requireSetter (s k : State) : State := s.requireAfeLive <| s.requireBusIdle <| s.requireMode .command k

/-- AFE_ACTIVATE_BLOCKS (41_afe.md R163): ENABLE1 is written and verified before ENABLE2 is touched. -/
def execAfeActivateBlocks (m : Byte) (s : State) : Host.Outcome State Fault Refusal :=
  .next <|
    s.requireSetter <|
    proceed (s.writeVerify s.cfg.aEnable1 (encEnable1 s.cfg m)) fun t =>
    proceed (t.writeVerify s.cfg.aEnable2 (encEnable2 s.cfg m)) fun u =>
    { u with afe.blocks := m }.reply .ok

/-- AFE_SET_GAIN_TX (41_afe.md R165). -/
def execAfeSetGainTx (g : Byte) (s : State) : Host.Outcome State Fault Refusal :=
  .next <|
    s.requireStatus (g.toNat ≤ 3) .eParam <|
    s.requireSetter <|
    proceed (s.maskedUpdate s.cfg.aGain (txGainMask s.cfg) (encGainTx s.cfg g)) fun t =>
    { t with afe.gainTx := gainLevel g }.reply .ok

/-- AFE_SET_GAINS_RX (41_afe.md R166): both stages by one masked update. -/
def execAfeSetGainsRx (g1 g2 : Byte) (s : State) : Host.Outcome State Fault Refusal :=
  .next <|
    s.requireStatus (g1.toNat ≤ 3 ∧ g2.toNat ≤ 3) .eParam <|
    s.requireSetter <|
    proceed (s.maskedUpdate s.cfg.aGain (rxGainMask s.cfg) (encGainsRx s.cfg g1 g2)) fun t =>
    { t with afe.gainRx1 := gainLevel g1, afe.gainRx2 := gainLevel g2 }.reply .ok

/-- AFE_SET_CALIBRATION (41_afe.md R167). -/
def execAfeSetCalibration (c : Byte) (s : State) : Host.Outcome State Fault Refusal :=
  .next <|
    s.requireStatus (c.toNat ≤ 3) .eParam <|
    s.requireSetter <|
    proceed (s.maskedUpdate s.cfg.aControl1 (calMask s.cfg) (calCode s.cfg (calOf c))) fun t =>
    { t with afe.cal := calOf c }.reply .ok

/-- AFE_SET_STANDBY (41_afe.md R169): the range check, then E_REFUSED in any state; nothing is read, written or sent. -/
def execAfeSetStandby (a : Byte) (s : State) : Host.Outcome State Fault Refusal :=
  .next <| s.requireStatus (isFlag a) .eParam <| s.refuse

/-- AFE_GET_REVISION (41_afe.md R170): the cached value, no transfer. -/
def execAfeGetRevision (s : State) : Host.Outcome State Fault Refusal :=
  .next <| s.requireAfeLive <| s.reply .ok (.byte s.afe.revision)

/-- AFE_GET_STATE (41_afe.md R171): cached fields only, no transfer. -/
def execAfeGetState (s : State) : Host.Outcome State Fault Refusal :=
  .next <|
    s.requireAfeLive <|
    s.reply .ok
      (.afeState s.afe.blocks s.afe.cal s.afe.gainTx s.afe.gainRx1 s.afe.gainRx2 s.bus.mode s.bus.rung s.bus.iwd)

/-- AFE_SET_FLAGS_CALLBACK (41_afe.md R172). -/
def execAfeSetFlagsCallback (a : Byte) (s : State) : Host.Outcome State Fault Refusal :=
  .next <|
    s.requireStatus (isFlag a) .eParam <|
    s.requireAfeLive <|
    if a = 1 then
      if s.afe.cbOn then s.reply .ok else { s with afe.pend := FlagBits.clear, afe.cbOn := true }.reply .ok
    else { s with afe.cbOn := false }.reply .ok

/-- AFE_IS_PRESENT (41_afe.md R173): from the emulation flag, no probe. -/
def execAfeIsPresent (s : State) : Host.Outcome State Fault Refusal :=
  .next <| s.requireBusLive <| s.reply .ok (.flag (!s.bus.emul))

end Sys2Proof.Machine
end

