-- ==== Sys2Proof/Machine/Rate.lean ====
section
/-! DEFINITION. Sample rates and bit rates, on exact rationals (40_bus.md R140 to R144). -/

namespace Sys2Proof.Machine

/-- `rung(k)` in bit/s (40_bus.md R141). -/
def rung (k : Nat) : Rat := Config.busTopBps / 2 ^ k

/-- `bits_to_rate(B)` (40_bus.md R142): one over the period of one sample word. -/
def bitsToRate (b : Rat) : Rat := 1 / (Config.wordOverhead / b + Config.csPulse)

/-- `eff(k)` (40_bus.md R142). -/
def eff (k : Nat) : Rat := bitsToRate (rung k)

/-- `ideal_bits(r)`, for 0 < r < 10^9/165 (40_bus.md R143). -/
def idealBits (r : Rat) : Rat := Config.wordOverhead / (1 / r - Config.csPulse)

/-- The largest rung index below `n` whose bit rate is at least `b`. -/
def slowestRung (b : Rat) : Nat → Option Nat
  | 0 => none
  | k + 1 => if b ≤ rung k then some k else slowestRung b k

/-- `rate_to_bits(r)` (40_bus.md R144); none is "unsupported". -/
def rateToBits (ladderRungs : Nat) (r : Rat) : Option Nat :=
  if r ≤ 0 ∨ 1 / Config.csPulse ≤ r then none
  else if rung 0 < idealBits r then none
  else slowestRung (idealBits r) ladderRungs

end Sys2Proof.Machine
end

