-- ==== Sys2Proof/Machine/Bus.lean ====
section
/-! DEFINITION. The BUS operations (40_bus.md R120 to R127, R145 to R147). -/

namespace Sys2Proof.Machine

/-- What BUS_CREATE does once its resources are acquired (40_bus.md R120). -/
def State.openBus (s : State) (emul : Bool) : State :=
  let t : State :=
    { s with
      bus := { life := .live, mode := .command, rung := 0, iwd := 0, emul := emul }
      shadow := if emul then [] else s.shadow }
  (t.driveModeSel false).reply .ok

/-- BUS_CREATE (40_bus.md R120). -/
def execBusCreate (a : Byte) (s : State) : Host.Outcome State Fault Refusal :=
  .next <|
    s.requireStatus (isFlag a) .eParam <|
    s.requireFault (s.bus.life = .absent) .lifecycle <|
    if a = 0 then
      if s.drawResource.2 then s.drawResource.1.openBus false else s.drawResource.1.reply .eResource
    else s.openBus true

/-- BUS_RELEASE (40_bus.md R121): no bus traffic; the mode-select pin is no longer driven. -/
def execBusRelease (s : State) : Host.Outcome State Fault Refusal :=
  .next <|
    s.requireBusLive <|
    s.requireFault (s.afe.life ≠ .live ∧ (s.sch.life = .absent ∨ s.sch.life = .released)) .lifecycle <|
    { s with bus.life := .released }.reply .ok

/-- BUS_CONFIGURE (40_bus.md R122). -/
def execBusConfigure (a : Byte) (w : Half) (s : State) : Host.Outcome State Fault Refusal :=
  .next <|
    s.requireStatus (a.toNat < s.cfg.ladderRungs) .eParam <|
    s.requireBusLive <| s.requireBusIdle <|
    { s with bus.rung := a.toNat, bus.iwd := w }.reply .ok

/-- BUS_SET_SAMPLE_MODE (40_bus.md R123): setting the mode the bus has changes and logs nothing. -/
def execBusSetSampleMode (a : Byte) (s : State) : Host.Outcome State Fault Refusal :=
  .next <|
    s.requireStatus (isFlag a) .eParam <|
    s.requireBusLive <| s.requireBusIdle <|
    if modeOfFlag a = s.bus.mode then s.reply .ok
    else ({ s with bus.mode := modeOfFlag a }.driveModeSel (decide (a = 1))).reply .ok

/-- BUS_WRITE_COMMAND (40_bus.md R124): a register takes the low `REG_DATA_BITS` bits of the value, at R8's 8 bits the whole of it
(log 24). -/
def execBusWriteCommand (a b : Byte) (s : State) : Host.Outcome State Fault Refusal :=
  .next <|
    s.requireStatus (regAddrLegal s.cfg a) .eParam <|
    s.requireBusLive <| s.requireBusIdle <| s.requireMode .command <|
    (s.writeReg a (s.cfg.regBits b)).reply .ok

/-- BUS_READ_COMMAND (40_bus.md R125). -/
def execBusReadCommand (a : Byte) (s : State) : Host.Outcome State Fault Refusal :=
  .next <|
    s.requireStatus (regAddrLegal s.cfg a) .eParam <|
    s.requireBusLive <| s.requireBusIdle <| s.requireMode .command <|
    (s.readReg a).1.reply .ok (.byte (s.readReg a).2)

/-- BUS_TRANSFER_SINGLE_SAMPLE (40_bus.md R126). -/
def execBusTransferSingleSample (w : Half) (s : State) : Host.Outcome State Fault Refusal :=
  .next <|
    s.requireBusLive <| s.requireBusIdle <|
    proceed (s.sampleWord w) fun t => t.reply .ok

/-- BUS_TRANSFER_SAMPLE_BUFFER (40_bus.md R127): every sample is checked before the first word is sent. -/
def execBusTransferSampleBuffer (samples : List Half) (s : State) : Host.Outcome State Fault Refusal :=
  .next <|
    s.requireBusLive <| s.requireBusIdle <| s.requireMode .sample <|
    s.requireFault (samples.all s.sampleFits) .sampleRange <|
    proceed (s.sampleWords samples) fun t => t.reply .ok

/-- BUS_RATE_TO_BITS (40_bus.md R145): needs no live handle. -/
def execBusRateToBits (e : Word) (s : State) : Host.Outcome State Fault Refusal :=
  .next <|
    s.requireStatus (1 ≤ e.toNat) .eParam <|
    match rateToBits s.cfg.ladderRungs (e.toNat : Rat) with
    | some k => s.reply .ok (.rung k)
    | none => s.reply .eParam

/-- BUS_BITS_TO_RATE (40_bus.md R146): pure. -/
def execBusBitsToRate (a : Byte) (s : State) : Host.Outcome State Fault Refusal :=
  .next <|
    s.requireStatus (a.toNat < s.cfg.ladderRungs) .eParam <|
    s.reply .ok (.rate (eff a.toNat))

/-- BUS_GET_EFFECTIVE_RATE (40_bus.md R147). -/
def execBusGetEffectiveRate (s : State) : Host.Outcome State Fault Refusal :=
  .next <| s.requireBusLive <| s.reply .ok (.rate (eff s.bus.rung))

end Sys2Proof.Machine
end

