-- ==== Sys2Proof/Machine/Sched.lean ====
section
/-! DEFINITION. The SCHED operations (42_sched.md R200 to R213) and what HOST does when a wait of its own ends. -/

namespace Sys2Proof.Machine

/-! ## Lifecycle operations -/

/-- What SCHED_CREATE does once its resources are acquired (42_sched.md R201). -/
def State.openSched (s : State) (v : Variant) (len : Nat) : State :=
  { s with
    sch := { s.sch with life := .created, variant := v, len := len, missed := 0, terminate := false, txeActive := false }
    buf := [] }.reply .ok

/-- SCHED_CREATE (42_sched.md R201): E_PARAM, then E_REFUSED, then the rule's own checks (60_exceptions.md R253). -/
def execSchedCreate (v : Byte) (w : Half) (s : State) : Host.Outcome State Fault Refusal :=
  .next <|
    s.requireStatus (schedOperandsLegal s.cfg v w) .eParam <|
    if v = 3 then s.refuse
    else
      s.requireFault (s.sch.life = .absent) .lifecycle <|
      s.requireStatus (s.bus.life = .live) .eState <|
      if s.bus.emul then s.openSched (variantOf v) w.toNat
      else if s.drawResource.2 then s.drawResource.1.openSched (variantOf v) w.toNat
      else s.drawResource.1.reply .eResource

/-- What SCHED_START does after the pre-fill (42_sched.md R202, 10_state.md R43, R44). -/
def State.beginRun (s : State) : State :=
  { s with
    sch :=
      { s.sch with
        life := .running
        fillTgt := if s.schN = 2 then 1 else 0
        txCur := 0
        txPos := 0
        fresh := { b0 := decide (s.schN = 2), b1 := if s.schN = 2 then false else s.sch.fresh.b1 }
        phase := .needFill
        txeActive := decide (s.schN = 2) } }.reply .ok

/-- The pre-fill of every buffer but one (42_sched.md R202): buffer 0 if there are two, nothing if there is one. -/
def State.prefill (s : State) : Except State State := if s.schN = 2 then s.fill 0 else .ok s

/-- SCHED_START (42_sched.md R202). -/
def execSchedStart (s : State) : Host.Outcome State Fault Refusal :=
  .next <|
    s.requireSched <|
    s.requireStatus (s.sch.life = .created) .eState <|
    s.requireStatus (s.bus.life = .live ∧ s.bus.mode = .sample) .eState <|
    if s.bus.emul = false ∧ s.schN = 2 then
      if s.drawResource.2 then proceed s.drawResource.1.prefill State.beginRun else s.drawResource.1.reply .eResource
    else proceed s.prefill State.beginRun

/-- The end of SCHED_STOP, when TXE has halted or never ran (42_sched.md R208). -/
def State.finishStop (s : State) : State := { s with sch.life := .stopped, wait := .ready }.reply .ok

/-- SCHED_STOP (42_sched.md R208): `terminate` first, then the wait for TXE to halt. -/
def execSchedStop (s : State) : Host.Outcome State Fault Refusal :=
  .next <|
    s.requireSched <|
    if s.sch.life = .created then { s with sch.life := .stopped }.reply .ok
    else if s.sch.life = .stopped then s.reply .ok
    else
      let t := { s with sch.terminate := true }
      if s.schN = 2 ∧ s.sch.txeActive = true then { t with wait := .stop } else t.finishStop

/-- SCHED_RELEASE (42_sched.md R209): the buffers no longer exist. -/
def execSchedRelease (s : State) : Host.Outcome State Fault Refusal :=
  .next <|
    s.requireSched <|
    s.requireFault (s.sch.life = .stopped) .seq <|
    { s with sch.life := .released, buf := [] }.reply .ok

/-! ## Steady-state operations -/

/-- SCHED_FILL_NEXT_BUFFER (42_sched.md R203). -/
def execSchedFillNextBuffer (s : State) : Host.Outcome State Fault Refusal :=
  .next <|
    s.requireSched <|
    s.requireFault (s.sch.life = .running ∧ s.sch.phase = .needFill) .seq <|
    proceed (s.fill s.sch.fillTgt) fun t =>
    { t with sch.fresh := t.sch.fresh.set s.sch.fillTgt true, sch.phase := .needFlush }.reply .ok

/-- `SampleWord(MemRead(p, 1))` for the `n` positions from `p` on, in increasing order (42_sched.md R204). -/
def State.sendFrom (s : State) (p : Nat) : Nat → Except State State
  | 0 => .ok s
  | n + 1 =>
    match s.sendEntry 0 p with
    | .error t => .error t
    | .ok t => t.sendFrom (p + 1) n

/-- `SyncTransmit` (42_sched.md R204). -/
def State.syncTransmit (s : State) : Except State State := s.sendFrom 0 s.sch.len

/-- The end of a two-buffer flush, when TXE has taken the buffer last filled (42_sched.md R205). -/
def State.finishFlush (s : State) : State :=
  { s with sch.fillTgt := otherBuffer s.sch.txCur, sch.phase := .needFill, wait := .ready }.reply .ok
    (.index (otherBuffer s.sch.txCur))

/-- SCHED_FLUSH_AND_WAIT_BUFFER (42_sched.md R205): one buffer is transmitted at once; with two, HOST blocks until TXE has
taken the buffer just filled. -/
def execSchedFlushAndWaitBuffer (s : State) : Host.Outcome State Fault Refusal :=
  .next <|
    s.requireSched <|
    s.requireFault (s.sch.life = .running ∧ s.sch.phase = .needFlush) .seq <|
    if s.schN = 1 then
      proceed s.syncTransmit fun t =>
      { t with sch.fresh := t.sch.fresh.set 0 false, sch.phase := .needFill }.reply .ok (.index 0)
    else if s.sch.txCur = s.sch.fillTgt then s.finishFlush
    else { s with wait := .flush }

/-- SCHED_GET_ADDRESS_BUFFER_IN_TX (42_sched.md R207). -/
def execSchedGetAddressBufferInTx (s : State) : Host.Outcome State Fault Refusal :=
  .next <|
    s.requireSched <|
    s.requireStatus (s.sch.life = .running) .eState <|
    s.reply .ok (.index s.sch.txCur)

/-- SCHED_GET_MISSED (42_sched.md R210). -/
def execSchedGetMissed (s : State) : Host.Outcome State Fault Refusal :=
  .next <| s.requireSched <| s.reply .ok (.count s.sch.missed)

/-! ## Waits -/

/-- The condition HOST is waiting for (42_sched.md R205, R208, R213). -/
def State.waitOver (s : State) : Bool :=
  match s.wait with
  | .ready => true
  | .flush => decide (s.sch.txCur = s.sch.fillTgt)
  | .stop => !s.sch.txeActive

/-- HOST goes on from its wait with the next line of the rule (42_sched.md R213; log 15). -/
def State.resume (s : State) : State :=
  match s.wait with
  | .ready => s
  | .flush => s.finishFlush
  | .stop => s.finishStop

end Sys2Proof.Machine
end

