-- ==== Sys2Proof/Machine/Wire.lean ====
section
/-! DEFINITION. The three wire rows of the opcode table as instructions: a command frame or a sample word presented to the bus
by itself. Each is its transaction (40_bus.md R130 to R132) under the preconditions the spec says its callers have required
(R131: "bus live, bus idle and mode COMMAND"; R126 for a sample word). A wire word returns no result to HOST (log 4). -/

namespace Sys2Proof.Machine

/-- CMD_WRITE: the register write transaction (30_encoding.md R92, 40_bus.md R131). -/
def execCmdWrite (addr : RegAddr) (data : Byte) (s : State) : Host.Outcome State Fault Refusal :=
  .next <| s.requireBusLive <| s.requireBusIdle <| s.requireMode .command <| s.writeReg addr data

/-- CMD_READ: the register read transaction, the frame sent twice (30_encoding.md R93, R94, 40_bus.md R130). -/
def execCmdRead (addr : RegAddr) (s : State) : Host.Outcome State Fault Refusal :=
  .next <| s.requireBusLive <| s.requireBusIdle <| s.requireMode .command <| (s.readReg addr).1

/-- SAMPLE: one sample word (30_encoding.md R96, 40_bus.md R132). -/
def execSample (w : Half) (s : State) : Host.Outcome State Fault Refusal :=
  .next <| s.requireBusLive <| s.requireBusIdle <| proceed (s.sampleWord w) fun t => t

end Sys2Proof.Machine
end

