-- ==== Sys2Proof/Machine/Dispatch.lean ====
section
/-! DEFINITION. One arm per instruction, each one direct call of its meaning. -/

namespace Sys2Proof.Machine

def exec (i : Instr) (s : State) : Host.Outcome State Fault Refusal :=
  match i with
  | .busCreate a => Sys2Proof.Machine.execBusCreate a s
  | .busRelease => Sys2Proof.Machine.execBusRelease s
  | .busConfigure a w => Sys2Proof.Machine.execBusConfigure a w s
  | .busSetSampleMode a => Sys2Proof.Machine.execBusSetSampleMode a s
  | .busWriteCommand a b => Sys2Proof.Machine.execBusWriteCommand a b s
  | .busReadCommand a => Sys2Proof.Machine.execBusReadCommand a s
  | .busTransferSingleSample w => Sys2Proof.Machine.execBusTransferSingleSample w s
  | .busTransferSampleBuffer samples => Sys2Proof.Machine.execBusTransferSampleBuffer samples s
  | .busRateToBits e => Sys2Proof.Machine.execBusRateToBits e s
  | .busBitsToRate a => Sys2Proof.Machine.execBusBitsToRate a s
  | .busGetEffectiveRate => Sys2Proof.Machine.execBusGetEffectiveRate s
  | .afeCreate => Sys2Proof.Machine.execAfeCreate s
  | .afeRelease => Sys2Proof.Machine.execAfeRelease s
  | .afeActivateBlocks m => Sys2Proof.Machine.execAfeActivateBlocks m s
  | .afeSetGainTx g => Sys2Proof.Machine.execAfeSetGainTx g s
  | .afeSetGainsRx g1 g2 => Sys2Proof.Machine.execAfeSetGainsRx g1 g2 s
  | .afeSetCalibration c => Sys2Proof.Machine.execAfeSetCalibration c s
  | .afeSetStandby a => Sys2Proof.Machine.execAfeSetStandby a s
  | .afeGetRevision => Sys2Proof.Machine.execAfeGetRevision s
  | .afeGetState => Sys2Proof.Machine.execAfeGetState s
  | .afeSetFlagsCallback a => Sys2Proof.Machine.execAfeSetFlagsCallback a s
  | .afeIsPresent => Sys2Proof.Machine.execAfeIsPresent s
  | .schedCreate v w => Sys2Proof.Machine.execSchedCreate v w s
  | .schedStart => Sys2Proof.Machine.execSchedStart s
  | .schedFillNextBuffer => Sys2Proof.Machine.execSchedFillNextBuffer s
  | .schedFlushAndWaitBuffer => Sys2Proof.Machine.execSchedFlushAndWaitBuffer s
  | .schedGetAddressBufferInTx => Sys2Proof.Machine.execSchedGetAddressBufferInTx s
  | .schedStop => Sys2Proof.Machine.execSchedStop s
  | .schedRelease => Sys2Proof.Machine.execSchedRelease s
  | .schedGetMissed => Sys2Proof.Machine.execSchedGetMissed s
  | .cmdWrite addr data => Sys2Proof.Machine.execCmdWrite addr data s
  | .cmdRead addr => Sys2Proof.Machine.execCmdRead addr s
  | .sample w => Sys2Proof.Machine.execSample w s

end Sys2Proof.Machine
end

