-- ==== Sys2Proof/Machine/Txe.lean ====
section
/-! DEFINITION. The transmit engine TXE and the double-buffer arbiter (42_sched.md R230 to R232). A step that is not enabled
leaves everything (log 20). -/

namespace Sys2Proof.Machine

/-- `BufferBoundary` after the last sample of buffer `c` (42_sched.md R231): TXE moves only to a fresh buffer; otherwise it
repeats the last good one and counts a missed buffer. Nothing is decided once `terminate` is set. -/
def State.bufferBoundary (s : State) : State :=
  let c := s.sch.txCur
  let t := { s with sch.txPos := 0, sch.fresh := s.sch.fresh.set c false }
  if s.sch.terminate then t
  else if t.sch.fresh.get (otherBuffer c) then { t with sch.txCur := otherBuffer c }
  else { t with sch.missed := s.sch.missed + 1 }

/-- When the emit step is enabled, in a state without a fault (42_sched.md R230). -/
def State.emitEnabled (s : State) : Bool :=
  decide (s.sch.life = .running ∧ s.schN = 2 ∧ s.sch.txeActive = true ∧ ¬ (s.sch.terminate = true ∧ s.sch.txPos = 0))

/-- The TXE emit step (42_sched.md R230): exactly one sample word. -/
def State.txeEmit (s : State) : State :=
  if s.emitEnabled then
    proceed (s.sendEntry s.sch.txCur s.sch.txPos) fun t =>
      if s.sch.txPos + 1 < s.sch.len then { t with sch.txPos := s.sch.txPos + 1 } else t.bufferBoundary
  else s

/-- When the halt step is enabled, in a state without a fault (42_sched.md R232). -/
def State.haltEnabled (s : State) : Bool := s.sch.txeActive && s.sch.terminate

/-- The TXE halt step (42_sched.md R232). -/
def State.txeHalt (s : State) : State := if s.haltEnabled then { s with sch.txeActive := false } else s

end Sys2Proof.Machine
end

