-- ==== Sys2Proof/Machine/Turns.lean ====
section
/-! DEFINITION. One turn of each agent: HOST taking the next operation from its port, sending a wire word or going on from a
wait; TXE, FLAGMON and ENV; and which agent moves next. FILL is the fifth agent: its step is part of the fill that asks for its
data (42_sched.md R206). -/

namespace Sys2Proof.Machine

/-- Which agent moves, and the state with that turn taken off the schedule (42_sched.md R233, 60_exceptions.md R265; log 1). -/
def State.nextTurn (s : State) : State × Turn :=
  match s.turns with
  | t :: ts => ({ s with turns := ts }, t)
  | [] => ({ s with ticks := s.ticks + 1 }, Config.scheduledTurn s.ticks)

/-- HOST presents the next operation at the port (30_encoding.md R105). A word that is no operation is answered E_OP and its
extension words are not consumed (R104); an operation whose words are not all there yet waits (log 3). -/
def hostOperation (s : State) : Host.Outcome State Fault Refusal :=
  match decodeWords s.port with
  | .instr i rest => exec i { s with port := rest }
  | .reject _ => .next ({ s with port := s.port.tail }.reply .eOp)
  | .incomplete => .next s

/-- The instruction a bare wire word stands for: the bus mode alone says how wide it is and what it means (20_memory.md R65,
30_encoding.md R96). None in SAMPLE mode for an entry of more than 16 bits, which is wider than any sample word (log 4). -/
def State.lineCode (s : State) (w : Word) : Option Code :=
  match s.bus.mode with
  | .command => some (.frame w)
  | .sample => if w.toNat < 65536 then some (.sample (w.setWidth 16)) else none

/-- HOST sends a bare wire word over the bus (log 4). One wider than any sample word is not truncated: it is a sample that does not
fit, under the checks of `execSample` (30_encoding.md R96). -/
def wireWord (w : Word) (s : State) : Host.Outcome State Fault Refusal :=
  match s.lineCode w with
  | none => .next <| s.requireBusLive <| s.requireBusIdle <| s.raise .sampleRange
  | some c =>
    match decode s.cfg c with
    | .instr i _ => exec i s
    | .reject _ => .next s
    | .incomplete => .next s

/-- What HOST does when it is not blocked: a bare wire word it has presented goes first, else the next operation at its port. -/
def hostReady (s : State) : Host.Outcome State Fault Refusal :=
  match s.line with
  | w :: ws => wireWord w { s with line := ws }
  | [] => hostOperation s

/-- HOST's turn: it takes no step while it waits for a condition that is false (42_sched.md R213). HOST alone runs BUS and AFEC
operations and sends wire words (00_scope.md R6). -/
def hostTurn (s : State) : Host.Outcome State Fault Refusal :=
  match s.wait with
  | .ready => hostReady s
  | .flush => .next (if s.waitOver then s.resume else s)
  | .stop => .next (if s.waitOver then s.resume else s)

/-- The turn of one agent. -/
def runTurn (s : State) : Turn → Host.Outcome State Fault Refusal
  | .host => hostTurn s
  | .txeEmit => .next s.txeEmit
  | .txeHalt => .next s.txeHalt
  | .flagmon x => .next (s.flagmonStep x)
  | .env x => .next (s.envStep x)

/-- `s` with HOST, not blocked and not stopped, to move next (log 23). -/
def State.hostNext (s : State) : State := { s with turns := .host :: s.turns, wait := .ready, fault := none, runVoid := false }

/-- `s` with `ws` presented at the port, nothing on the line before them, and HOST to move next (log 23). -/
def State.presentWords (s : State) (ws : List Word) : State := { s.hostNext with port := ws ++ s.port, line := [] }

/-- `s` with the wire word `w` presented in bus mode `m`, and HOST to move next (log 23). -/
def State.presentLine (s : State) (m : BusMode) (w : Word) : State := { s.hostNext with line := w :: s.line, bus.mode := m }

/-- `s` with an encoding placed where the next step takes it. -/
def State.present (s : State) : Code → State
  | .host ws => s.presentWords ws
  | .frame w => s.presentLine .command w
  | .sample w => s.presentLine .sample (w.setWidth 32)

end Sys2Proof.Machine
end

