-- ==== Sys2Proof/Machine/Step.lean ====
section
/-! DEFINITION. One step of the block: one step of one agent (00_scope.md R6). After a fault no agent steps (60_exceptions.md
R255); after E_REFUSED the run has no meaning (R250). -/

namespace Sys2Proof.Machine

def step (s : State) : Host.Outcome State Fault Refusal :=
  match s.fault with
  | some f => .fault f
  | none =>
    if s.runVoid then .refused .afterRefusedOperation
    else runTurn s.nextTurn.1 s.nextTurn.2

/-- The instruction whose bits are `w` stored where the next step takes it (log 2, 5, 23). -/
def State.withFetchWord (s : State) (nbits w : Nat) : State := s.present (tableCode nbits w)

end Sys2Proof.Machine
end

