-- ==== Sys2Proof/Safety.lean ====
section
/-! DEFINITION. What claims about runs are stated in: the premise of a working chip (20_memory.md R67), a properly ended run
(70_reset_and_hazards.md R305), and the invariants (10_state.md R49, 42_sched.md R234 and the rules named at each). -/

namespace Sys2Proof.Machine

/-! ## The premise ChipFaithful (20_memory.md R67) -/

/-- Every read of register `a` in the log returns the data of the last write to `a` before it, or, before any write, one value.
`cur` is the value the register is known to hold. -/
def readsFaithful (a : RegAddr) : Option Byte → List BusEvent → Bool
  | _, [] => true
  | cur, .modeSel _ :: l => readsFaithful a cur l
  | cur, .sample _ :: l => readsFaithful a cur l
  | cur, .cmdWr b v :: l => readsFaithful a (if b = a then some v else cur) l
  | cur, .cmdRd b v :: l =>
    if b = a then decide (cur = none ∨ cur = some v) && readsFaithful a (some v) l else readsFaithful a cur l

/-- Every read of REVISION in the log returns EXPECTED_REVISION. -/
def revisionFaithful (c : Config) : List BusEvent → Bool
  | [] => true
  | .cmdRd b v :: l => decide (b = c.aRevision → v = c.expectedRevision) && revisionFaithful c l
  | .cmdWr _ _ :: l => revisionFaithful c l
  | .modeSel _ :: l => revisionFaithful c l
  | .sample _ :: l => revisionFaithful c l

/-- `ChipFaithful`, read off the bus history. -/
def ChipFaithful (c : Config) (log : List BusEvent) : Bool :=
  readsFaithful c.aEnable1 none log && readsFaithful c.aGain none log && readsFaithful c.aEnable2 none log &&
    readsFaithful c.aControl1 none log && revisionFaithful c log

/-! ## Legal operands (30_encoding.md R106) -/

/-- The ranges R106 lists, for a machine with parameters `c`; operands it does not list are never out of range. -/
def legalOperands (c : Config) : Instr → Bool
  | .busCreate a => decide (a.toNat ≤ 1)
  | .busConfigure a _ => decide (a.toNat < c.ladderRungs)
  | .busSetSampleMode a => decide (a.toNat ≤ 1)
  | .busWriteCommand a _ => decide (a.toNat < 2 ^ c.frameAddrBits)
  | .busReadCommand a => decide (a.toNat < 2 ^ c.frameAddrBits)
  | .busBitsToRate a => decide (a.toNat < c.ladderRungs)
  | .busRateToBits e => decide (1 ≤ e.toNat)
  | .afeSetGainTx g => decide (g.toNat ≤ 3)
  | .afeSetGainsRx g1 g2 => decide (g1.toNat ≤ 3 ∧ g2.toNat ≤ 3)
  | .afeSetCalibration m => decide (m.toNat ≤ 3)
  | .afeSetStandby a => decide (a.toNat ≤ 1)
  | .afeSetFlagsCallback a => decide (a.toNat ≤ 1)
  | .schedCreate v w =>
    decide (v.toNat ≤ 3 ∧ 1 ≤ w.toNat ∧ w.toNat ≤ c.sMax ∧ (v.toNat = 2 → w.toNat ≤ c.dmaMaxSamples))
  | .busRelease => true
  | .busTransferSingleSample _ => true
  | .busTransferSampleBuffer _ => true
  | .busGetEffectiveRate => true
  | .afeCreate => true
  | .afeRelease => true
  | .afeActivateBlocks _ => true
  | .afeGetRevision => true
  | .afeGetState => true
  | .afeIsPresent => true
  | .schedStart => true
  | .schedFillNextBuffer => true
  | .schedFlushAndWaitBuffer => true
  | .schedGetAddressBufferInTx => true
  | .schedStop => true
  | .schedRelease => true
  | .schedGetMissed => true
  | .cmdWrite _ _ => true
  | .cmdRead _ => true
  | .sample _ => true

/-! ## The end of a run (70_reset_and_hazards.md R305) -/

/-- The last operation has returned (HOST is not blocked and has presented nothing that is not yet run), there is no fault, no
operation returned E_REFUSED and no scheduler is running. -/
def State.endedProperly (s : State) : Bool :=
  decide (s.wait = .ready ∧ s.port = [] ∧ s.line = [] ∧ s.fault = none ∧ s.runVoid = false ∧ s.sch.life ≠ .running) &&
    s.results.all fun r => decide (r.status ≠ .eRefused)

/-! ## Endless runs and weak fairness (42_sched.md R233, 60_exceptions.md R262) -/

/-- `r` is an endless run: each state is the step of the one before it, so no state of it records a fault. -/
def EndlessRun (r : Nat → State) : Prop := ∀ k, step (r k) = .next (r (k + 1))

/-- The step taken at `turn` is weakly fair in `r`: "if one of its steps stays enabled it is eventually taken" (42_sched.md R233). -/
def WeaklyFair (enabled : State → Bool) (turn : Turn) (r : Nat → State) : Prop :=
  ∀ k, (∀ j, k ≤ j → enabled (r j) = true) → ∃ j, k ≤ j ∧ (r j).nextTurn.2 = turn

/-- "TXE is weakly fair" (42_sched.md R233): a premise of claims about endless runs, as `ChipFaithful` is of claims about a chip
(log 20). -/
def TxeWeaklyFair (r : Nat → State) : Prop :=
  WeaklyFair State.emitEnabled .txeEmit r ∧ WeaklyFair State.haltEnabled .txeHalt r

/-- "FLAGMON is weakly fair" (60_exceptions.md R262), one instance per pin. -/
def FlagmonWeaklyFair (r : Nat → State) : Prop :=
  ∀ x, WeaklyFair (fun s => s.flagmonEnabled x) (.flagmon x) r

/-! ## Invariants -/

/-- Both address spaces are in canonical form. -/
def State.memoryCanonical (s : State) : Bool := Memory.wf s.cfg s.shadow && SampleMemory.wf s.cfg s.buf

/-- "It is 1 in SAMPLE mode and 0 in COMMAND mode" (10_state.md R27), while the bus drives the pin. -/
def State.modePinAgrees (s : State) : Bool :=
  decide (s.bus.life = .live → s.modeSel = decide (s.bus.mode = .sample))

/-- "Whenever afe.life = LIVE, bus.life = LIVE too" (41_afe.md R174). -/
def State.afeHasBus (s : State) : Bool := decide (s.afe.life = .live → s.bus.life = .live)

/-- Every entry of buffer `b` is filled with a sample that fits (42_sched.md R234 (d)). -/
def State.bufferReady (s : State) (b : Fin 2) : Bool :=
  (List.range s.sch.len).all fun p =>
    match sampleAt s.buf (s.sampleAddr b p) with
    | some v => s.sampleFits v
    | none => false

/-- The invariant of a running two-buffer scheduler (42_sched.md R234 (a), (b), (d)), with what it rests on: TXE owns a live bus
in SAMPLE mode (R212), positions stay in the buffer (10_state.md R43), and every fresh buffer is wholly filled. -/
def State.arbiterRunning (s : State) : Bool :=
  decide (s.bus.life = .live ∧ s.bus.mode = .sample ∧ s.sch.txPos < s.sch.len) &&
    s.bufferReady s.sch.txCur &&
    decide (s.sch.fresh.b0 = true → s.bufferReady 0 = true) &&
    decide (s.sch.fresh.b1 = true → s.bufferReady 1 = true) &&
    decide (s.sch.phase = .needFill → s.sch.fillTgt ≠ s.sch.txCur ∧ s.sch.fresh.get s.sch.fillTgt = false) &&
    decide (s.sch.phase = .needFlush →
      (s.sch.fillTgt ≠ s.sch.txCur ∧ s.sch.fresh.get s.sch.fillTgt = true) ∨
        (s.sch.fillTgt = s.sch.txCur ∧ s.sch.fresh.get (otherBuffer s.sch.fillTgt) = false))

/-- The arbiter's invariant in every state: buffers have a length once a scheduler is created (10_state.md R41), the running
invariant while TXE owns the bus, and HOST waits only for a two-buffer scheduler that will end the wait (42_sched.md R205,
R208). -/
def State.arbiterInv (s : State) : Bool :=
  decide (s.sch.life = .created → 1 ≤ s.sch.len) &&
    decide (s.busBusy = true → s.arbiterRunning = true) &&
    decide (s.wait = .flush → s.busBusy = true ∧ s.sch.phase = .needFlush) &&
    decide (s.wait = .stop → s.busBusy = true ∧ s.sch.terminate = true)

/-- The register of the shadow file at address `a`. -/
def State.emuReg (s : State) (a : RegAddr) : Byte := shadowGet s.shadow a.toNat

/-- "gain and block state in this handle must always equal the last values written to the chip" (10_state.md R49 (a)), for the
register file the block itself holds, that is, in EMU. -/
def State.handleCoherent (s : State) : Bool :=
  decide (s.afe.life = .live ∧ s.bus.emul = true →
    s.emuReg s.cfg.aEnable1 = encEnable1 s.cfg s.afe.blocks ∧
      s.emuReg s.cfg.aEnable2 = encEnable2 s.cfg s.afe.blocks ∧
      s.emuReg s.cfg.aGain &&& txGainMask s.cfg = encGainTx s.cfg (s.afe.gainTx.setWidth 8) ∧
      s.emuReg s.cfg.aGain &&& rxGainMask s.cfg = encGainsRx s.cfg (s.afe.gainRx1.setWidth 8) (s.afe.gainRx2.setWidth 8) ∧
      s.emuReg s.cfg.aControl1 &&& calMask s.cfg = calCode s.cfg s.afe.cal)

end Sys2Proof.Machine
end

