-- ==== Sys2Proof/Certificates/Slice0/Obligations.lean ====
section
/-! DEFINITION. The statements for the provers. A statement about an instruction gives the whole next state as an equation, so
everything the equation does not name is unchanged. Where an answer of the outside world decides, the statement takes it from
`State.drawResource` or `State.drawReceived`, whatever it is. -/

open Sys2Proof Sys2Proof.Machine

/-! ## Encodings -/

/-- Decoding an encoded well-formed instruction gives it back, with every operand at every value, and leaves the words after it
(30_encoding.md R90 to R103). An admissible configuration is one whose frame fields lie in the word and share no bit (R91,
log 13); the defaults of 00_scope.md R8 are one. -/
def Obligations.DecodeEncodeAgree : Prop :=
  ∀ (c : Config) (i : Instr), c.admissible = true → i.wellFormed c = true →
    decode c (encode c i) = .instr i [] ∧
      ∀ ws rest, encode c i = .host ws → decodeWords (ws ++ rest) = .instr i rest

/-- Words that decode to an operation are that operation's encoding: no bit of a host operation word is dropped
(30_encoding.md R100 to R104). -/
def Obligations.DecodedWordsAreTheirEncoding : Prop :=
  ∀ (c : Config) (ws rest : List Word) (i : Instr), decodeWords ws = .instr i rest →
    ∃ us, encode c i = .host us ∧ ws = us ++ rest

/-- The frame codec (30_encoding.md R92, R93, R95): at the defaults of 00_scope.md R8, encoders and decoder as numbers and how they
invert each other; for every admissible layout (R91, log 13), the decoder gives back what was encoded. -/
def Obligations.FrameCodecLaws : Prop :=
  (∀ a v : Byte, a.toNat ≤ 127 →
      (encWrite Config.default a v).toNat = a.toNat * 256 + v.toNat ∧
        decFrame Config.default (encWrite Config.default a v) = .write a v ∧
        (encRead Config.default a).toNat = 0x8000 + a.toNat * 256 ∧
        decFrame Config.default (encRead Config.default a) = .read a) ∧
    (∀ w : Word, w.toNat < 65536 → w.getLsbD 15 = false →
      ∃ a v : Byte, decFrame Config.default w = .write a v ∧ a.toNat = w.toNat / 256 ∧ v.toNat = w.toNat % 256 ∧
        encWrite Config.default a v = w) ∧
    (∀ w : Word, w.toNat < 65536 → w.getLsbD 15 = true →
      ∃ a : Byte, decFrame Config.default w = .read a ∧ a.toNat = w.toNat / 256 - 128 ∧
        encRead Config.default a = w &&& 0xFF00#32) ∧
    (∀ (c : Config) (a v : Byte), c.admissible = true → a.toNat < 2 ^ c.frameAddrBits → v.toNat < 2 ^ c.regDataBits →
      decFrame c (encWrite c a v) = .write a v ∧ decFrame c (encRead c a) = .read a)

/-- Words written out from the encoding tables decode to the instructions they stand for (30_encoding.md R91 to R103): one of each
format H0, H1, H2, HW, HX, HV, F16 and FS, and of each family BUS, AFEC, SCHED and the wire words. -/
def Obligations.SpecWordsDecode : Prop :=
  decodeWords [0x030F1234#32] = .instr (.busConfigure 15 0x1234) [] ∧
    decodeWords [0x05007FFF#32] = .instr (.busWriteCommand 0x7F 0xFF) [] ∧
    decodeWords [0x08000002#32, 0x00000005#32, 0x00000006#32] = .instr (.busTransferSampleBuffer [5, 6]) [] ∧
    decodeWords [0x09000000#32, 0x0007A120#32] = .instr (.busRateToBits 500000) [] ∧
    decodeWords [0x13000003#32] = .instr (.afeSetGainTx 3) [] ∧
    decodeWords [0x14000201#32] = .instr (.afeSetGainsRx 2 1) [] ∧
    decodeWords [0x20020800#32] = .instr (.schedCreate 2 2048) [] ∧
    decodeWords [0x21000000#32] = .instr .schedStart [] ∧
    decode Config.default (.frame 0x0236#32) = .instr (.cmdWrite 0x02 0x36) [] ∧
    decode Config.default (.frame 0x8B5A#32) = .instr (.cmdRead 0x0B) [] ∧
    decode Config.default (.sample 0x01FF#16) = .instr (.sample 0x1FF) []

/-- A word list that is no operation is answered E_OP, takes one word off the port and changes nothing else; no extension word is
consumed (30_encoding.md R104, 40_bus.md R127): an operation code that is unassigned, a must-be-zero field of the operation word
that is not zero, and, all the words of a BUS_TRANSFER_SAMPLE_BUFFER being at the port, a sample's extension word whose bits 31:16
are not zero. R104 says of its two cases that the extension words are not consumed; that they stay in the third too, and what an
operation presented in part does, is the model's choice (log 3). -/
def Obligations.IllegalWordAnswersEOp : Prop :=
  ∀ (s : State) (ts : List Turn) (w : Word) (rest : List Word),
    s.fault = none → s.runVoid = false → s.turns = .host :: ts → s.wait = .ready → s.line = [] → s.port = w :: rest →
    ((opField w).toNat ∈ [0x00, 0x0C, 0x0D, 0x0E, 0x0F, 0x1B, 0x1C, 0x1D, 0x1E, 0x1F] ∨ 0x28 ≤ (opField w).toNat ∨
      ((opField w).toNat ∈ [0x02, 0x09, 0x0B, 0x10, 0x11, 0x17, 0x18, 0x1A, 0x21, 0x22, 0x23, 0x24, 0x25, 0x26, 0x27] ∧
        w.extractLsb' 0 24 ≠ 0) ∨
      ((opField w).toNat ∈ [0x01, 0x04, 0x06, 0x0A, 0x12, 0x13, 0x15, 0x16, 0x19] ∧ w.extractLsb' 8 16 ≠ 0) ∨
      ((opField w).toNat ∈ [0x05, 0x07, 0x08, 0x14] ∧ w.extractLsb' 16 8 ≠ 0) ∨
      ((opField w).toNat = 0x08 ∧ w.extractLsb' 16 8 = 0 ∧ (w.extractLsb' 0 16).toNat ≤ rest.length ∧
        ∃ e ∈ rest.take (w.extractLsb' 0 16).toNat, e.extractLsb' 16 16 ≠ 0)) →
    step s = .next { s with turns := ts, port := rest, results := s.results ++ [⟨.eOp, .none⟩] }

/-- The numbers of the statuses and of the fault reasons (00_scope.md R11, 60_exceptions.md R250, R254), all different. -/
def Obligations.StatusAndFaultNumbers : Prop :=
  ([Status.ok, .ePresence, .eResource, .eParam, .eState, .eOp, .eRefused].map Status.code = [0, 1, 2, 3, 4, 5, 6]) ∧
    ([Fault.integrity, .lifecycle, .seq, .mode, .busy, .sampleRange, .unwritten].map Fault.code =
      [1, 2, 3, 4, 5, 6, 7]) ∧
    (∀ x y : Status, x.code = y.code → x = y) ∧ (∀ x y : Fault, x.code = y.code → x = y)

/-! ## The step -/

/-- A step of HOST runs the operation its port's words decode to, after taking its turn off the schedule and its words off the
port (30_encoding.md R105). -/
def Obligations.StepRunsTheDecodedOperation : Prop :=
  ∀ (s : State) (ts : List Turn) (i : Instr) (rest : List Word),
    s.fault = none → s.runVoid = false → s.turns = .host :: ts → s.wait = .ready → s.line = [] →
    decodeWords s.port = .instr i rest → step s = exec i { s with turns := ts, port := rest }

/-- A step of HOST with a bare wire word presented sends that word as the bus mode reads it: a command frame in COMMAND mode, a
sample word in SAMPLE mode (20_memory.md R65). One wider than any sample word is never truncated: on a live and idle bus it is
F_SAMPLE_RANGE (30_encoding.md R96). That HOST can present a bare wire word, before the words at its port, is the model's choice
(log 4). -/
def Obligations.StepRunsTheWireWord : Prop :=
  ∀ (s : State) (ts : List Turn) (w : Word) (ws : List Word),
    s.fault = none → s.runVoid = false → s.turns = .host :: ts → s.wait = .ready → s.line = w :: ws →
    (∀ v : Half, s.bus.mode = .sample → w.toNat = v.toNat →
        step s = exec (.sample v) { s with turns := ts, line := ws }) ∧
      (s.bus.mode = .sample → 2 ^ 16 ≤ w.toNat → s.bus.life = .live → s.busBusy = false →
        step s = .next { s with turns := ts, line := ws, fault := some .sampleRange }) ∧
      (∀ a v, s.bus.mode = .command → decFrame s.cfg w = .write a v →
        step s = exec (.cmdWrite a v) { s with turns := ts, line := ws }) ∧
      (∀ a, s.bus.mode = .command → decFrame s.cfg w = .read a →
        step s = exec (.cmdRead a) { s with turns := ts, line := ws })

/-- After a fault no agent steps, whatever the schedule; after E_REFUSED the run has no meaning (60_exceptions.md R250, R255;
that the stop is the step after is the model's choice, log 11, 12). -/
def Obligations.NothingStepsAfterAFaultOrARefusal : Prop :=
  ∀ s : State,
    (∀ f, s.fault = some f → step s = .fault f) ∧
      (s.fault = none → s.runVoid = true → step s = .refused .afterRefusedOperation)

/-- A blocked HOST takes no step while its condition is false, and ends the operation when it is true (42_sched.md R205, R208,
R213; that it goes on at a later turn of its own is the model's choice, log 15). -/
def Obligations.WaitsEndOnlyWhenTheirConditionHolds : Prop :=
  ∀ (s : State) (ts : List Turn), s.fault = none → s.runVoid = false → s.turns = .host :: ts →
    (s.wait = .flush → s.sch.txCur ≠ s.sch.fillTgt → step s = .next { s with turns := ts }) ∧
      (s.wait = .flush → s.sch.txCur = s.sch.fillTgt →
        step s = .next
          { s with
            turns := ts
            sch := { s.sch with fillTgt := 1 - s.sch.txCur, phase := .needFill }
            wait := .ready
            results := s.results ++ [⟨.ok, .index (1 - s.sch.txCur)⟩] }) ∧
      (s.wait = .stop → s.sch.txeActive = true → step s = .next { s with turns := ts }) ∧
      (s.wait = .stop → s.sch.txeActive = false →
        step s = .next
          { s with
            turns := ts
            sch := { s.sch with life := .stopped }
            wait := .ready
            results := s.results ++ [⟨.ok, .none⟩] })

/-! ## Results -/

/-- An operand out of its range is answered E_PARAM in any state, before every other check, and changes nothing else
(30_encoding.md R106, 60_exceptions.md R253). -/
def Obligations.IllegalOperandIsEParamInAnyState : Prop :=
  ∀ (i : Instr) (s : State), legalOperands s.cfg i = false →
    exec i s = .next { s with results := s.results ++ [⟨.eParam, .none⟩] }

/-- A status other than OK leaves every piece of the block's state unchanged and sends nothing; AFE_CREATE is the exception
(60_exceptions.md R250). The answers already drawn and the mark of a refused run are the model's own fields. -/
def Obligations.OtherStatusesChangeNothing : Prop :=
  ∀ (i : Instr) (s t : State) (r : Result), i ≠ .afeCreate → exec i s = .next t → t.results = s.results ++ [r] →
    r.status ≠ .ok → t = { s with results := t.results, env := t.env, runVoid := t.runVoid }

/-- Where the outside world's answers come from: the listed ones in order, else the free value of the next index (log 6, 7, 8).
The model's choice of form for the spec's draws (60_exceptions.md R252, 20_memory.md R66, 42_sched.md R206). A fill sample is never
truncated (30_encoding.md R96). -/
def Obligations.DrawsTakeListedAnswersFirst : Prop :=
  ∀ s : State,
    (∀ b bs, s.env.resources = b :: bs → s.drawResource = ({ s with env := { s.env with resources := bs } }, b)) ∧
      (s.env.resources = [] →
        s.drawResource =
          ({ s with env := { s.env with draws := s.env.draws + 1 } }, Config.resourceAnswer s.env.draws)) ∧
      (∀ w ws, s.env.received = w :: ws → s.drawReceived = ({ s with env := { s.env with received := ws } }, w)) ∧
      (s.env.received = [] →
        s.drawReceived =
          ({ s with env := { s.env with draws := s.env.draws + 1 } }, Config.receivedWord s.env.draws)) ∧
      ∀ n, (s.fillSrc n).length = s.sch.len ∧
        ∀ p, p < s.sch.len →
          (s.fillSrc n)[p]? =
            some (((s.env.fills[n]?).bind (fun d => d[p]?)).getD (Config.fillSample n s.sch.len p))

/-! ## BUS operations -/

/-- BUS_CREATE (40_bus.md R120). -/
def Obligations.BusCreateRule : Prop :=
  ∀ (s : State) (a : Byte),
    (1 < a.toNat → exec (.busCreate a) s = .next { s with results := s.results ++ [⟨.eParam, .none⟩] }) ∧
      (a.toNat ≤ 1 → s.bus.life ≠ .absent → exec (.busCreate a) s = .next { s with fault := some .lifecycle }) ∧
      (a = 1 → s.bus.life = .absent →
        exec (.busCreate a) s = .next
          { s with
            bus := { life := .live, mode := .command, rung := 0, iwd := 0, emul := true }
            shadow := []
            modeSel := false
            busLog := s.busLog ++ [.modeSel false]
            results := s.results ++ [⟨.ok, .none⟩] }) ∧
      (a = 0 → s.bus.life = .absent → s.drawResource.2 = true →
        exec (.busCreate a) s = .next
          { s with
            env := s.drawResource.1.env
            bus := { life := .live, mode := .command, rung := 0, iwd := 0, emul := false }
            modeSel := false
            busLog := s.busLog ++ [.modeSel false]
            results := s.results ++ [⟨.ok, .none⟩] }) ∧
      (a = 0 → s.bus.life = .absent → s.drawResource.2 = false →
        exec (.busCreate a) s = .next
          { s with env := s.drawResource.1.env, results := s.results ++ [⟨.eResource, .none⟩] })

/-- BUS_RELEASE (40_bus.md R121). -/
def Obligations.BusReleaseRule : Prop :=
  ∀ s : State,
    (s.bus.life ≠ .live → exec .busRelease s = .next { s with fault := some .lifecycle }) ∧
      (s.bus.life = .live → (s.afe.life = .live ∨ (s.sch.life ≠ .absent ∧ s.sch.life ≠ .released)) →
        exec .busRelease s = .next { s with fault := some .lifecycle }) ∧
      (s.bus.life = .live → s.afe.life ≠ .live → (s.sch.life = .absent ∨ s.sch.life = .released) →
        ∃ t : State, exec .busRelease s = .next t ∧ t.modeSelPin = none ∧
          t = { s with bus := { s.bus with life := .released }, results := s.results ++ [⟨.ok, .none⟩] })

/-- BUS_CONFIGURE (40_bus.md R122). -/
def Obligations.BusConfigureRule : Prop :=
  ∀ (s : State) (a : Byte) (w : Half),
    (s.cfg.ladderRungs ≤ a.toNat →
        exec (.busConfigure a w) s = .next { s with results := s.results ++ [⟨.eParam, .none⟩] }) ∧
      (a.toNat < s.cfg.ladderRungs → s.bus.life ≠ .live →
        exec (.busConfigure a w) s = .next { s with fault := some .lifecycle }) ∧
      (a.toNat < s.cfg.ladderRungs → s.bus.life = .live → s.busBusy = true →
        exec (.busConfigure a w) s = .next { s with fault := some .busy }) ∧
      (a.toNat < s.cfg.ladderRungs → s.bus.life = .live → s.busBusy = false →
        exec (.busConfigure a w) s = .next
          { s with bus := { s.bus with rung := a.toNat, iwd := w }, results := s.results ++ [⟨.ok, .none⟩] })

/-- BUS_SET_SAMPLE_MODE (40_bus.md R123). -/
def Obligations.BusSetSampleModeRule : Prop :=
  ∀ (s : State) (a : Byte) (m : BusMode), m = (if a = 1 then .sample else .command) →
    (1 < a.toNat → exec (.busSetSampleMode a) s = .next { s with results := s.results ++ [⟨.eParam, .none⟩] }) ∧
      (a.toNat ≤ 1 → s.bus.life ≠ .live →
        exec (.busSetSampleMode a) s = .next { s with fault := some .lifecycle }) ∧
      (a.toNat ≤ 1 → s.bus.life = .live → s.busBusy = true →
        exec (.busSetSampleMode a) s = .next { s with fault := some .busy }) ∧
      (a.toNat ≤ 1 → s.bus.life = .live → s.busBusy = false → m = s.bus.mode →
        exec (.busSetSampleMode a) s = .next { s with results := s.results ++ [⟨.ok, .none⟩] }) ∧
      (a.toNat ≤ 1 → s.bus.life = .live → s.busBusy = false → m ≠ s.bus.mode →
        exec (.busSetSampleMode a) s = .next
          { s with
            bus := { s.bus with mode := m }
            modeSel := decide (a = 1)
            busLog := s.busLog ++ [.modeSel (decide (a = 1))]
            results := s.results ++ [⟨.ok, .none⟩] })

/-- BUS_WRITE_COMMAND (40_bus.md R124): in EMU the entry written reads the value and every other entry reads as before; in PHYS
only the history grows. The highest address is 2^FRAME_ADDR_BITS - 1, 127 at R8's default (R106, 90_conflicts.md C5), and the
value is the operand's low REG_DATA_BITS bits, at R8's default the operand (log 24). -/
def Obligations.BusWriteCommandRule : Prop :=
  ∀ (s : State) (a b v : Byte), v.toNat = b.toNat % 2 ^ s.cfg.regDataBits →
    (2 ^ s.cfg.frameAddrBits ≤ a.toNat →
        exec (.busWriteCommand a b) s = .next { s with results := s.results ++ [⟨.eParam, .none⟩] }) ∧
      (a.toNat < 2 ^ s.cfg.frameAddrBits → s.bus.life ≠ .live →
        exec (.busWriteCommand a b) s = .next { s with fault := some .lifecycle }) ∧
      (a.toNat < 2 ^ s.cfg.frameAddrBits → s.bus.life = .live → s.busBusy = true →
        exec (.busWriteCommand a b) s = .next { s with fault := some .busy }) ∧
      (a.toNat < 2 ^ s.cfg.frameAddrBits → s.bus.life = .live → s.busBusy = false → s.bus.mode = .sample →
        exec (.busWriteCommand a b) s = .next { s with fault := some .mode }) ∧
      (a.toNat < 2 ^ s.cfg.frameAddrBits → s.bus.life = .live → s.busBusy = false → s.bus.mode = .command →
        s.bus.emul = false →
        exec (.busWriteCommand a b) s = .next
          { s with busLog := s.busLog ++ [.cmdWr a v], results := s.results ++ [⟨.ok, .none⟩] }) ∧
      (a.toNat < 2 ^ s.cfg.frameAddrBits → s.bus.life = .live → s.busBusy = false → s.bus.mode = .command →
        s.bus.emul = true → s.cfg.admissible = true → Memory.wf s.cfg s.shadow = true →
        ∃ sh : List Host.Cell, (∀ x, shadowGet sh x = if x = a.toNat then v else shadowGet s.shadow x) ∧
          exec (.busWriteCommand a b) s = .next
            { s with
              shadow := sh
              busLog := s.busLog ++ [.cmdWr a v]
              results := s.results ++ [⟨.ok, .none⟩] })

/-- BUS_READ_COMMAND (40_bus.md R125): in EMU the value of the shadow entry, in PHYS the low REG_DATA_BITS bits, at R8's default
bits 7:0, of the word received. The highest address is 2^FRAME_ADDR_BITS - 1, 127 at R8's default (R106, 90_conflicts.md C5). -/
def Obligations.BusReadCommandRule : Prop :=
  ∀ (s : State) (a : Byte),
    (2 ^ s.cfg.frameAddrBits ≤ a.toNat →
        exec (.busReadCommand a) s = .next { s with results := s.results ++ [⟨.eParam, .none⟩] }) ∧
      (a.toNat < 2 ^ s.cfg.frameAddrBits → s.bus.life ≠ .live →
        exec (.busReadCommand a) s = .next { s with fault := some .lifecycle }) ∧
      (a.toNat < 2 ^ s.cfg.frameAddrBits → s.bus.life = .live → s.busBusy = true →
        exec (.busReadCommand a) s = .next { s with fault := some .busy }) ∧
      (a.toNat < 2 ^ s.cfg.frameAddrBits → s.bus.life = .live → s.busBusy = false → s.bus.mode = .sample →
        exec (.busReadCommand a) s = .next { s with fault := some .mode }) ∧
      (a.toNat < 2 ^ s.cfg.frameAddrBits → s.bus.life = .live → s.busBusy = false → s.bus.mode = .command →
        s.bus.emul = true → s.cfg.admissible = true →
        exec (.busReadCommand a) s = .next
          { s with
            busLog := s.busLog ++ [.cmdRd a (shadowGet s.shadow a.toNat)]
            results := s.results ++ [⟨.ok, .byte (shadowGet s.shadow a.toNat)⟩] }) ∧
      (∀ r : Byte, r.toNat = s.drawReceived.2.toNat % 2 ^ s.cfg.regDataBits →
        a.toNat < 2 ^ s.cfg.frameAddrBits → s.bus.life = .live → s.busBusy = false → s.bus.mode = .command →
        s.bus.emul = false →
        exec (.busReadCommand a) s = .next
          { s with
            env := s.drawReceived.1.env
            busLog := s.busLog ++ [.cmdRd a r]
            results := s.results ++ [⟨.ok, .byte r⟩] })

/-- BUS_TRANSFER_SINGLE_SAMPLE (40_bus.md R126). -/
def Obligations.BusTransferSingleSampleRule : Prop :=
  ∀ (s : State) (w : Half),
    (s.bus.life ≠ .live → exec (.busTransferSingleSample w) s = .next { s with fault := some .lifecycle }) ∧
      (s.bus.life = .live → s.busBusy = true →
        exec (.busTransferSingleSample w) s = .next { s with fault := some .busy }) ∧
      (s.bus.life = .live → s.busBusy = false → s.bus.mode = .command →
        exec (.busTransferSingleSample w) s = .next { s with fault := some .mode }) ∧
      (s.bus.life = .live → s.busBusy = false → s.bus.mode = .sample → 2 ^ s.cfg.sampleBits ≤ w.toNat →
        exec (.busTransferSingleSample w) s = .next { s with fault := some .sampleRange }) ∧
      (s.bus.life = .live → s.busBusy = false → s.bus.mode = .sample → w.toNat < 2 ^ s.cfg.sampleBits →
        exec (.busTransferSingleSample w) s = .next
          { s with busLog := s.busLog ++ [.sample w], results := s.results ++ [⟨.ok, .none⟩] })

/-- BUS_TRANSFER_SAMPLE_BUFFER (40_bus.md R127): all samples are checked before the first word is sent; then one word per sample,
in order. -/
def Obligations.BusTransferSampleBufferRule : Prop :=
  ∀ (s : State) (ws : List Half),
    (s.bus.life ≠ .live → exec (.busTransferSampleBuffer ws) s = .next { s with fault := some .lifecycle }) ∧
      (s.bus.life = .live → s.busBusy = true →
        exec (.busTransferSampleBuffer ws) s = .next { s with fault := some .busy }) ∧
      (s.bus.life = .live → s.busBusy = false → s.bus.mode = .command →
        exec (.busTransferSampleBuffer ws) s = .next { s with fault := some .mode }) ∧
      (s.bus.life = .live → s.busBusy = false → s.bus.mode = .sample → (∃ w ∈ ws, 2 ^ s.cfg.sampleBits ≤ w.toNat) →
        exec (.busTransferSampleBuffer ws) s = .next { s with fault := some .sampleRange }) ∧
      (s.bus.life = .live → s.busBusy = false → s.bus.mode = .sample → (∀ w ∈ ws, w.toNat < 2 ^ s.cfg.sampleBits) →
        exec (.busTransferSampleBuffer ws) s = .next
          { s with busLog := s.busLog ++ ws.map .sample, results := s.results ++ [⟨.ok, .none⟩] })

/-- BUS_RATE_TO_BITS (40_bus.md R145) in whole numbers: the answer is the largest rung k whose rate 10^9/(875*2^k + 165) is at
least the request, and E_PARAM where no rung's is (R144, its derived form). -/
def Obligations.BusRateToBitsPicksTheSlowestSufficientRung : Prop :=
  ∀ (s : State) (e : Word),
    (e.toNat = 0 → exec (.busRateToBits e) s = .next { s with results := s.results ++ [⟨.eParam, .none⟩] }) ∧
      (1 ≤ e.toNat → (∀ k, k < s.cfg.ladderRungs → 10 ^ 9 < e.toNat * (875 * 2 ^ k + 165)) →
        exec (.busRateToBits e) s = .next { s with results := s.results ++ [⟨.eParam, .none⟩] }) ∧
      (∀ k, 1 ≤ e.toNat → k < s.cfg.ladderRungs → e.toNat * (875 * 2 ^ k + 165) ≤ 10 ^ 9 →
        (∀ j, k < j → j < s.cfg.ladderRungs → 10 ^ 9 < e.toNat * (875 * 2 ^ j + 165)) →
        exec (.busRateToBits e) s = .next { s with results := s.results ++ [⟨.ok, .rung k⟩] })

/-- BUS_BITS_TO_RATE and BUS_GET_EFFECTIVE_RATE (40_bus.md R146, R147), with the exact rate of R142. -/
def Obligations.RateQueriesRule : Prop :=
  ∀ (s : State) (a : Byte),
    (s.cfg.ladderRungs ≤ a.toNat →
        exec (.busBitsToRate a) s = .next { s with results := s.results ++ [⟨.eParam, .none⟩] }) ∧
      (a.toNat < s.cfg.ladderRungs →
        exec (.busBitsToRate a) s = .next
          { s with results := s.results ++ [⟨.ok, .rate (10 ^ 9 / (875 * 2 ^ a.toNat + 165))⟩] }) ∧
      (s.bus.life ≠ .live → exec .busGetEffectiveRate s = .next { s with fault := some .lifecycle }) ∧
      (s.bus.life = .live →
        exec .busGetEffectiveRate s = .next
          { s with results := s.results ++ [⟨.ok, .rate (10 ^ 9 / (875 * 2 ^ s.bus.rung + 165))⟩] })

/-- What the document asks of the conversion (40_bus.md R148, with R143's identities): the achieved rate is never below the
request, the mapping is monotone, the next rung down is below the ideal bit rate, and a request at a rung's own rate keeps
that rung. -/
def Obligations.RateConversionProperties : Prop :=
  (∀ (n k : Nat) (r : Rat), rateToBits n r = some k →
      k < n ∧ r ≤ eff k ∧ (k + 1 < n → eff k < rung k / 2 ∧ rung k / 2 = rung (k + 1) ∧ rung (k + 1) ≤ idealBits r)) ∧
    (∀ (n k₁ k₂ : Nat) (r₁ r₂ : Rat), r₁ ≤ r₂ → rateToBits n r₁ = some k₁ → rateToBits n r₂ = some k₂ →
      rung k₁ ≤ rung k₂ ∧ eff k₁ ≤ eff k₂) ∧
    (∀ r : Rat, 0 < r → r < 10 ^ 9 / 165 → bitsToRate (idealBits r) = r) ∧
    (∀ b : Rat, 0 < b → idealBits (bitsToRate b) = b) ∧
    (∀ n k : Nat, k < n → rateToBits n (eff k) = some k)

/-! ## AFEC operations -/

/-- AFE_CREATE (41_afe.md R160): one read of REVISION and no write; in PHYS a refused resource or another revision releases the
bus handle. A value read in PHYS is the low REG_DATA_BITS bits of the word received, at R8's default bits 7:0 (30_encoding.md
R94). -/
def Obligations.AfeCreateRule : Prop :=
  ∀ s : State,
    (s.afe.life ≠ .absent → exec .afeCreate s = .next { s with fault := some .lifecycle }) ∧
      (s.afe.life = .absent → s.bus.life ≠ .live →
        exec .afeCreate s = .next { s with results := s.results ++ [⟨.eState, .none⟩] }) ∧
      (s.afe.life = .absent → s.bus.life = .live → s.busBusy = true →
        exec .afeCreate s = .next { s with fault := some .busy }) ∧
      (s.afe.life = .absent → s.bus.life = .live → s.busBusy = false → s.bus.mode = .sample →
        exec .afeCreate s = .next { s with fault := some .mode }) ∧
      (s.afe.life = .absent → s.bus.life = .live → s.busBusy = false → s.bus.mode = .command → s.bus.emul = true →
        s.cfg.admissible = true →
        exec .afeCreate s = .next
          { s with
            busLog := s.busLog ++ [.cmdRd s.cfg.aRevision (shadowGet s.shadow s.cfg.aRevision.toNat)]
            afe :=
              { s.afe with
                life := .live, revision := shadowGet s.shadow s.cfg.aRevision.toNat, blocks := 0, cal := .none,
                gainTx := 0, gainRx1 := 0, gainRx2 := 0, cbOn := false }
            results := s.results ++ [⟨.ok, .none⟩] }) ∧
      (s.afe.life = .absent → s.bus.life = .live → s.busBusy = false → s.bus.mode = .command → s.bus.emul = false →
        s.drawResource.2 = false →
        exec .afeCreate s = .next
          { s with
            env := s.drawResource.1.env
            bus := { s.bus with life := .released }
            results := s.results ++ [⟨.eResource, .none⟩] }) ∧
      (s.afe.life = .absent → s.bus.life = .live → s.busBusy = false → s.bus.mode = .command → s.bus.emul = false →
        s.drawResource.2 = true → s.cfg.regBits s.drawResource.1.drawReceived.2 ≠ s.cfg.expectedRevision →
        exec .afeCreate s = .next
          { s with
            env := s.drawResource.1.drawReceived.1.env
            busLog := s.busLog ++ [.cmdRd s.cfg.aRevision (s.cfg.regBits s.drawResource.1.drawReceived.2)]
            bus := { s.bus with life := .released }
            results := s.results ++ [⟨.ePresence, .none⟩] }) ∧
      (s.afe.life = .absent → s.bus.life = .live → s.busBusy = false → s.bus.mode = .command → s.bus.emul = false →
        s.drawResource.2 = true → s.cfg.regBits s.drawResource.1.drawReceived.2 = s.cfg.expectedRevision →
        exec .afeCreate s = .next
          { s with
            env := s.drawResource.1.drawReceived.1.env
            busLog := s.busLog ++ [.cmdRd s.cfg.aRevision s.cfg.expectedRevision]
            afe :=
              { s.afe with
                life := .live, revision := s.cfg.expectedRevision, blocks := 0, cal := .none,
                gainTx := 0, gainRx1 := 0, gainRx2 := 0, cbOn := false }
            results := s.results ++ [⟨.ok, .none⟩] })

/-- AFE_RELEASE (41_afe.md R161): FLAGMON stops, no bus transfer. -/
def Obligations.AfeReleaseRule : Prop :=
  ∀ s : State,
    (s.afe.life ≠ .live → exec .afeRelease s = .next { s with fault := some .lifecycle }) ∧
      (s.afe.life = .live →
        exec .afeRelease s = .next
          { s with afe := { s.afe with life := .released, cbOn := false }, results := s.results ++ [⟨.ok, .none⟩] })

/-- AFE_ACTIVATE_BLOCKS (41_afe.md R163, R164): both enable registers are written whole and verified, ENABLE1 first; a mismatch is
F_INTEGRITY, and if it is the first one ENABLE2 is not touched. The two encoders (R162): bit by bit of the mask m to the registers'
bit positions, which are parameters (10_state.md R29), and at R8's defaults to the positions of R31 and R32. -/
def Obligations.AfeActivateBlocksRule : Prop :=
  ∀ (s : State) (m : Byte) (bit : Nat → Byte), (∀ i, bit i = if m.getLsbD i then 1 else 0) →
    (encEnable1 s.cfg m = bit 5 <<< s.cfg.places.pa ||| bit 1 <<< s.cfg.places.tx ||| bit 4 <<< s.cfg.places.rx |||
        bit 0 <<< s.cfg.places.dac) ∧
      (encEnable2 s.cfg m = bit 7 <<< s.cfg.places.zc ||| bit 2 <<< s.cfg.places.ref1 ||| bit 3 <<< s.cfg.places.ref2 |||
        bit 6 <<< s.cfg.places.paOut) ∧
      (encEnable1 Config.default m = bit 5 ||| bit 1 <<< 1 ||| bit 4 <<< 2 ||| bit 0 <<< 5) ∧
      (encEnable2 Config.default m = bit 7 ||| bit 2 <<< 1 ||| bit 3 <<< 2 ||| bit 6 <<< 3) ∧
      (s.afe.life ≠ .live → exec (.afeActivateBlocks m) s = .next { s with fault := some .lifecycle }) ∧
      (s.afe.life = .live → s.busBusy = true → exec (.afeActivateBlocks m) s = .next { s with fault := some .busy }) ∧
      (s.afe.life = .live → s.busBusy = false → s.bus.mode = .sample →
        exec (.afeActivateBlocks m) s = .next { s with fault := some .mode }) ∧
      (s.afe.life = .live → s.busBusy = false → s.bus.mode = .command → s.bus.emul = true →
        s.cfg.admissible = true → Memory.wf s.cfg s.shadow = true →
        ∃ sh : List Host.Cell,
          (∀ x, shadowGet sh x =
            if x = s.cfg.aEnable2.toNat then encEnable2 s.cfg m
            else if x = s.cfg.aEnable1.toNat then encEnable1 s.cfg m else shadowGet s.shadow x) ∧
          exec (.afeActivateBlocks m) s = .next
            { s with
              shadow := sh
              afe := { s.afe with blocks := m }
              busLog := s.busLog ++
                [.cmdWr s.cfg.aEnable1 (encEnable1 s.cfg m), .cmdRd s.cfg.aEnable1 (encEnable1 s.cfg m),
                  .cmdWr s.cfg.aEnable2 (encEnable2 s.cfg m), .cmdRd s.cfg.aEnable2 (encEnable2 s.cfg m)]
              results := s.results ++ [⟨.ok, .none⟩] }) ∧
      (∀ r₁ r₂ : Byte, s.afe.life = .live → s.busBusy = false → s.bus.mode = .command → s.bus.emul = false →
        r₁ = s.cfg.regBits s.drawReceived.2 → r₂ = s.cfg.regBits s.drawReceived.1.drawReceived.2 →
        (r₁ ≠ encEnable1 s.cfg m →
          exec (.afeActivateBlocks m) s = .next
            { s with
              env := s.drawReceived.1.env
              busLog := s.busLog ++ [.cmdWr s.cfg.aEnable1 (encEnable1 s.cfg m), .cmdRd s.cfg.aEnable1 r₁]
              fault := some .integrity }) ∧
        (r₁ = encEnable1 s.cfg m → r₂ ≠ encEnable2 s.cfg m →
          exec (.afeActivateBlocks m) s = .next
            { s with
              env := s.drawReceived.1.drawReceived.1.env
              busLog := s.busLog ++
                [.cmdWr s.cfg.aEnable1 (encEnable1 s.cfg m), .cmdRd s.cfg.aEnable1 r₁,
                  .cmdWr s.cfg.aEnable2 (encEnable2 s.cfg m), .cmdRd s.cfg.aEnable2 r₂]
              fault := some .integrity }) ∧
        (r₁ = encEnable1 s.cfg m → r₂ = encEnable2 s.cfg m →
          exec (.afeActivateBlocks m) s = .next
            { s with
              env := s.drawReceived.1.drawReceived.1.env
              afe := { s.afe with blocks := m }
              busLog := s.busLog ++
                [.cmdWr s.cfg.aEnable1 (encEnable1 s.cfg m), .cmdRd s.cfg.aEnable1 r₁,
                  .cmdWr s.cfg.aEnable2 (encEnable2 s.cfg m), .cmdRd s.cfg.aEnable2 r₂]
              results := s.results ++ [⟨.ok, .none⟩] }))

/-- AFE_SET_GAIN_TX (41_afe.md R165, R164): one masked update of GAIN with the mask of its TXG field, at R8's
defaults mask 0x30 and value g << 4. -/
def Obligations.AfeSetGainTxRule : Prop :=
  ∀ (s : State) (g mask val : Byte), mask = 3#8 <<< s.cfg.places.txgLo → val = g <<< s.cfg.places.txgLo →
    (3 < g.toNat → exec (.afeSetGainTx g) s = .next { s with results := s.results ++ [⟨.eParam, .none⟩] }) ∧
      (g.toNat ≤ 3 → s.afe.life ≠ .live → exec (.afeSetGainTx g) s = .next { s with fault := some .lifecycle }) ∧
      (g.toNat ≤ 3 → s.afe.life = .live → s.busBusy = true →
        exec (.afeSetGainTx g) s = .next { s with fault := some .busy }) ∧
      (g.toNat ≤ 3 → s.afe.life = .live → s.busBusy = false → s.bus.mode = .sample →
        exec (.afeSetGainTx g) s = .next { s with fault := some .mode }) ∧
      (∀ old new : Byte, g.toNat ≤ 3 → s.afe.life = .live → s.busBusy = false → s.bus.mode = .command →
        s.bus.emul = true → s.cfg.admissible = true → Memory.wf s.cfg s.shadow = true →
        old = shadowGet s.shadow s.cfg.aGain.toNat → new = (old &&& ~~~mask) ||| val →
        ∃ sh : List Host.Cell, (∀ x, shadowGet sh x = if x = s.cfg.aGain.toNat then new else shadowGet s.shadow x) ∧
          exec (.afeSetGainTx g) s = .next
            { s with
              shadow := sh
              afe := { s.afe with gainTx := BitVec.ofNat 2 g.toNat }
              busLog := s.busLog ++ [.cmdRd s.cfg.aGain old, .cmdWr s.cfg.aGain new, .cmdRd s.cfg.aGain new]
              results := s.results ++ [⟨.ok, .none⟩] }) ∧
      (∀ old new r : Byte, g.toNat ≤ 3 → s.afe.life = .live → s.busBusy = false → s.bus.mode = .command →
        s.bus.emul = false → old = s.cfg.regBits s.drawReceived.2 → new = (old &&& ~~~mask) ||| val →
        r = s.cfg.regBits s.drawReceived.1.drawReceived.2 →
        (r &&& mask = val →
          exec (.afeSetGainTx g) s = .next
            { s with
              env := s.drawReceived.1.drawReceived.1.env
              afe := { s.afe with gainTx := BitVec.ofNat 2 g.toNat }
              busLog := s.busLog ++ [.cmdRd s.cfg.aGain old, .cmdWr s.cfg.aGain new, .cmdRd s.cfg.aGain r]
              results := s.results ++ [⟨.ok, .none⟩] }) ∧
        (r &&& mask ≠ val →
          exec (.afeSetGainTx g) s = .next
            { s with
              env := s.drawReceived.1.drawReceived.1.env
              busLog := s.busLog ++ [.cmdRd s.cfg.aGain old, .cmdWr s.cfg.aGain new, .cmdRd s.cfg.aGain r]
              fault := some .integrity }))

/-- AFE_SET_GAINS_RX (41_afe.md R166, R164): both rx stages by one masked update of GAIN with the mask of its RX1G and
RX2G fields, at R8's defaults mask 0x0F and value g1 | (g2 << 2). -/
def Obligations.AfeSetGainsRxRule : Prop :=
  ∀ (s : State) (g₁ g₂ mask val : Byte), mask = 3#8 <<< s.cfg.places.rx1gLo ||| 3#8 <<< s.cfg.places.rx2gLo →
    val = g₁ <<< s.cfg.places.rx1gLo ||| g₂ <<< s.cfg.places.rx2gLo →
    (3 < g₁.toNat ∨ 3 < g₂.toNat →
        exec (.afeSetGainsRx g₁ g₂) s = .next { s with results := s.results ++ [⟨.eParam, .none⟩] }) ∧
      (g₁.toNat ≤ 3 → g₂.toNat ≤ 3 → s.afe.life ≠ .live →
        exec (.afeSetGainsRx g₁ g₂) s = .next { s with fault := some .lifecycle }) ∧
      (g₁.toNat ≤ 3 → g₂.toNat ≤ 3 → s.afe.life = .live → s.busBusy = true →
        exec (.afeSetGainsRx g₁ g₂) s = .next { s with fault := some .busy }) ∧
      (g₁.toNat ≤ 3 → g₂.toNat ≤ 3 → s.afe.life = .live → s.busBusy = false → s.bus.mode = .sample →
        exec (.afeSetGainsRx g₁ g₂) s = .next { s with fault := some .mode }) ∧
      (∀ old new : Byte, g₁.toNat ≤ 3 → g₂.toNat ≤ 3 → s.afe.life = .live → s.busBusy = false →
        s.bus.mode = .command → s.bus.emul = true → s.cfg.admissible = true → Memory.wf s.cfg s.shadow = true →
        old = shadowGet s.shadow s.cfg.aGain.toNat → new = (old &&& ~~~mask) ||| val →
        ∃ sh : List Host.Cell, (∀ x, shadowGet sh x = if x = s.cfg.aGain.toNat then new else shadowGet s.shadow x) ∧
          exec (.afeSetGainsRx g₁ g₂) s = .next
            { s with
              shadow := sh
              afe := { s.afe with gainRx1 := BitVec.ofNat 2 g₁.toNat, gainRx2 := BitVec.ofNat 2 g₂.toNat }
              busLog := s.busLog ++ [.cmdRd s.cfg.aGain old, .cmdWr s.cfg.aGain new, .cmdRd s.cfg.aGain new]
              results := s.results ++ [⟨.ok, .none⟩] }) ∧
      (∀ old new r : Byte, g₁.toNat ≤ 3 → g₂.toNat ≤ 3 → s.afe.life = .live → s.busBusy = false →
        s.bus.mode = .command → s.bus.emul = false → old = s.cfg.regBits s.drawReceived.2 →
        new = (old &&& ~~~mask) ||| val → r = s.cfg.regBits s.drawReceived.1.drawReceived.2 →
        (r &&& mask = val →
          exec (.afeSetGainsRx g₁ g₂) s = .next
            { s with
              env := s.drawReceived.1.drawReceived.1.env
              afe := { s.afe with gainRx1 := BitVec.ofNat 2 g₁.toNat, gainRx2 := BitVec.ofNat 2 g₂.toNat }
              busLog := s.busLog ++ [.cmdRd s.cfg.aGain old, .cmdWr s.cfg.aGain new, .cmdRd s.cfg.aGain r]
              results := s.results ++ [⟨.ok, .none⟩] }) ∧
        (r &&& mask ≠ val →
          exec (.afeSetGainsRx g₁ g₂) s = .next
            { s with
              env := s.drawReceived.1.drawReceived.1.env
              busLog := s.busLog ++ [.cmdRd s.cfg.aGain old, .cmdWr s.cfg.aGain new, .cmdRd s.cfg.aGain r]
              fault := some .integrity }))

/-- AFE_SET_CALIBRATION (41_afe.md R167, R164): one masked update of CONTROL1 with a one-hot code in the mask of its
three calibration bits, at R8's defaults mask 0x07 and codes 0, 1, 2 and 4. -/
def Obligations.AfeSetCalibrationRule : Prop :=
  ∀ (s : State) (c code mask : Byte) (mode : Cal),
    mask = 1#8 <<< s.cfg.places.txCal ||| 1#8 <<< s.cfg.places.rxCal ||| 1#8 <<< s.cfg.places.txPgaCal →
    (code, mode) = (if c = 0 then (0#8, Cal.none) else if c = 1 then (1#8 <<< s.cfg.places.txCal, Cal.tx)
      else if c = 2 then (1#8 <<< s.cfg.places.rxCal, Cal.rx) else (1#8 <<< s.cfg.places.txPgaCal, Cal.txPga)) →
    (3 < c.toNat → exec (.afeSetCalibration c) s = .next { s with results := s.results ++ [⟨.eParam, .none⟩] }) ∧
      (c.toNat ≤ 3 → s.afe.life ≠ .live →
        exec (.afeSetCalibration c) s = .next { s with fault := some .lifecycle }) ∧
      (c.toNat ≤ 3 → s.afe.life = .live → s.busBusy = true →
        exec (.afeSetCalibration c) s = .next { s with fault := some .busy }) ∧
      (c.toNat ≤ 3 → s.afe.life = .live → s.busBusy = false → s.bus.mode = .sample →
        exec (.afeSetCalibration c) s = .next { s with fault := some .mode }) ∧
      (∀ old new : Byte, c.toNat ≤ 3 → s.afe.life = .live → s.busBusy = false → s.bus.mode = .command →
        s.bus.emul = true → s.cfg.admissible = true → Memory.wf s.cfg s.shadow = true →
        old = shadowGet s.shadow s.cfg.aControl1.toNat → new = (old &&& ~~~mask) ||| code →
        ∃ sh : List Host.Cell, (∀ x, shadowGet sh x = if x = s.cfg.aControl1.toNat then new else shadowGet s.shadow x) ∧
          exec (.afeSetCalibration c) s = .next
            { s with
              shadow := sh
              afe := { s.afe with cal := mode }
              busLog := s.busLog ++
                [.cmdRd s.cfg.aControl1 old, .cmdWr s.cfg.aControl1 new, .cmdRd s.cfg.aControl1 new]
              results := s.results ++ [⟨.ok, .none⟩] }) ∧
      (∀ old new r : Byte, c.toNat ≤ 3 → s.afe.life = .live → s.busBusy = false → s.bus.mode = .command →
        s.bus.emul = false → old = s.cfg.regBits s.drawReceived.2 → new = (old &&& ~~~mask) ||| code →
        r = s.cfg.regBits s.drawReceived.1.drawReceived.2 →
        (r &&& mask = code →
          exec (.afeSetCalibration c) s = .next
            { s with
              env := s.drawReceived.1.drawReceived.1.env
              afe := { s.afe with cal := mode }
              busLog := s.busLog ++
                [.cmdRd s.cfg.aControl1 old, .cmdWr s.cfg.aControl1 new, .cmdRd s.cfg.aControl1 r]
              results := s.results ++ [⟨.ok, .none⟩] }) ∧
        (r &&& mask ≠ code →
          exec (.afeSetCalibration c) s = .next
            { s with
              env := s.drawReceived.1.drawReceived.1.env
              busLog := s.busLog ++
                [.cmdRd s.cfg.aControl1 old, .cmdWr s.cfg.aControl1 new, .cmdRd s.cfg.aControl1 r]
              fault := some .integrity }))

/-- AFE_SET_STANDBY (41_afe.md R169): in any state, the range check and then E_REFUSED; nothing else of the block changes, and
the run has no meaning from then on: every step after it is refused (the mark and the refusal are the model's form, log 12). -/
def Obligations.AfeSetStandbyRule : Prop :=
  ∀ (s : State) (a : Byte),
    (1 < a.toNat → exec (.afeSetStandby a) s = .next { s with results := s.results ++ [⟨.eParam, .none⟩] }) ∧
      (a.toNat ≤ 1 →
        exec (.afeSetStandby a) s = .next
          { s with results := s.results ++ [⟨.eRefused, .none⟩], runVoid := true }) ∧
      (∀ t : State, a.toNat ≤ 1 → s.fault = none → exec (.afeSetStandby a) s = .next t →
        step t = .refused .afterRefusedOperation)

/-- AFE_GET_REVISION, AFE_GET_STATE and AFE_IS_PRESENT (41_afe.md R170, R171, R173): cached state, no transfer. -/
def Obligations.AfeQueriesRule : Prop :=
  ∀ s : State,
    (s.afe.life ≠ .live →
        exec .afeGetRevision s = .next { s with fault := some .lifecycle } ∧
          exec .afeGetState s = .next { s with fault := some .lifecycle }) ∧
      (s.afe.life = .live →
        exec .afeGetRevision s = .next { s with results := s.results ++ [⟨.ok, .byte s.afe.revision⟩] } ∧
          exec .afeGetState s = .next
            { s with
              results := s.results ++
                [⟨.ok, .afeState s.afe.blocks s.afe.cal s.afe.gainTx s.afe.gainRx1 s.afe.gainRx2 s.bus.mode s.bus.rung
                  s.bus.iwd⟩] }) ∧
      (s.bus.life ≠ .live → exec .afeIsPresent s = .next { s with fault := some .lifecycle }) ∧
      (s.bus.life = .live →
        exec .afeIsPresent s = .next { s with results := s.results ++ [⟨.ok, .flag (!s.bus.emul)⟩] })

/-- AFE_SET_FLAGS_CALLBACK (41_afe.md R172): registering clears the pending edges, registering again changes nothing. -/
def Obligations.AfeSetFlagsCallbackRule : Prop :=
  ∀ (s : State) (a : Byte),
    (1 < a.toNat → exec (.afeSetFlagsCallback a) s = .next { s with results := s.results ++ [⟨.eParam, .none⟩] }) ∧
      (a.toNat ≤ 1 → s.afe.life ≠ .live →
        exec (.afeSetFlagsCallback a) s = .next { s with fault := some .lifecycle }) ∧
      (a = 1 → s.afe.life = .live → s.afe.cbOn = false →
        exec (.afeSetFlagsCallback a) s = .next
          { s with
            afe := { s.afe with cbOn := true, pend := { tx := false, rx := false, ovl := false } }
            results := s.results ++ [⟨.ok, .none⟩] }) ∧
      (a = 1 → s.afe.life = .live → s.afe.cbOn = true →
        exec (.afeSetFlagsCallback a) s = .next { s with results := s.results ++ [⟨.ok, .none⟩] }) ∧
      (a = 0 → s.afe.life = .live →
        exec (.afeSetFlagsCallback a) s = .next
          { s with afe := { s.afe with cbOn := false }, results := s.results ++ [⟨.ok, .none⟩] })

/-- The document's block test (41_afe.md R177) in EMU: enabling any blocks and then none leaves a mask of zero and both enable
registers zero. -/
def Obligations.ActivatingNoneClearsBothEnableRegisters : Prop :=
  ∀ (s t u : State) (m : Byte), s.afe.life = .live → s.busBusy = false → s.bus.mode = .command → s.bus.emul = true →
    s.cfg.admissible = true → Memory.wf s.cfg s.shadow = true →
    exec (.afeActivateBlocks m) s = .next t → exec (.afeActivateBlocks 0) t = .next u →
    u.fault = s.fault ∧ u.afe.blocks = 0 ∧ shadowGet u.shadow s.cfg.aEnable1.toNat = 0 ∧
      shadowGet u.shadow s.cfg.aEnable2.toNat = 0

/-- The gain setters are idempotent (41_afe.md R175) in EMU: the second call leaves every register and the handle as the first
did. -/
def Obligations.GainSettersAreIdempotent : Prop :=
  ∀ (s t u : State) (i : Instr), ((∃ g, i = .afeSetGainTx g) ∨ ∃ g₁ g₂, i = .afeSetGainsRx g₁ g₂) →
    s.bus.emul = true → s.cfg.admissible = true → Memory.wf s.cfg s.shadow = true → s.fault = none → exec i s = .next t →
    t.fault = none → exec i t = .next u →
    u.afe = t.afe ∧ u.fault = none ∧ (∀ x, shadowGet u.shadow x = shadowGet t.shadow x) ∧
      { u with shadow := t.shadow, busLog := t.busLog, results := t.results } = t

/-- Under ChipFaithful no setter raises F_INTEGRITY on a physical chip (41_afe.md R164, 20_memory.md R67). -/
def Obligations.AFaithfulChipNeverFailsVerification : Prop :=
  ∀ (s t : State) (i : Instr),
    ((∃ m, i = .afeActivateBlocks m) ∨ (∃ g, i = .afeSetGainTx g) ∨ (∃ g₁ g₂, i = .afeSetGainsRx g₁ g₂) ∨
      ∃ c, i = .afeSetCalibration c) →
    s.bus.emul = false → s.fault = none → exec i s = .next t → ChipFaithful s.cfg t.busLog = true →
    t.fault ≠ some .integrity

/-! ## SCHED operations -/

/-- SCHED_CREATE (42_sched.md R201). That the refused variant marks the run is the model's form (log 12). -/
def Obligations.SchedCreateRule : Prop :=
  ∀ (s : State) (v : Byte) (w : Half) (variant : Variant),
    variant = (if v = 0 then .sync else if v = 1 then .worker else .dma) →
    (3 < v.toNat ∨ w.toNat = 0 ∨ s.cfg.sMax < w.toNat ∨ (v = 2 ∧ s.cfg.dmaMaxSamples < w.toNat) →
        exec (.schedCreate v w) s = .next { s with results := s.results ++ [⟨.eParam, .none⟩] }) ∧
      (v = 3 → 1 ≤ w.toNat → w.toNat ≤ s.cfg.sMax →
        exec (.schedCreate v w) s = .next
          { s with results := s.results ++ [⟨.eRefused, .none⟩], runVoid := true }) ∧
      (v.toNat < 3 → 1 ≤ w.toNat → w.toNat ≤ s.cfg.sMax → (v = 2 → w.toNat ≤ s.cfg.dmaMaxSamples) →
        (s.sch.life ≠ .absent → exec (.schedCreate v w) s = .next { s with fault := some .lifecycle }) ∧
        (s.sch.life = .absent → s.bus.life ≠ .live →
          exec (.schedCreate v w) s = .next { s with results := s.results ++ [⟨.eState, .none⟩] }) ∧
        (s.sch.life = .absent → s.bus.life = .live → s.bus.emul = false → s.drawResource.2 = false →
          exec (.schedCreate v w) s = .next
            { s with env := s.drawResource.1.env, results := s.results ++ [⟨.eResource, .none⟩] }) ∧
        (∀ env : Env, s.sch.life = .absent → s.bus.life = .live →
          ((s.bus.emul = true ∧ env = s.env) ∨
            (s.bus.emul = false ∧ s.drawResource.2 = true ∧ env = s.drawResource.1.env)) →
          exec (.schedCreate v w) s = .next
            { s with
              env := env
              sch :=
                { s.sch with
                  life := .created, variant := variant, len := w.toNat, missed := 0, terminate := false,
                  txeActive := false }
              buf := []
              results := s.results ++ [⟨.ok, .none⟩] }))

/-- SCHED_START (42_sched.md R202): with one buffer nothing is filled; with two, buffer 0 is filled and in flight. -/
def Obligations.SchedStartRule : Prop :=
  ∀ s : State,
    (s.sch.life = .absent ∨ s.sch.life = .released →
        exec .schedStart s = .next { s with fault := some .lifecycle }) ∧
      (s.sch.life = .running ∨ s.sch.life = .stopped →
        exec .schedStart s = .next { s with results := s.results ++ [⟨.eState, .none⟩] }) ∧
      (s.sch.life = .created → (s.bus.life ≠ .live ∨ s.bus.mode = .command) →
        exec .schedStart s = .next { s with results := s.results ++ [⟨.eState, .none⟩] }) ∧
      (s.sch.life = .created → s.bus.life = .live → s.bus.mode = .sample → s.sch.variant = .sync →
        exec .schedStart s = .next
          { s with
            sch :=
              { s.sch with
                life := .running, fillTgt := 0, txCur := 0, txPos := 0, fresh := { s.sch.fresh with b0 := false },
                phase := .needFill, txeActive := false }
            results := s.results ++ [⟨.ok, .none⟩] }) ∧
      (s.sch.life = .created → s.bus.life = .live → s.bus.mode = .sample → s.sch.variant ≠ .sync →
        s.bus.emul = false → s.drawResource.2 = false →
        exec .schedStart s = .next
          { s with env := s.drawResource.1.env, results := s.results ++ [⟨.eResource, .none⟩] }) ∧
      (∀ env : Env, s.sch.life = .created → s.bus.life = .live → s.bus.mode = .sample → s.sch.variant ≠ .sync →
        ((s.bus.emul = true ∧ env = s.env) ∨
          (s.bus.emul = false ∧ s.drawResource.2 = true ∧ env = s.drawResource.1.env)) →
        ((∃ x ∈ s.fillSrc s.fillCount, 2 ^ s.cfg.sampleBits ≤ x.toNat) →
          exec .schedStart s = .next
            { s with env := env, fillCount := s.fillCount + 1, fault := some .sampleRange }) ∧
        ((∀ x ∈ s.fillSrc s.fillCount, x.toNat < 2 ^ s.cfg.sampleBits) →
          ∃ buf : List (Nat × Half),
            (∀ x, sampleAt buf x =
              if x < s.sch.len then (s.fillSrc s.fillCount)[x]? else sampleAt s.buf x) ∧
            exec .schedStart s = .next
              { s with
                env := env
                fillCount := s.fillCount + 1
                buf := buf
                sch :=
                  { s.sch with
                    life := .running, fillTgt := 1, txCur := 0, txPos := 0, fresh := { b0 := true, b1 := false },
                    phase := .needFill, txeActive := true }
                results := s.results ++ [⟨.ok, .none⟩] }))

/-- SCHED_FILL_NEXT_BUFFER (42_sched.md R203, R206): the fill target takes the next data of the fill source and becomes fresh;
every other entry stays. -/
def Obligations.SchedFillNextBufferRule : Prop :=
  ∀ s : State,
    (s.sch.life = .absent ∨ s.sch.life = .released →
        exec .schedFillNextBuffer s = .next { s with fault := some .lifecycle }) ∧
      (s.sch.life = .created ∨ s.sch.life = .stopped ∨ (s.sch.life = .running ∧ s.sch.phase = .needFlush) →
        exec .schedFillNextBuffer s = .next { s with fault := some .seq }) ∧
      (s.sch.life = .running → s.sch.phase = .needFill →
        (∃ x ∈ s.fillSrc s.fillCount, 2 ^ s.cfg.sampleBits ≤ x.toNat) →
        exec .schedFillNextBuffer s = .next { s with fillCount := s.fillCount + 1, fault := some .sampleRange }) ∧
      (∀ base : Nat, s.sch.life = .running → s.sch.phase = .needFill →
        (∀ x ∈ s.fillSrc s.fillCount, x.toNat < 2 ^ s.cfg.sampleBits) → base = s.sch.fillTgt.val * s.sch.len →
        ∃ (buf : List (Nat × Half)) (fresh : FreshBits),
          (∀ x, sampleAt buf x =
            if base ≤ x ∧ x < base + s.sch.len then (s.fillSrc s.fillCount)[x - base]? else sampleAt s.buf x) ∧
          fresh.get s.sch.fillTgt = true ∧ fresh.get (1 - s.sch.fillTgt) = s.sch.fresh.get (1 - s.sch.fillTgt) ∧
          exec .schedFillNextBuffer s = .next
            { s with
              fillCount := s.fillCount + 1
              buf := buf
              sch := { s.sch with fresh := fresh, phase := .needFlush }
              results := s.results ++ [⟨.ok, .none⟩] })

/-- SCHED_FLUSH_AND_WAIT_BUFFER (42_sched.md R204, R205): with one buffer its samples are sent in order at once, up to the first
entry that is empty or does not fit; with two, the operation ends if TXE has taken the buffer last filled and blocks HOST
otherwise (42_sched.md R213). -/
def Obligations.SchedFlushRule : Prop :=
  ∀ s : State,
    (s.sch.life = .absent ∨ s.sch.life = .released →
        exec .schedFlushAndWaitBuffer s = .next { s with fault := some .lifecycle }) ∧
      (s.sch.life = .created ∨ s.sch.life = .stopped ∨ (s.sch.life = .running ∧ s.sch.phase = .needFill) →
        exec .schedFlushAndWaitBuffer s = .next { s with fault := some .seq }) ∧
      (s.sch.life = .running → s.sch.phase = .needFlush → s.sch.variant = .sync → s.bus.mode = .command →
        0 < s.sch.len →
        (sampleAt s.buf 0 = none → exec .schedFlushAndWaitBuffer s = .next { s with fault := some .unwritten }) ∧
        (∀ v : Half, sampleAt s.buf 0 = some v →
          exec .schedFlushAndWaitBuffer s = .next { s with fault := some .mode })) ∧
      (∀ (ws : List Half) (k : Nat), s.sch.life = .running → s.sch.phase = .needFlush → s.sch.variant = .sync →
        s.bus.mode = .sample → k < s.sch.len → ws.length = k → (∀ p, p < k → sampleAt s.buf p = ws[p]?) →
        (∀ w ∈ ws, w.toNat < 2 ^ s.cfg.sampleBits) →
        (sampleAt s.buf k = none →
          exec .schedFlushAndWaitBuffer s = .next
            { s with busLog := s.busLog ++ ws.map .sample, fault := some .unwritten }) ∧
        (∀ v : Half, sampleAt s.buf k = some v → 2 ^ s.cfg.sampleBits ≤ v.toNat →
          exec .schedFlushAndWaitBuffer s = .next
            { s with busLog := s.busLog ++ ws.map .sample, fault := some .sampleRange })) ∧
      (∀ ws : List Half, s.sch.life = .running → s.sch.phase = .needFlush → s.sch.variant = .sync → s.bus.mode = .sample →
        ws.length = s.sch.len → (∀ p, p < s.sch.len → sampleAt s.buf p = ws[p]?) →
        (∀ w ∈ ws, w.toNat < 2 ^ s.cfg.sampleBits) →
        exec .schedFlushAndWaitBuffer s = .next
          { s with
            busLog := s.busLog ++ ws.map .sample
            sch := { s.sch with fresh := { s.sch.fresh with b0 := false }, phase := .needFill }
            results := s.results ++ [⟨.ok, .index 0⟩] }) ∧
      (s.sch.life = .running → s.sch.phase = .needFlush → s.sch.variant ≠ .sync → s.sch.txCur = s.sch.fillTgt →
        exec .schedFlushAndWaitBuffer s = .next
          { s with
            sch := { s.sch with fillTgt := 1 - s.sch.txCur, phase := .needFill }
            wait := .ready
            results := s.results ++ [⟨.ok, .index (1 - s.sch.txCur)⟩] }) ∧
      (s.sch.life = .running → s.sch.phase = .needFlush → s.sch.variant ≠ .sync → s.sch.txCur ≠ s.sch.fillTgt →
        exec .schedFlushAndWaitBuffer s = .next { s with wait := .flush })

/-- SCHED_STOP (42_sched.md R208): `terminate` is set before HOST waits for TXE to halt. -/
def Obligations.SchedStopRule : Prop :=
  ∀ s : State,
    (s.sch.life = .absent ∨ s.sch.life = .released →
        exec .schedStop s = .next { s with fault := some .lifecycle }) ∧
      (s.sch.life = .created →
        exec .schedStop s = .next
          { s with sch := { s.sch with life := .stopped }, results := s.results ++ [⟨.ok, .none⟩] }) ∧
      (s.sch.life = .stopped → exec .schedStop s = .next { s with results := s.results ++ [⟨.ok, .none⟩] }) ∧
      (s.sch.life = .running → (s.sch.variant = .sync ∨ s.sch.txeActive = false) →
        exec .schedStop s = .next
          { s with
            sch := { s.sch with life := .stopped, terminate := true }
            wait := .ready
            results := s.results ++ [⟨.ok, .none⟩] }) ∧
      (s.sch.life = .running → s.sch.variant ≠ .sync → s.sch.txeActive = true →
        exec .schedStop s = .next { s with sch := { s.sch with terminate := true }, wait := .stop })

/-- SCHED_RELEASE (42_sched.md R209): only after a stop; the buffers no longer exist. -/
def Obligations.SchedReleaseRule : Prop :=
  ∀ s : State,
    (s.sch.life = .absent ∨ s.sch.life = .released →
        exec .schedRelease s = .next { s with fault := some .lifecycle }) ∧
      (s.sch.life = .created ∨ s.sch.life = .running →
        exec .schedRelease s = .next { s with fault := some .seq }) ∧
      (s.sch.life = .stopped →
        exec .schedRelease s = .next
          { s with
            sch := { s.sch with life := .released }
            buf := []
            results := s.results ++ [⟨.ok, .none⟩] })

/-- SCHED_GET_ADDRESS_BUFFER_IN_TX and SCHED_GET_MISSED (42_sched.md R207, R210). -/
def Obligations.SchedQueriesRule : Prop :=
  ∀ s : State,
    (s.sch.life = .absent ∨ s.sch.life = .released →
        exec .schedGetAddressBufferInTx s = .next { s with fault := some .lifecycle } ∧
          exec .schedGetMissed s = .next { s with fault := some .lifecycle }) ∧
      (s.sch.life = .created ∨ s.sch.life = .stopped →
        exec .schedGetAddressBufferInTx s = .next { s with results := s.results ++ [⟨.eState, .none⟩] }) ∧
      (s.sch.life = .running →
        exec .schedGetAddressBufferInTx s = .next { s with results := s.results ++ [⟨.ok, .index s.sch.txCur⟩] }) ∧
      (s.sch.life = .created ∨ s.sch.life = .running ∨ s.sch.life = .stopped →
        exec .schedGetMissed s = .next { s with results := s.results ++ [⟨.ok, .count s.sch.missed⟩] })

/-! ## TXE and the arbiter -/

/-- The TXE steps (42_sched.md R230, R231, R232): one sample word per emit step, the arbiter's decision after the last one, and
the halt. That a turn of TXE whose step is not enabled changes only the schedule is the model's choice (log 20), and that a
position at or past the buffer's length is F_UNWRITTEN is its reading of 20_memory.md R70 (log 22). -/
def Obligations.TxeStepsRule : Prop :=
  ∀ (s : State) (ts : List Turn), s.fault = none → s.runVoid = false →
    (s.turns = .txeEmit :: ts →
      (s.busBusy = false ∨ s.sch.txeActive = false ∨ (s.sch.terminate = true ∧ s.sch.txPos = 0) →
        step s = .next { s with turns := ts }) ∧
      (s.busBusy = true → s.sch.txeActive = true → ¬ (s.sch.terminate = true ∧ s.sch.txPos = 0) →
        (sampleAt s.buf (s.sch.txCur.val * s.sch.len + s.sch.txPos) = none ∨ s.sch.len ≤ s.sch.txPos →
          step s = .next { s with turns := ts, fault := some .unwritten }) ∧
        (∀ v : Half, s.sch.txPos < s.sch.len → sampleAt s.buf (s.sch.txCur.val * s.sch.len + s.sch.txPos) = some v →
          (s.bus.mode = .command → step s = .next { s with turns := ts, fault := some .mode }) ∧
          (s.bus.mode = .sample → 2 ^ s.cfg.sampleBits ≤ v.toNat →
            step s = .next { s with turns := ts, fault := some .sampleRange }) ∧
          (s.bus.mode = .sample → v.toNat < 2 ^ s.cfg.sampleBits → s.sch.txPos + 1 < s.sch.len →
            step s = .next
              { s with
                turns := ts
                busLog := s.busLog ++ [.sample v]
                sch := { s.sch with txPos := s.sch.txPos + 1 } }) ∧
          (∀ fresh : FreshBits, s.bus.mode = .sample → v.toNat < 2 ^ s.cfg.sampleBits → s.sch.txPos + 1 = s.sch.len →
            fresh = s.sch.fresh.set s.sch.txCur false →
            (s.sch.terminate = true →
              step s = .next
                { s with
                  turns := ts
                  busLog := s.busLog ++ [.sample v]
                  sch := { s.sch with txPos := 0, fresh := fresh } }) ∧
            (s.sch.terminate = false → s.sch.fresh.get (1 - s.sch.txCur) = true →
              step s = .next
                { s with
                  turns := ts
                  busLog := s.busLog ++ [.sample v]
                  sch := { s.sch with txPos := 0, fresh := fresh, txCur := 1 - s.sch.txCur } }) ∧
            (s.sch.terminate = false → s.sch.fresh.get (1 - s.sch.txCur) = false →
              step s = .next
                { s with
                  turns := ts
                  busLog := s.busLog ++ [.sample v]
                  sch := { s.sch with txPos := 0, fresh := fresh, missed := s.sch.missed + 1 } }))))) ∧
    (s.turns = .txeHalt :: ts →
      (s.sch.txeActive = true → s.sch.terminate = true →
        step s = .next { s with turns := ts, sch := { s.sch with txeActive := false } }) ∧
      (s.sch.txeActive = false ∨ s.sch.terminate = false → step s = .next { s with turns := ts }))

/-- One whole pass of TXE sends exactly the samples of the buffer in flight, in order (42_sched.md R230, R231, R236; 20_memory.md
R75). -/
def Obligations.OnePassSendsTheWholeBuffer : Prop :=
  ∀ (s : State) (ts : List Turn) (ws : List Half),
    s.fault = none → s.runVoid = false → s.turns = List.replicate s.sch.len .txeEmit ++ ts →
    s.busBusy = true → s.bus.mode = .sample → s.sch.txeActive = true → s.sch.terminate = false → s.sch.txPos = 0 →
    0 < s.sch.len → ws.length = s.sch.len →
    (∀ p, p < s.sch.len → sampleAt s.buf (s.sch.txCur.val * s.sch.len + p) = ws[p]?) →
    (∀ w ∈ ws, w.toNat < 2 ^ s.cfg.sampleBits) →
    ∃ t, core.run s.sch.len s = .next t ∧ t.turns = ts ∧ t.busLog = s.busLog ++ ws.map .sample ∧ t.sch.txPos = 0 ∧
      t.sch.fresh.get s.sch.txCur = false ∧ t.buf = s.buf ∧
      (s.sch.fresh.get (1 - s.sch.txCur) = true → t.sch.txCur = 1 - s.sch.txCur ∧ t.sch.missed = s.sch.missed) ∧
      (s.sch.fresh.get (1 - s.sch.txCur) = false → t.sch.txCur = s.sch.txCur ∧ t.sch.missed = s.sch.missed + 1)

/-- The wait of a flush always ends (42_sched.md R205): after at most as many emit steps as the buffer in flight has samples
left, HOST's next turn returns the other buffer's index. That HOST goes on at a later turn of its own is the model's choice
(log 15); the alternation the index shows is the spec's construction and not the document's (92_eei_decisions.md D25,
42_sched.md R235). Without a schedule: in every endless run in which TXE is weakly fair (R233; the form of the premise is log 20),
whatever the order of the turns, TXE takes the filled buffer while HOST waits in the flush, and halts while HOST waits in a stop
(R208, R232). -/
def Obligations.FlushWaitEndsWithinOneBuffer : Prop :=
  (∀ (s : State) (ts : List Turn), s.arbiterInv = true → s.fault = none → s.runVoid = false → s.wait = .flush →
      s.sch.txeActive = true → s.sch.terminate = false →
      s.turns = List.replicate (s.sch.len - s.sch.txPos) .txeEmit ++ .host :: ts →
      ∃ t, core.run (s.sch.len - s.sch.txPos + 1) s = .next t ∧ t.turns = ts ∧ t.fault = none ∧ t.wait = .ready ∧
        t.sch.phase = .needFill ∧ t.sch.txCur = s.sch.fillTgt ∧ t.sch.fillTgt = 1 - s.sch.fillTgt ∧
        t.results = s.results ++ [⟨.ok, .index (1 - s.sch.fillTgt)⟩]) ∧
    ∀ (r : Nat → State) (k : Nat), EndlessRun r → TxeWeaklyFair r → (r k).arbiterInv = true →
      ((r k).wait = .flush → (r k).sch.txeActive = true → (r k).sch.terminate = false →
        ∃ j, k ≤ j ∧ (r j).wait = .flush ∧ (r j).sch.txCur = (r j).sch.fillTgt) ∧
      ((r k).wait = .stop → ∃ j, k ≤ j ∧ (r j).wait = .stop ∧ (r j).sch.txeActive = false)

/-- A fill never writes the buffer in flight (42_sched.md R234 (c), 20_memory.md R75). -/
def Obligations.AFillLeavesTheBufferInFlight : Prop :=
  ∀ (s t : State) (p : Nat), s.arbiterInv = true → s.busBusy = true → exec .schedFillNextBuffer s = .next t →
    p < s.sch.len →
    sampleAt t.buf (s.sch.txCur.val * s.sch.len + p) = sampleAt s.buf (s.sch.txCur.val * s.sch.len + p)

/-! ## Flag pins -/

/-- The ENV pin step and the FLAGMON step (60_exceptions.md R261, R262). That a FLAGMON turn whose step is not enabled changes only
the schedule is the model's choice (log 20). -/
def Obligations.FlagStepsRule : Prop :=
  ∀ (s : State) (ts : List Turn) (x : FlagPin), s.fault = none → s.runVoid = false →
    (s.turns = .env x :: ts →
      (s.afe.life = .live → s.afe.cbOn = true →
        step s = .next
          { s with
            turns := ts
            flags := s.flags.set x (!s.flags.get x)
            afe := { s.afe with pend := s.afe.pend.set x true } }) ∧
      (s.afe.life ≠ .live ∨ s.afe.cbOn = false →
        step s = .next { s with turns := ts, flags := s.flags.set x (!s.flags.get x) })) ∧
    (s.turns = .flagmon x :: ts →
      (s.afe.life = .live → s.afe.cbOn = true → s.afe.pend.get x = true →
        step s = .next
          { s with
            turns := ts
            afe := { s.afe with pend := s.afe.pend.set x false }
            cbLog := s.cbLog ++ [s.flags] }) ∧
      (s.afe.life ≠ .live ∨ s.afe.cbOn = false ∨ s.afe.pend.get x = false →
        step s = .next { s with turns := ts }))

/-- No FLAGS event follows while the callback is not registered, whatever agent steps (60_exceptions.md R263, 20_memory.md
R76). -/
def Obligations.NoFlagsEventWithoutTheCallback : Prop :=
  ∀ s t : State, s.afe.cbOn = false → step s = .next t → t.cbLog = s.cbLog

/-! ## Wire words -/

/-- The wire rows as instructions: the register write, the register read and the sample word (40_bus.md R130, R131, R132) under
their callers' preconditions, which is the model's choice (log 4, 14). No result is returned. In EMU, a frame that has an encoding:
one whose address and data fit their fields (30_encoding.md R91). -/
def Obligations.WireWordsAreTransactions : Prop :=
  ∀ (s : State) (a : RegAddr) (v : Byte) (w : Half),
    (s.bus.life ≠ .live →
        exec (.cmdWrite a v) s = .next { s with fault := some .lifecycle } ∧
          exec (.cmdRead a) s = .next { s with fault := some .lifecycle } ∧
          exec (.sample w) s = .next { s with fault := some .lifecycle }) ∧
      (s.bus.life = .live → s.busBusy = true →
        exec (.cmdWrite a v) s = .next { s with fault := some .busy } ∧
          exec (.cmdRead a) s = .next { s with fault := some .busy } ∧
          exec (.sample w) s = .next { s with fault := some .busy }) ∧
      (s.bus.life = .live → s.busBusy = false → s.bus.mode = .sample →
        exec (.cmdWrite a v) s = .next { s with fault := some .mode } ∧
          exec (.cmdRead a) s = .next { s with fault := some .mode } ∧
          (w.toNat < 2 ^ s.cfg.sampleBits →
            exec (.sample w) s = .next { s with busLog := s.busLog ++ [.sample w] }) ∧
          (2 ^ s.cfg.sampleBits ≤ w.toNat → exec (.sample w) s = .next { s with fault := some .sampleRange })) ∧
      (s.bus.life = .live → s.busBusy = false → s.bus.mode = .command →
        exec (.sample w) s = .next { s with fault := some .mode } ∧
          (s.bus.emul = true → s.cfg.admissible = true → (Instr.cmdWrite a v).wellFormed s.cfg = true →
            Memory.wf s.cfg s.shadow = true →
            ∃ sh : List Host.Cell, (∀ x, shadowGet sh x = if x = a.toNat then v else shadowGet s.shadow x) ∧
              exec (.cmdWrite a v) s = .next { s with shadow := sh, busLog := s.busLog ++ [.cmdWr a v] }) ∧
          (s.bus.emul = false →
            exec (.cmdWrite a v) s = .next { s with busLog := s.busLog ++ [.cmdWr a v] }) ∧
          (s.bus.emul = true → s.cfg.admissible = true → (Instr.cmdRead a).wellFormed s.cfg = true →
            exec (.cmdRead a) s = .next
              { s with busLog := s.busLog ++ [.cmdRd a (shadowGet s.shadow a.toNat)] }) ∧
          (s.bus.emul = false →
            exec (.cmdRead a) s = .next
              { s with
                env := s.drawReceived.1.env
                busLog := s.busLog ++ [.cmdRd a (s.cfg.regBits s.drawReceived.2)] }))

/-! ## The whole machine -/

/-- What reset leaves, as far as the spec gives it (10_state.md R50, 70_reset_and_hazards.md R291). The last clause, that the reset
state holds the defaults of 00_scope.md R8 as its configuration, is the model's choice (log 13): the spec gives the configuration
as arguments of the model, not as state. -/
def Obligations.ResetLeavesWhatTheSpecGives : Prop :=
  State.reset.bus.life = .absent ∧ State.reset.afe.life = .absent ∧ State.reset.sch.life = .absent ∧
    State.reset.busLog = [] ∧ State.reset.cbLog = [] ∧ State.reset.fillCount = 0 ∧ State.reset.fault = none ∧
    State.reset.modeSelPin = none ∧ State.reset.results = [] ∧ State.reset.wait = .ready ∧
    State.reset.cfg =
      { sampleBits := 10, sampleContainerBits := 16, cmdWordBits := 16, frameAddrBits := 7, regDataBits := 8,
        frame := { rw := 15, addrLo := 8, dataLo := 0 },
        places :=
          { pa := 0, tx := 1, rx := 2, dac := 5, zc := 0, ref1 := 1, ref2 := 2, paOut := 3, rx1gLo := 0, rx2gLo := 2,
            txgLo := 4, txCal := 0, rxCal := 1, txPgaCal := 2 },
        aEnable1 := 0x01, aGain := 0x02, aEnable2 := 0x03, aControl1 := 0x04, aRevision := 0x0B,
        expectedRevision := 0x02, ladderRungs := 16, dmaMaxSamples := 2048, sMax := 65535 }

/-- Reset meets every invariant the next statements keep (10_state.md R49, R50, R27, 41_afe.md R174, 42_sched.md R234). The last
clause, that the configuration of the reset state is admissible, is the model's choice (log 13, PRESUMED) and no rule of the spec:
the spec gives the configuration as arguments of the model, not as state (10_state.md R20); the model's reset holds the defaults
of 00_scope.md R8, and what counts as admissible is log 13's. -/
def Obligations.ResetMeetsTheInvariants : Prop :=
  State.reset.memoryCanonical = true ∧ State.reset.arbiterInv = true ∧ State.reset.modePinAgrees = true ∧
    State.reset.afeHasBus = true ∧ State.reset.handleCoherent = true ∧ State.reset.cfg.admissible = true

/-- Every step keeps both address spaces in canonical form, every stored sample below 2^SAMPLE_BITS (20_memory.md R70) among it;
so every stored sample fits its container, where the container is wide enough for a sample (00_scope.md R8). -/
def Obligations.EveryStepKeepsMemoryCanonical : Prop :=
  ∀ s t : State, s.memoryCanonical = true → step s = .next t →
    t.memoryCanonical = true ∧
      (t.cfg.sampleBits ≤ t.cfg.sampleContainerBits →
        ∀ a v, sampleAt t.buf a = some v → v.toNat < 2 ^ t.cfg.sampleContainerBits)

/-- Every step keeps the arbiter's invariant (42_sched.md R234, R212): the buffer being filled and the buffer in flight are never
the same, and every fresh buffer and the buffer in flight are wholly filled. -/
def Obligations.EveryStepKeepsTheArbiterInvariant : Prop :=
  ∀ s t : State, s.arbiterInv = true → step s = .next t → t.arbiterInv = true

/-- No TXE step raises a fault in a state of the arbiter's invariant (42_sched.md R230, R234). -/
def Obligations.TxeNeverFaultsUnderTheInvariant : Prop :=
  ∀ (s t : State) (ts : List Turn), s.arbiterInv = true → (s.turns = .txeEmit :: ts ∨ s.turns = .txeHalt :: ts) →
    step s = .next t → t.fault = none

/-- The mode-select pin always agrees with the bus mode, and a live AFE always has a live bus (10_state.md R27, 41_afe.md
R174). -/
def Obligations.EveryStepKeepsTheHandleInvariants : Prop :=
  ∀ s t : State, step s = .next t →
    (s.modePinAgrees = true → t.modePinAgrees = true) ∧ (s.afeHasBus = true → t.afeHasBus = true)

/-- In EMU the handle always equals the registers (10_state.md R49 (a), 20_memory.md R74): every operation but a create and a
direct register write keeps it so (70_reset_and_hazards.md R296). -/
def Obligations.TheHandleStaysEqualToTheRegisters : Prop :=
  ∀ (i : Instr) (s t : State), (∀ a b, i ≠ .busWriteCommand a b) → (∀ a v, i ≠ .cmdWrite a v) → i ≠ .afeCreate →
    s.cfg.admissible = true → Memory.wf s.cfg s.shadow = true → s.afeHasBus = true → s.handleCoherent = true →
    exec i s = .next t → t.handleCoherent = true

/-- The histories and the fill count only grow, whatever agent steps (00_scope.md R12, 20_memory.md R73, 10_state.md R51), and no
step writes the configuration (00_scope.md R8, 10_state.md R20; that it stands in State is the model's form, log 13). -/
def Obligations.HistoriesOnlyGrow : Prop :=
  ∀ s t : State, step s = .next t →
    s.busLog <+: t.busLog ∧ s.cbLog <+: t.cbLog ∧ s.results <+: t.results ∧ s.fillCount ≤ t.fillCount ∧ t.cfg = s.cfg

/-- The lifecycles take only the transitions of 10_state.md R22, R23 and R40, whatever agent steps. -/
def Obligations.LifecyclesTakeOnlyTheirTransitions : Prop :=
  ∀ s t : State, s.arbiterInv = true → step s = .next t →
    (t.bus.life = s.bus.life ∨ (s.bus.life = .absent ∧ t.bus.life = .live) ∨
        (s.bus.life = .live ∧ t.bus.life = .released)) ∧
      (t.afe.life = s.afe.life ∨ (s.afe.life = .absent ∧ t.afe.life = .live) ∨
        (s.afe.life = .live ∧ t.afe.life = .released)) ∧
      (t.sch.life = s.sch.life ∨ (s.sch.life = .absent ∧ t.sch.life = .created) ∨
        (s.sch.life = .created ∧ t.sch.life = .running) ∨ (s.sch.life = .running ∧ t.sch.life = .stopped) ∨
        (s.sch.life = .created ∧ t.sch.life = .stopped) ∨ (s.sch.life = .stopped ∧ t.sch.life = .released))

/-- Emulation suppresses every device error path (60_exceptions.md R259): no step raises F_INTEGRITY, and no step returns
E_PRESENCE or E_RESOURCE. -/
def Obligations.EmulationNeverFailsLikeADevice : Prop :=
  ∀ s t : State, s.bus.emul = true → s.cfg.admissible = true → Memory.wf s.cfg s.shadow = true → s.bus.life ≠ .absent →
    step s = .next t →
    t.fault ≠ some .integrity ∧
      ∀ r, t.results = s.results ++ [r] → r.status ≠ .ePresence ∧ r.status ≠ .eResource
end

