-- ==== Sys2Proof/Laws/Encode.lean ====
section
/-! SUPPORT. The fields of an encoded word are what it was built from, and a word is built from its fields. -/

namespace Sys2Proof

/-! ## Command frames, whatever their field positions -/

theorem apart_iff (lo n lo' n' : Nat) : apart lo n lo' n' = true ↔ lo + n ≤ lo' ∨ lo' + n' ≤ lo := by
  simp [apart]

theorem getLsbD_fieldAt (v : Byte) (lo n i : Nat) (h : lo + n ≤ 32) :
    (fieldAt v lo n).getLsbD i = (decide (lo ≤ i ∧ i < lo + n) && v.getLsbD (i - lo)) := by
  unfold fieldAt
  simp only [BitVec.getLsbD_shiftLeft, BitVec.getLsbD_setWidth]
  by_cases h1 : lo ≤ i <;> by_cases h2 : i < lo + n
  · simp [h1, h2, show i < 32 by omega, show ¬ i < lo by omega, show i - lo < 32 by omega, show i - lo < n by omega]
  · simp [h2, show ¬ i - lo < n by omega]
  · simp [h1, show i < lo by omega]
  · simp [h1, show i < lo by omega]

theorem getLsbD_frameWord (c : Config) (w : Word) (i : Nat) (h : c.cmdWordBits ≤ 32) :
    (c.frameWord w).getLsbD i = (decide (i < c.cmdWordBits) && w.getLsbD i) := by
  unfold Config.frameWord
  simp only [BitVec.getLsbD_setWidth]
  by_cases h1 : i < c.cmdWordBits
  · simp [h1, show i < 32 by omega]
  · simp [h1]

/-- A value of `n` bits has no bit from `n` up. -/
theorem getLsbD_of_lt {n k : Nat} (v : BitVec k) (h : v.toNat < 2 ^ n) (i : Nat) (hi : n ≤ i) : v.getLsbD i = false :=
  Nat.testBit_lt_two_pow (lt_of_lt_of_le h (Nat.pow_le_pow_right (by omega) hi))

/-- A value without a bit from `n` up is a value of `n` bits. -/
theorem lt_of_getLsbD {n k : Nat} (v : BitVec k) (h : ∀ i, n ≤ i → v.getLsbD i = false) : v.toNat < 2 ^ n :=
  Nat.lt_pow_two_of_testBit _ h

/-- A field is what its bits say. -/
theorem fieldOf_eq (w : Word) (v : Byte) (lo n : Nat) (hv : v.toNat < 2 ^ n)
    (h : ∀ i, i < n → w.getLsbD (lo + i) = v.getLsbD i) : fieldOf w lo n = v := by
  apply BitVec.eq_of_getLsbD_eq
  intro i hi
  simp only [fieldOf, BitVec.getLsbD_setWidth, BitVec.getLsbD_extractLsb', hi, decide_true, Bool.true_and]
  by_cases hn : i < n
  · simp [hn, h i hn]
  · simp [hn, getLsbD_of_lt v hv i (by omega)]

theorem fieldOf_lt (w : Word) (lo n : Nat) : (fieldOf w lo n).toNat < 2 ^ n := by
  apply lt_of_getLsbD
  intro i hi
  simp only [fieldOf, BitVec.getLsbD_setWidth, BitVec.getLsbD_extractLsb']
  simp [show ¬ i < n by omega]

/-- The layout facts of an admissible configuration. -/
structure FrameLayout (c : Config) : Prop where
  word : c.cmdWordBits ≤ 32
  addr8 : c.frameAddrBits ≤ 8
  data8 : c.regDataBits ≤ 8
  rw : c.frame.rw < c.cmdWordBits
  addr : c.frame.addrLo + c.frameAddrBits ≤ c.cmdWordBits
  data : c.frame.dataLo + c.regDataBits ≤ c.cmdWordBits
  rwAddr : c.frame.rw + 1 ≤ c.frame.addrLo ∨ c.frame.addrLo + c.frameAddrBits ≤ c.frame.rw
  rwData : c.frame.rw + 1 ≤ c.frame.dataLo ∨ c.frame.dataLo + c.regDataBits ≤ c.frame.rw
  addrData : c.frame.addrLo + c.frameAddrBits ≤ c.frame.dataLo ∨ c.frame.dataLo + c.regDataBits ≤ c.frame.addrLo

theorem frameLayout_of_admissible {c : Config} (h : c.admissible = true) : FrameLayout c := by
  simp only [Config.admissible, Config.frameAdmissible, Bool.and_eq_true, decide_eq_true_eq, apart_iff] at h
  obtain ⟨⟨⟨-, ⟨h1, h2⟩, h3⟩, -⟩, -⟩ := h
  exact ⟨h1.1, h1.2.1, h1.2.2, h2.1, h2.2.1, h2.2.2, h3.1.1, h3.1.2, h3.2⟩

/-- `dec(enc_write(a, v)) = Write(a, v)` (30_encoding.md R95), for every admissible layout. -/
theorem decFrame_encWrite (c : Config) (hc : c.admissible = true) (a : RegAddr) (v : Byte)
    (ha : a.toNat < 2 ^ c.frameAddrBits) (hv : v.toNat < 2 ^ c.regDataBits) :
    decFrame c (encWrite c a v) = .write a v := by
  have L := frameLayout_of_admissible hc
  have key : ∀ i, (c.frameWord (encWrite c a v)).getLsbD i =
      (decide (i < c.cmdWordBits) &&
        (decide (c.frame.addrLo ≤ i ∧ i < c.frame.addrLo + c.frameAddrBits) && a.getLsbD (i - c.frame.addrLo) ||
          decide (c.frame.dataLo ≤ i ∧ i < c.frame.dataLo + c.regDataBits) && v.getLsbD (i - c.frame.dataLo))) := by
    intro i
    have h1 := L.addr; have h2 := L.data; have h3 := L.word
    unfold encWrite
    rw [getLsbD_frameWord _ _ _ L.word, getLsbD_frameWord _ _ _ L.word, BitVec.getLsbD_or,
      getLsbD_fieldAt _ _ _ _ (by omega), getLsbD_fieldAt _ _ _ _ (by omega)]
    cases decide (i < c.cmdWordBits) <;> simp
  have hrw : (c.frameWord (encWrite c a v)).getLsbD c.frame.rw = false := by
    have h1 := L.rwAddr; have h2 := L.rwData
    rw [key]
    simp [show ¬ (c.frame.addrLo ≤ c.frame.rw ∧ c.frame.rw < c.frame.addrLo + c.frameAddrBits) by omega,
      show ¬ (c.frame.dataLo ≤ c.frame.rw ∧ c.frame.rw < c.frame.dataLo + c.regDataBits) by omega]
  unfold decFrame
  simp only [hrw]
  rw [fieldOf_eq _ a _ _ ha, fieldOf_eq _ v _ _ hv]
  · simp
  · intro i hi
    have h1 := L.addrData; have h2 := L.data
    rw [key]
    simp [show c.frame.dataLo + i < c.cmdWordBits by omega, hi,
      show ¬ (c.frame.addrLo ≤ c.frame.dataLo + i ∧ c.frame.dataLo + i < c.frame.addrLo + c.frameAddrBits) by omega]
  · intro i hi
    have h1 := L.addrData; have h2 := L.addr
    rw [key]
    simp [show c.frame.addrLo + i < c.cmdWordBits by omega, hi,
      show ¬ (c.frame.dataLo ≤ c.frame.addrLo + i ∧ c.frame.addrLo + i < c.frame.dataLo + c.regDataBits) by omega]

/-- `dec(enc_read(a)) = Read(a)` (30_encoding.md R95), for every admissible layout. -/
theorem decFrame_encRead (c : Config) (hc : c.admissible = true) (a : RegAddr) (ha : a.toNat < 2 ^ c.frameAddrBits) :
    decFrame c (encRead c a) = .read a := by
  have L := frameLayout_of_admissible hc
  have key : ∀ i, (c.frameWord (encRead c a)).getLsbD i =
      (decide (i < c.cmdWordBits) &&
        (decide (c.frame.rw ≤ i ∧ i < c.frame.rw + 1) && (1#8).getLsbD (i - c.frame.rw) ||
          decide (c.frame.addrLo ≤ i ∧ i < c.frame.addrLo + c.frameAddrBits) && a.getLsbD (i - c.frame.addrLo))) := by
    intro i
    have h1 := L.addr; have h2 := L.rw; have h3 := L.word
    unfold encRead
    rw [getLsbD_frameWord _ _ _ L.word, getLsbD_frameWord _ _ _ L.word, BitVec.getLsbD_or,
      getLsbD_fieldAt _ _ _ _ (by omega), getLsbD_fieldAt _ _ _ _ (by omega)]
    cases decide (i < c.cmdWordBits) <;> simp
  have hrw : (c.frameWord (encRead c a)).getLsbD c.frame.rw = true := by
    rw [key]
    simp [L.rw]
  unfold decFrame
  simp only [hrw]
  rw [fieldOf_eq _ a _ _ ha]
  · simp
  · intro i hi
    have h1 := L.rwAddr; have h2 := L.addr
    rw [key]
    simp [show c.frame.addrLo + i < c.cmdWordBits by omega, hi]
    intro h3 h4
    omega

/-- The data of a decoded write is a value of a register. -/
theorem decFrame_data_lt {c : Config} {w : Word} {a : RegAddr} {v : Byte} (h : decFrame c w = .write a v) :
    v.toNat < 2 ^ c.regDataBits := by
  unfold decFrame at h
  simp only at h
  split at h
  · cases h
  · cases h; exact fieldOf_lt _ _ _

/-! ## Register values -/

theorem getLsbD_regBits (c : Config) {n : Nat} (v : BitVec n) (i : Nat) (h : c.regDataBits ≤ 8) :
    (c.regBits v).getLsbD i = (decide (i < c.regDataBits) && v.getLsbD i) := by
  unfold Config.regBits
  simp only [BitVec.getLsbD_setWidth]
  by_cases h1 : i < c.regDataBits
  · simp [h1, show i < 8 by omega]
  · simp [h1]

theorem regBits_lt (c : Config) {n : Nat} (v : BitVec n) : (c.regBits v).toNat < 2 ^ c.regDataBits := by
  simp only [Config.regBits, BitVec.toNat_setWidth]
  exact lt_of_le_of_lt (Nat.mod_le _ _) (Nat.mod_lt _ (by positivity))

/-- A value of a register is kept whole. -/
theorem regBits_of_lt (c : Config) (v : Byte) (h : v.toNat < 2 ^ c.regDataBits) : c.regBits v = v := by
  apply BitVec.eq_of_toNat_eq
  simp only [Config.regBits, BitVec.toNat_setWidth, Nat.mod_eq_of_lt h]
  exact Nat.mod_eq_of_lt v.isLt

/-! ## Host operation words -/

theorem opField_hostWord (op a b c : Byte) : opField (hostWord op a b c) = op := by
  apply BitVec.eq_of_getLsbD_eq
  intro i hi
  simp only [opField, hostWord, BitVec.getLsbD_extractLsb', BitVec.getLsbD_append]
  simp [hi, show ¬ (24 + i < 8) by omega, show ¬ (24 + i - 8 < 8) by omega, show ¬ (24 + i - 8 - 8 < 8) by omega,
    show 24 + i - 8 - 8 - 8 = i by omega]

theorem highField_hostWord (op a b c : Byte) : highField (hostWord op a b c) = a := by
  apply BitVec.eq_of_getLsbD_eq
  intro i hi
  simp only [highField, hostWord, BitVec.getLsbD_extractLsb', BitVec.getLsbD_append]
  simp [hi, show ¬ (16 + i < 8) by omega, show ¬ (16 + i - 8 < 8) by omega, show 16 + i - 8 - 8 = i by omega]

theorem midField_hostWord (op a b c : Byte) : midField (hostWord op a b c) = b := by
  apply BitVec.eq_of_getLsbD_eq
  intro i hi
  simp only [midField, hostWord, BitVec.getLsbD_extractLsb', BitVec.getLsbD_append]
  simp [hi, show ¬ (8 + i < 8) by omega]

theorem lowField_hostWord (op a b c : Byte) : lowField (hostWord op a b c) = c := by
  apply BitVec.eq_of_getLsbD_eq
  intro i hi
  simp only [lowField, hostWord, BitVec.getLsbD_extractLsb', BitVec.getLsbD_append]
  simp [hi]

theorem opField_hostWordW (op a : Byte) (w : Half) : opField (hostWordW op a w) = op := by
  apply BitVec.eq_of_getLsbD_eq
  intro i hi
  simp only [opField, hostWordW, BitVec.getLsbD_extractLsb', BitVec.getLsbD_append]
  simp [hi, show ¬ (24 + i < 16) by omega, show ¬ (24 + i - 16 < 8) by omega, show 24 + i - 16 - 8 = i by omega]

theorem highField_hostWordW (op a : Byte) (w : Half) : highField (hostWordW op a w) = a := by
  apply BitVec.eq_of_getLsbD_eq
  intro i hi
  simp only [highField, hostWordW, BitVec.getLsbD_extractLsb', BitVec.getLsbD_append]
  simp [hi, show ¬ (16 + i < 16) by omega]

theorem halfField_hostWordW (op a : Byte) (w : Half) : halfField (hostWordW op a w) = w := by
  apply BitVec.eq_of_getLsbD_eq
  intro i hi
  simp only [halfField, hostWordW, BitVec.getLsbD_extractLsb', BitVec.getLsbD_append]
  simp [hi]

theorem halfField_sampleExtension (s : Half) : halfField (sampleExtension s) = s := by
  apply BitVec.eq_of_getLsbD_eq
  intro i hi
  simp only [halfField, sampleExtension, BitVec.getLsbD_extractLsb', BitVec.getLsbD_append]
  simp [hi]

theorem high_sampleExtension (s : Half) : (sampleExtension s).extractLsb' 16 16 = 0#16 := by
  apply BitVec.eq_of_getLsbD_eq
  intro i hi
  simp only [sampleExtension, BitVec.getLsbD_extractLsb', BitVec.getLsbD_append]
  simp [show ¬ (16 + i < 16) by omega]

/-- A word is its four bytes. -/
theorem hostWord_fields (w : Word) : hostWord (opField w) (highField w) (midField w) (lowField w) = w := by
  apply BitVec.eq_of_getLsbD_eq
  intro i hi
  simp only [opField, highField, midField, lowField, hostWord, BitVec.getLsbD_extractLsb', BitVec.getLsbD_append]
  by_cases h1 : i < 8
  · simp [h1]
  · by_cases h2 : i - 8 < 8
    · simp [h1, h2, show 8 + (i - 8) = i by omega]
    · by_cases h3 : i - 8 - 8 < 8
      · simp [h1, h2, h3, show 16 + (i - 8 - 8) = i by omega]
      · simp [h1, h2, h3, show i - 8 - 8 - 8 < 8 by omega, show 24 + (i - 8 - 8 - 8) = i by omega]

/-- A word is its two bytes and its low half. -/
theorem hostWordW_fields (w : Word) : hostWordW (opField w) (highField w) (halfField w) = w := by
  apply BitVec.eq_of_getLsbD_eq
  intro i hi
  simp only [opField, highField, halfField, hostWordW, BitVec.getLsbD_extractLsb', BitVec.getLsbD_append]
  by_cases h1 : i < 16
  · simp [h1]
  · by_cases h2 : i - 16 < 8
    · simp [h1, h2, show 16 + (i - 16) = i by omega]
    · simp [h1, h2, show i - 16 - 8 < 8 by omega, show 24 + (i - 16 - 8) = i by omega]

/-- A word whose high half is zero is the extension word of its low half. -/
theorem sampleExtension_fields (w : Word) (h : w.extractLsb' 16 16 = 0#16) : sampleExtension (halfField w) = w := by
  apply BitVec.eq_of_getLsbD_eq
  intro i hi
  simp only [halfField, sampleExtension, BitVec.getLsbD_extractLsb', BitVec.getLsbD_append]
  by_cases h1 : i < 16
  · simp [h1]
  · have h2 := congrArg (fun x : BitVec 16 => x.getLsbD (i - 16)) h
    simp only [BitVec.getLsbD_extractLsb', show i - 16 < 16 by omega, decide_true, Bool.true_and,
      show 16 + (i - 16) = i by omega] at h2
    simp [h1, h2]

end Sys2Proof
end

