-- ==== Sys2Proof/Laws/Memory.lean ====
section
/-! SUPPORT. The laws of the two address spaces: a read after a write gives the value written, a write leaves every other
address alone, and every write keeps the canonical form. -/

namespace Sys2Proof.Machine

variable {α : Type}

/-! ## One cell -/

theorem cellAt_put (m : List (Nat × α)) (a x : Nat) (v : α) :
    cellAt (cellPut a v m) x = if x = a then some v else cellAt m x := by
  induction m with
  | nil => simp [cellPut, cellAt]
  | cons c m ih =>
    obtain ⟨b, w⟩ := c
    by_cases h1 : a < b
    · simp [cellPut, cellAt, h1]
    · by_cases h2 : a = b
      · subst h2
        by_cases hx : x = a <;> simp [cellPut, cellAt, hx]
      · by_cases hx : x = b
        · subst hx
          simp [cellPut, cellAt, h1, h2, Ne.symm h2]
        · simp [cellPut, cellAt, h1, h2, hx, ih]

theorem cellAt_of_risingFrom (m : List (Nat × α)) (lo x : Nat) (h : risingFrom lo m = true) (hx : x ≤ lo) :
    cellAt m x = none := by
  induction m generalizing lo with
  | nil => rfl
  | cons c m ih =>
    obtain ⟨b, w⟩ := c
    simp only [risingFrom, Bool.and_eq_true, decide_eq_true_eq] at h
    have : x ≠ b := by omega
    simp only [cellAt, this, if_false]
    exact ih b h.2 (by omega)

theorem risingFrom_mono (m : List (Nat × α)) {lo lo' : Nat} (h : risingFrom lo m = true) (hl : lo' ≤ lo) :
    risingFrom lo' m = true := by
  cases m with
  | nil => rfl
  | cons c m =>
    obtain ⟨b, w⟩ := c
    simp only [risingFrom, Bool.and_eq_true, decide_eq_true_eq] at h ⊢
    exact ⟨by omega, h.2⟩

theorem rising_of_risingFrom (m : List (Nat × α)) {lo : Nat} (h : risingFrom lo m = true) : rising m = true := by
  cases m with
  | nil => rfl
  | cons c m =>
    obtain ⟨b, w⟩ := c
    simp only [risingFrom, Bool.and_eq_true] at h
    exact h.2

theorem cellAt_drop (m : List (Nat × α)) (a x : Nat) (h : rising m = true) :
    cellAt (cellDrop a m) x = if x = a then none else cellAt m x := by
  induction m with
  | nil => simp [cellDrop, cellAt]
  | cons c m ih =>
    obtain ⟨b, w⟩ := c
    by_cases h2 : a = b
    · subst h2
      by_cases hx : x = a
      · subst hx
        simpa [cellDrop] using cellAt_of_risingFrom m x x h (le_refl x)
      · simp [cellDrop, cellAt, hx]
    · have ih' := ih (rising_of_risingFrom m h)
      by_cases hx : x = b
      · subst hx
        simp [cellDrop, cellAt, h2, Ne.symm h2]
      · simp [cellDrop, cellAt, h2, hx, ih']

theorem risingFrom_put (m : List (Nat × α)) (lo a : Nat) (v : α) (h : risingFrom lo m = true) (ha : lo < a) :
    risingFrom lo (cellPut a v m) = true := by
  induction m generalizing lo with
  | nil => simp [cellPut, risingFrom, ha]
  | cons c m ih =>
    obtain ⟨b, w⟩ := c
    simp only [risingFrom, Bool.and_eq_true, decide_eq_true_eq] at h
    by_cases h1 : a < b
    · simp [cellPut, risingFrom, h1, ha, h.2]
    · by_cases h2 : a = b
      · subst h2
        simp [cellPut, risingFrom, ha, h.2]
      · simp [cellPut, risingFrom, h1, h2, h.1, ih b h.2 (by omega)]

theorem rising_put (m : List (Nat × α)) (a : Nat) (v : α) (h : rising m = true) : rising (cellPut a v m) = true := by
  cases m with
  | nil => rfl
  | cons c m =>
    obtain ⟨b, w⟩ := c
    by_cases h1 : a < b
    · simp only [cellPut, h1, if_true, rising, risingFrom, decide_true, Bool.true_and]
      exact h
    · by_cases h2 : a = b
      · subst h2
        simpa [cellPut, rising] using h
      · simp only [cellPut, h1, h2, if_false, rising]
        exact risingFrom_put m b a v h (by omega)

theorem risingFrom_drop (m : List (Nat × α)) (lo a : Nat) (h : risingFrom lo m = true) :
    risingFrom lo (cellDrop a m) = true := by
  induction m generalizing lo with
  | nil => rfl
  | cons c m ih =>
    obtain ⟨b, w⟩ := c
    simp only [risingFrom, Bool.and_eq_true, decide_eq_true_eq] at h
    by_cases h2 : a = b
    · simp only [cellDrop, h2, if_true]
      exact risingFrom_mono m h.2 (by omega)
    · simp [cellDrop, h2, risingFrom, h.1, ih b h.2]

theorem rising_drop (m : List (Nat × α)) (a : Nat) (h : rising m = true) : rising (cellDrop a m) = true := by
  cases m with
  | nil => rfl
  | cons c m =>
    obtain ⟨b, w⟩ := c
    by_cases h2 : a = b
    · simp only [cellDrop, h2, if_true]
      exact rising_of_risingFrom m h
    · simp only [cellDrop, h2, if_false, rising]
      exact risingFrom_drop m b a h

theorem mem_cellPut {m : List (Nat × α)} {a : Nat} {v : α} {c : Nat × α} (h : c ∈ cellPut a v m) :
    c = (a, v) ∨ c ∈ m := by
  induction m with
  | nil => simpa [cellPut] using h
  | cons d m ih =>
    obtain ⟨b, w⟩ := d
    by_cases h1 : a < b
    · simpa [cellPut, h1] using h
    · by_cases h2 : a = b
      · subst h2
        simp only [cellPut, h1, if_false, if_true, List.mem_cons] at h
        rcases h with h | h
        · exact .inl h
        · exact .inr (by simp [h])
      · simp only [cellPut, h1, h2, if_false, List.mem_cons] at h
        rcases h with h | h
        · exact .inr (by simp [h])
        · rcases ih h with h | h
          · exact .inl h
          · exact .inr (by simp [h])

theorem mem_cellDrop {m : List (Nat × α)} {a : Nat} {c : Nat × α} (h : c ∈ cellDrop a m) : c ∈ m := by
  induction m with
  | nil => simp [cellDrop] at h
  | cons d m ih =>
    obtain ⟨b, w⟩ := d
    by_cases h2 : a = b
    · simp only [cellDrop, h2, if_true] at h
      exact List.mem_cons_of_mem _ h
    · simp only [cellDrop, h2, if_false, List.mem_cons] at h
      rcases h with h | h
      · simp [h]
      · exact List.mem_cons_of_mem _ (ih h)

/-! ## The register space -/

theorem Memory.wf_rising {c : Config} {m : List Host.Cell} (h : Memory.wf c m = true) : rising m = true := by
  simp only [Memory.wf, Bool.and_eq_true] at h
  exact h.1

/-- The one law of a register write: the address written reads the value, every other address reads as before. -/
theorem shadowGet_put {c : Config} (m : List Host.Cell) (a x : Nat) (v : Byte) (h : Memory.wf c m = true) :
    shadowGet (shadowPut m a v) x = if x = a then v else shadowGet m x := by
  unfold shadowPut shadowGet
  by_cases hv : v = 0
  · simp only [hv, if_true]
    rw [cellAt_drop m a x (Memory.wf_rising h)]
    by_cases hx : x = a <;> simp [hx]
  · simp only [hv, if_false, cellAt_put]
    by_cases hx : x = a <;> simp [hx]

/-- Every register write keeps the canonical form. -/
theorem Memory.wf_put {c : Config} (m : List Host.Cell) (a : Nat) (v : Byte) (h : Memory.wf c m = true)
    (ha : a < Config.regCount) (hv : v.toNat < 2 ^ c.regDataBits) : Memory.wf c (shadowPut m a v) = true := by
  have hr := Memory.wf_rising h
  simp only [Memory.wf, Bool.and_eq_true, List.all_eq_true, decide_eq_true_eq] at h ⊢
  unfold shadowPut
  by_cases h0 : v = 0
  · simp only [h0, if_true]
    exact ⟨rising_drop m a hr, fun e he => h.2 e (mem_cellDrop he)⟩
  · simp only [h0, if_false]
    refine ⟨rising_put m a v hr, fun e he => ?_⟩
    rcases mem_cellPut he with rfl | he
    · exact ⟨⟨ha, h0⟩, hv⟩
    · exact h.2 e he

/-- What an entry reads as stands in the list. -/
theorem mem_of_cellAt {α : Type} {m : List (Nat × α)} {a : Nat} {v : α} (h : cellAt m a = some v) : (a, v) ∈ m := by
  induction m with
  | nil => cases h
  | cons e m ih =>
    obtain ⟨b, w⟩ := e
    by_cases hb : a = b
    · simp only [cellAt, hb, if_true, Option.some.injEq] at h
      simp [hb, h]
    · simp only [cellAt, hb, if_false] at h
      exact List.mem_cons_of_mem _ (ih h)

/-- Every register reads as a value of `REG_DATA_BITS` bits. -/
theorem shadowGet_lt {c : Config} {m : List Host.Cell} (h : Memory.wf c m = true) (a : Nat) :
    (shadowGet m a).toNat < 2 ^ c.regDataBits := by
  simp only [Memory.wf, Bool.and_eq_true, List.all_eq_true, decide_eq_true_eq] at h
  unfold shadowGet
  cases hc : cellAt m a with
  | none => simp
  | some v => exact (h.2 _ (mem_of_cellAt hc)).2

/-! ## The sample-buffer space -/

theorem sampleAt_cellPut (m : List (Nat × Half)) (a x : Nat) (v : Half) :
    sampleAt (cellPut a v m) x = if x = a then some v else sampleAt m x :=
  cellAt_put m a x v

/-- The one law of a sample store: the addresses written read the samples, every other address reads as before. -/
theorem sampleAt_put (vs : List Half) (a x : Nat) (m : List (Nat × Half)) :
    sampleAt (samplesPut a vs m) x = if a ≤ x ∧ x < a + vs.length then vs[x - a]? else sampleAt m x := by
  induction vs generalizing a m with
  | nil =>
    rw [if_neg (by simp)]
    rfl
  | cons v vs ih =>
    rw [samplesPut, ih, sampleAt_cellPut, List.length_cons]
    by_cases h1 : a + 1 ≤ x ∧ x < a + 1 + vs.length
    · rw [if_pos h1, if_pos (by omega), show x - a = (x - (a + 1)) + 1 by omega, List.getElem?_cons_succ]
    · rw [if_neg h1]
      by_cases h2 : x = a
      · rw [if_pos h2, if_pos (by omega), h2, Nat.sub_self, List.getElem?_cons_zero]
      · rw [if_neg h2, if_neg (by omega)]

/-- Every sample store keeps the canonical form. -/
theorem SampleMemory.wf_put {c : Config} (vs : List Half) (a : Nat) (m : List (Nat × Half))
    (h : SampleMemory.wf c m = true) (hv : ∀ v ∈ vs, v.toNat < 2 ^ c.sampleBits) :
    SampleMemory.wf c (samplesPut a vs m) = true := by
  induction vs generalizing a m with
  | nil => exact h
  | cons v vs ih =>
    refine ih (a + 1) _ ?_ fun x hx => hv x (List.mem_cons_of_mem _ hx)
    simp only [SampleMemory.wf, Bool.and_eq_true, List.all_eq_true, decide_eq_true_eq] at h ⊢
    refine ⟨rising_put m a v h.1, fun e he => ?_⟩
    rcases mem_cellPut he with rfl | he
    · exact hv _ (by simp)
    · exact h.2 e he

/-- A stored sample fits, and so fits its container where the container is wide enough for one (00_scope.md R8). -/
theorem sampleAt_lt {c : Config} {m : List (Nat × Half)} {a : Nat} {v : Half} (h : SampleMemory.wf c m = true)
    (hv : sampleAt m a = some v) : v.toNat < 2 ^ c.sampleBits := by
  simp only [SampleMemory.wf, Bool.and_eq_true, List.all_eq_true, decide_eq_true_eq] at h
  exact h.2 _ (mem_of_cellAt hv)

theorem sampleAt_lt_container {c : Config} {m : List (Nat × Half)} {a : Nat} {v : Half} (h : SampleMemory.wf c m = true)
    (hc : c.sampleBits ≤ c.sampleContainerBits) (hv : sampleAt m a = some v) : v.toNat < 2 ^ c.sampleContainerBits :=
  lt_of_lt_of_le (sampleAt_lt h hv) (Nat.pow_le_pow_right (by omega) hc)

/-- Reading one entry is reading the cell. -/
theorem samplesFrom_one (m : List (Nat × Half)) (a : Nat) :
    samplesFrom m a 1 = (sampleAt m a).map fun v => [v] := by
  simp only [samplesFrom]
  cases sampleAt m a <;> rfl

end Sys2Proof.Machine
end

