-- ==== Sys2Proof/Laws/State.lean ====
section
/-! SUPPORT. One lemma per field of State for each update that every meaning is written over: what `State.reply`,
`State.raise`, `State.refuse` and `State.driveModeSel` leave in each field. -/

namespace Sys2Proof.Machine

variable (s : State)

/-! ## After returning a result -/

@[simp] theorem State.reply_cfg (st : Status) (v : Value) : (s.reply st v).cfg = s.cfg := rfl
@[simp] theorem State.reply_bus (st : Status) (v : Value) : (s.reply st v).bus = s.bus := rfl
@[simp] theorem State.reply_shadow (st : Status) (v : Value) : (s.reply st v).shadow = s.shadow := rfl
@[simp] theorem State.reply_modeSel (st : Status) (v : Value) : (s.reply st v).modeSel = s.modeSel := rfl
@[simp] theorem State.reply_flags (st : Status) (v : Value) : (s.reply st v).flags = s.flags := rfl
@[simp] theorem State.reply_afe (st : Status) (v : Value) : (s.reply st v).afe = s.afe := rfl
@[simp] theorem State.reply_sch (st : Status) (v : Value) : (s.reply st v).sch = s.sch := rfl
@[simp] theorem State.reply_buf (st : Status) (v : Value) : (s.reply st v).buf = s.buf := rfl
@[simp] theorem State.reply_busLog (st : Status) (v : Value) : (s.reply st v).busLog = s.busLog := rfl
@[simp] theorem State.reply_cbLog (st : Status) (v : Value) : (s.reply st v).cbLog = s.cbLog := rfl
@[simp] theorem State.reply_results (st : Status) (v : Value) : (s.reply st v).results = s.results ++ [{ status := st, value := v }] := rfl
@[simp] theorem State.reply_fillCount (st : Status) (v : Value) : (s.reply st v).fillCount = s.fillCount := rfl
@[simp] theorem State.reply_fault (st : Status) (v : Value) : (s.reply st v).fault = s.fault := rfl
@[simp] theorem State.reply_runVoid (st : Status) (v : Value) : (s.reply st v).runVoid = s.runVoid := rfl
@[simp] theorem State.reply_wait (st : Status) (v : Value) : (s.reply st v).wait = s.wait := rfl
@[simp] theorem State.reply_port (st : Status) (v : Value) : (s.reply st v).port = s.port := rfl
@[simp] theorem State.reply_line (st : Status) (v : Value) : (s.reply st v).line = s.line := rfl
@[simp] theorem State.reply_turns (st : Status) (v : Value) : (s.reply st v).turns = s.turns := rfl
@[simp] theorem State.reply_ticks (st : Status) (v : Value) : (s.reply st v).ticks = s.ticks := rfl
@[simp] theorem State.reply_env (st : Status) (v : Value) : (s.reply st v).env = s.env := rfl

/-! ## After raising a fault -/

@[simp] theorem State.raise_cfg (f : Fault) : (s.raise f).cfg = s.cfg := rfl
@[simp] theorem State.raise_bus (f : Fault) : (s.raise f).bus = s.bus := rfl
@[simp] theorem State.raise_shadow (f : Fault) : (s.raise f).shadow = s.shadow := rfl
@[simp] theorem State.raise_modeSel (f : Fault) : (s.raise f).modeSel = s.modeSel := rfl
@[simp] theorem State.raise_flags (f : Fault) : (s.raise f).flags = s.flags := rfl
@[simp] theorem State.raise_afe (f : Fault) : (s.raise f).afe = s.afe := rfl
@[simp] theorem State.raise_sch (f : Fault) : (s.raise f).sch = s.sch := rfl
@[simp] theorem State.raise_buf (f : Fault) : (s.raise f).buf = s.buf := rfl
@[simp] theorem State.raise_busLog (f : Fault) : (s.raise f).busLog = s.busLog := rfl
@[simp] theorem State.raise_cbLog (f : Fault) : (s.raise f).cbLog = s.cbLog := rfl
@[simp] theorem State.raise_results (f : Fault) : (s.raise f).results = s.results := rfl
@[simp] theorem State.raise_fillCount (f : Fault) : (s.raise f).fillCount = s.fillCount := rfl
@[simp] theorem State.raise_fault (f : Fault) : (s.raise f).fault = some f := rfl
@[simp] theorem State.raise_runVoid (f : Fault) : (s.raise f).runVoid = s.runVoid := rfl
@[simp] theorem State.raise_wait (f : Fault) : (s.raise f).wait = s.wait := rfl
@[simp] theorem State.raise_port (f : Fault) : (s.raise f).port = s.port := rfl
@[simp] theorem State.raise_line (f : Fault) : (s.raise f).line = s.line := rfl
@[simp] theorem State.raise_turns (f : Fault) : (s.raise f).turns = s.turns := rfl
@[simp] theorem State.raise_ticks (f : Fault) : (s.raise f).ticks = s.ticks := rfl
@[simp] theorem State.raise_env (f : Fault) : (s.raise f).env = s.env := rfl

/-! ## After refusing a request -/

@[simp] theorem State.refuse_cfg : s.refuse.cfg = s.cfg := rfl
@[simp] theorem State.refuse_bus : s.refuse.bus = s.bus := rfl
@[simp] theorem State.refuse_shadow : s.refuse.shadow = s.shadow := rfl
@[simp] theorem State.refuse_modeSel : s.refuse.modeSel = s.modeSel := rfl
@[simp] theorem State.refuse_flags : s.refuse.flags = s.flags := rfl
@[simp] theorem State.refuse_afe : s.refuse.afe = s.afe := rfl
@[simp] theorem State.refuse_sch : s.refuse.sch = s.sch := rfl
@[simp] theorem State.refuse_buf : s.refuse.buf = s.buf := rfl
@[simp] theorem State.refuse_busLog : s.refuse.busLog = s.busLog := rfl
@[simp] theorem State.refuse_cbLog : s.refuse.cbLog = s.cbLog := rfl
@[simp] theorem State.refuse_results : s.refuse.results = s.results ++ [{ status := .eRefused, value := .none }] := rfl
@[simp] theorem State.refuse_fillCount : s.refuse.fillCount = s.fillCount := rfl
@[simp] theorem State.refuse_fault : s.refuse.fault = s.fault := rfl
@[simp] theorem State.refuse_runVoid : s.refuse.runVoid = true := rfl
@[simp] theorem State.refuse_wait : s.refuse.wait = s.wait := rfl
@[simp] theorem State.refuse_port : s.refuse.port = s.port := rfl
@[simp] theorem State.refuse_line : s.refuse.line = s.line := rfl
@[simp] theorem State.refuse_turns : s.refuse.turns = s.turns := rfl
@[simp] theorem State.refuse_ticks : s.refuse.ticks = s.ticks := rfl
@[simp] theorem State.refuse_env : s.refuse.env = s.env := rfl

/-! ## After driving the mode-select pin -/

@[simp] theorem State.driveModeSel_cfg (b : Bool) : (s.driveModeSel b).cfg = s.cfg := rfl
@[simp] theorem State.driveModeSel_bus (b : Bool) : (s.driveModeSel b).bus = s.bus := rfl
@[simp] theorem State.driveModeSel_shadow (b : Bool) : (s.driveModeSel b).shadow = s.shadow := rfl
@[simp] theorem State.driveModeSel_modeSel (b : Bool) : (s.driveModeSel b).modeSel = b := rfl
@[simp] theorem State.driveModeSel_flags (b : Bool) : (s.driveModeSel b).flags = s.flags := rfl
@[simp] theorem State.driveModeSel_afe (b : Bool) : (s.driveModeSel b).afe = s.afe := rfl
@[simp] theorem State.driveModeSel_sch (b : Bool) : (s.driveModeSel b).sch = s.sch := rfl
@[simp] theorem State.driveModeSel_buf (b : Bool) : (s.driveModeSel b).buf = s.buf := rfl
@[simp] theorem State.driveModeSel_busLog (b : Bool) : (s.driveModeSel b).busLog = s.busLog ++ [.modeSel b] := rfl
@[simp] theorem State.driveModeSel_cbLog (b : Bool) : (s.driveModeSel b).cbLog = s.cbLog := rfl
@[simp] theorem State.driveModeSel_results (b : Bool) : (s.driveModeSel b).results = s.results := rfl
@[simp] theorem State.driveModeSel_fillCount (b : Bool) : (s.driveModeSel b).fillCount = s.fillCount := rfl
@[simp] theorem State.driveModeSel_fault (b : Bool) : (s.driveModeSel b).fault = s.fault := rfl
@[simp] theorem State.driveModeSel_runVoid (b : Bool) : (s.driveModeSel b).runVoid = s.runVoid := rfl
@[simp] theorem State.driveModeSel_wait (b : Bool) : (s.driveModeSel b).wait = s.wait := rfl
@[simp] theorem State.driveModeSel_port (b : Bool) : (s.driveModeSel b).port = s.port := rfl
@[simp] theorem State.driveModeSel_line (b : Bool) : (s.driveModeSel b).line = s.line := rfl
@[simp] theorem State.driveModeSel_turns (b : Bool) : (s.driveModeSel b).turns = s.turns := rfl
@[simp] theorem State.driveModeSel_ticks (b : Bool) : (s.driveModeSel b).ticks = s.ticks := rfl
@[simp] theorem State.driveModeSel_env (b : Bool) : (s.driveModeSel b).env = s.env := rfl

end Sys2Proof.Machine
end

