-- ==== Sys2Proof/Laws/Ops.lean ====
section
/-! SUPPORT. For each shared operation one lemma that says once everything it can do. A proof about an instruction cites these
instead of unfolding the operation. -/

namespace Sys2Proof.Machine

/-! ## Checks: what holds of both ways out holds of the check -/

theorem requireStatus_ind {P : State → Prop} {s k : State} {c : Prop} [Decidable c] {e : Status}
    (hno : ¬ c → P (s.reply e)) (hyes : c → P k) : P (s.requireStatus c e k) := by
  unfold State.requireStatus
  split
  · exact hyes ‹_›
  · exact hno ‹_›

theorem requireFault_ind {P : State → Prop} {s k : State} {c : Prop} [Decidable c] {f : Fault}
    (hno : ¬ c → P (s.raise f)) (hyes : c → P k) : P (s.requireFault c f k) := by
  unfold State.requireFault
  split
  · exact hyes ‹_›
  · exact hno ‹_›

theorem proceed_ind {α : Type} {P : State → Prop} {r : Except State α} {k : α → State}
    (herr : ∀ t, r = .error t → P t) (hok : ∀ x, r = .ok x → P (k x)) : P (proceed r k) := by
  unfold proceed
  split
  · exact herr _ rfl
  · exact hok _ rfl

theorem requireStatus_pos {s k : State} {c : Prop} [Decidable c] {e : Status} (h : c) : s.requireStatus c e k = k := if_pos h

theorem requireStatus_neg {s k : State} {c : Prop} [Decidable c] {e : Status} (h : ¬ c) :
    s.requireStatus c e k = s.reply e := if_neg h

theorem requireFault_pos {s k : State} {c : Prop} [Decidable c] {f : Fault} (h : c) : s.requireFault c f k = k := if_pos h

theorem requireFault_neg {s k : State} {c : Prop} [Decidable c] {f : Fault} (h : ¬ c) :
    s.requireFault c f k = s.raise f := if_neg h

@[simp] theorem proceed_ok {α : Type} (x : α) (k : α → State) : proceed (.ok x) k = k x := rfl
@[simp] theorem proceed_error {α : Type} (t : State) (k : α → State) : proceed (.error t) k = t := rfl

theorem buffers_cases (v : Variant) : v.buffers = 1 ∨ v.buffers = 2 := by cases v <;> decide

theorem busBusy_iff (s : State) : s.busBusy = true ↔ s.sch.life = .running ∧ s.schN = 2 := decide_eq_true_iff

/-! ## Frames at the point of transfer in EMU -/

/-- `a` is an address a frame can carry, on a machine whose parameters are admissible. -/
structure Carries (c : Config) (a : RegAddr) : Prop where
  adm : c.admissible = true
  addr : a.toNat < 2 ^ c.frameAddrBits

theorem frameWrite_enc {c : Config} {a : RegAddr} (h : Carries c a) (m : List Host.Cell) (v : Byte)
    (hv : v.toNat < 2 ^ c.regDataBits) : frameWrite c m (encWrite c a v) = shadowPut m a.toNat v := by
  unfold frameWrite
  rw [decFrame_encWrite c h.adm a v h.addr hv]

theorem frameRead_enc {c : Config} {a : RegAddr} (h : Carries c a) (m : List Host.Cell) :
    frameRead c m (encRead c a) = shadowGet m a.toNat := by
  unfold frameRead
  rw [decFrame_encRead c h.adm a h.addr]

/-- Whatever a frame is, it keeps the register file in canonical form. -/
theorem wf_frameWrite {c : Config} (m : List Host.Cell) (f : Word) (h : Memory.wf c m = true) :
    Memory.wf c (frameWrite c m f) = true := by
  unfold frameWrite
  split
  · rename_i a v hd
    exact Memory.wf_put m a.toNat v h (by have := a.isLt; unfold Config.regCount; omega) (decFrame_data_lt hd)
  · exact h

/-- The five registers stand at addresses a frame can carry. -/
theorem carries_of_admissible {c : Config} (h : c.admissible = true) :
    Carries c c.aEnable1 ∧ Carries c c.aGain ∧ Carries c c.aEnable2 ∧ Carries c c.aControl1 ∧ Carries c c.aRevision := by
  have hc := h
  simp only [Config.admissible, Config.addressesAdmissible, Bool.and_eq_true, decide_eq_true_eq] at h
  obtain ⟨-, ⟨h1, h2, h3, h4, h5, -⟩, -⟩ := h
  exact ⟨⟨hc, h1⟩, ⟨hc, h2⟩, ⟨hc, h3⟩, ⟨hc, h4⟩, ⟨hc, h5⟩⟩

/-! ## Draws change nothing but the answers still to come -/

theorem drawResource_fst (s : State) : s.drawResource.1 = { s with env := s.drawResource.1.env } := by
  unfold State.drawResource
  split <;> rfl

theorem drawReceived_fst (s : State) : s.drawReceived.1 = { s with env := s.drawReceived.1.env } := by
  unfold State.drawReceived
  split <;> rfl

theorem drawResource_listed (s : State) {b : Bool} {bs : List Bool} (h : s.env.resources = b :: bs) :
    s.drawResource = ({ s with env.resources := bs }, b) := by
  unfold State.drawResource
  split
  · simp_all
  · simp_all

theorem drawReceived_listed (s : State) {w : Word} {ws : List Word} (h : s.env.received = w :: ws) :
    s.drawReceived = ({ s with env.received := ws }, w) := by
  unfold State.drawReceived
  split
  · simp_all
  · simp_all

/-! ## Register transactions -/

/-- Everything a register write does. -/
theorem writeReg_eq (s : State) (a : RegAddr) (v : Byte) :
    s.writeReg a v =
      { s with
        shadow := if s.bus.emul then frameWrite s.cfg s.shadow (encWrite s.cfg a v) else s.shadow
        busLog := s.busLog ++ [.cmdWr a v] } := by
  unfold State.writeReg State.transferWrite
  cases s.bus.emul <;> simp

/-- A register write in EMU to an address a frame can carry. -/
theorem writeReg_emul (s : State) (a : RegAddr) (v : Byte) (h : s.bus.emul = true) (hr : Carries s.cfg a)
    (hv : v.toNat < 2 ^ s.cfg.regDataBits) :
    s.writeReg a v = { s with shadow := shadowPut s.shadow a.toNat v, busLog := s.busLog ++ [.cmdWr a v] } := by
  rw [writeReg_eq, frameWrite_enc hr _ _ hv, h]
  simp

/-- Everything a register read does in EMU. -/
theorem readReg_emul' (s : State) (a : RegAddr) (h : s.bus.emul = true) :
    s.readReg a =
      ({ s with busLog := s.busLog ++ [.cmdRd a (frameRead s.cfg s.shadow (encRead s.cfg a))] },
        frameRead s.cfg s.shadow (encRead s.cfg a)) := by
  simp [State.readReg, State.transferRead, h]

/-- A register read in EMU of an address a frame can carry. -/
theorem readReg_emul (s : State) (a : RegAddr) (h : s.bus.emul = true) (hr : Carries s.cfg a) :
    s.readReg a =
      ({ s with busLog := s.busLog ++ [.cmdRd a (shadowGet s.shadow a.toNat)] }, shadowGet s.shadow a.toNat) := by
  rw [readReg_emul' s a h, frameRead_enc hr]

/-- Everything a register read does in PHYS. -/
theorem readReg_phys (s : State) (a : RegAddr) (h : s.bus.emul = false) :
    s.readReg a =
      ({ s with
          env := s.drawReceived.1.env
          busLog := s.busLog ++ [.cmdRd a (s.cfg.regBits s.drawReceived.2)] },
        s.cfg.regBits s.drawReceived.2) := by
  have hr :
      s.readReg a =
        ({ s.drawReceived.1 with busLog := s.drawReceived.1.busLog ++ [.cmdRd a (s.cfg.regBits s.drawReceived.2)] },
          s.cfg.regBits s.drawReceived.2) := by
    simp [State.readReg, State.transferRead, h]
  rw [hr]
  have hd := drawReceived_fst s
  generalize s.drawReceived.1 = d at *
  generalize d.env = e at *
  subst hd
  rfl

/-- What a register read leaves, in EMU and in PHYS. -/
theorem readReg_fst (s : State) (a : RegAddr) :
    (s.readReg a).1 =
      { s with env := (s.readReg a).1.env, busLog := s.busLog ++ [.cmdRd a (s.readReg a).2] } := by
  cases h : s.bus.emul
  · rw [readReg_phys s a h]
  · rw [readReg_emul' s a h]

/-- `t` is `s` after bus traffic: the shadow file, the answers still to come and the bus history are all that may differ. -/
def State.afterBus (s : State) (sh : List Host.Cell) (env : Env) (log : List BusEvent) : State :=
  { s with shadow := sh, env := env, busLog := s.busLog ++ log }

/-- A register write and then a read of the same register. -/
theorem readReg_writeReg_fst (s : State) (a : RegAddr) (v : Byte) :
    ((s.writeReg a v).readReg a).1 =
      s.afterBus (if s.bus.emul then frameWrite s.cfg s.shadow (encWrite s.cfg a v) else s.shadow) ((s.writeReg a v).readReg a).1.env
        [.cmdWr a v, .cmdRd a ((s.writeReg a v).readReg a).2] := by
  have hw := writeReg_eq s a v
  generalize s.writeReg a v = w at hw ⊢
  rw [readReg_fst w a]
  generalize (w.readReg a).1.env = e
  generalize (w.readReg a).2 = x
  rw [hw]
  simp [State.afterBus]

/-- Everything WriteVerify can do: two events, and either the readback agreed or F_INTEGRITY is raised. -/
theorem writeVerify_cases (s : State) (a : RegAddr) (v : Byte) :
    ∃ env r t,
      t = s.afterBus (if s.bus.emul then frameWrite s.cfg s.shadow (encWrite s.cfg a v) else s.shadow) env [.cmdWr a v, .cmdRd a r] ∧
        ((r = v ∧ s.writeVerify a v = .ok t) ∨ (r ≠ v ∧ s.writeVerify a v = .error (t.raise .integrity))) := by
  refine ⟨_, _, _, readReg_writeReg_fst s a v, ?_⟩
  unfold State.writeVerify
  by_cases hr : ((s.writeReg a v).readReg a).2 = v
  · exact .inl ⟨hr, by rw [if_pos hr]⟩
  · exact .inr ⟨hr, by rw [if_neg hr]⟩

/-- Everything MaskedUpdate can do: three events, and either the masked bits of the readback agreed or F_INTEGRITY is raised. -/
theorem maskedUpdate_cases (s : State) (a : RegAddr) (mask val : Byte) :
    ∃ env old new r t,
      old = (s.readReg a).2 ∧ new = (old &&& ~~~mask) ||| val ∧
        t = s.afterBus (if s.bus.emul then frameWrite s.cfg s.shadow (encWrite s.cfg a new) else s.shadow) env
          [.cmdRd a old, .cmdWr a new, .cmdRd a r] ∧
        ((r &&& mask = val ∧ s.maskedUpdate a mask val = .ok t) ∨
          (r &&& mask ≠ val ∧ s.maskedUpdate a mask val = .error (t.raise .integrity))) := by
  refine ⟨(((s.readReg a).1.writeReg a (((s.readReg a).2 &&& ~~~mask) ||| val)).readReg a).1.env, _, _,
    (((s.readReg a).1.writeReg a (((s.readReg a).2 &&& ~~~mask) ||| val)).readReg a).2,
    (((s.readReg a).1.writeReg a (((s.readReg a).2 &&& ~~~mask) ||| val)).readReg a).1, rfl, rfl, ?_, ?_⟩
  · rw [readReg_writeReg_fst]
    have ho := readReg_fst s a
    generalize (s.readReg a).2 = old at ho ⊢
    generalize (s.readReg a).1 = o at ho ⊢
    generalize ((o.writeReg a ((old &&& ~~~mask) ||| val)).readReg a).2 = x
    simp only [State.afterBus]
    generalize ((o.writeReg a ((old &&& ~~~mask) ||| val)).readReg a).1.env = e
    rw [ho]
    simp
  · unfold State.maskedUpdate
    by_cases hr :
        (((s.readReg a).1.writeReg a (((s.readReg a).2 &&& ~~~mask) ||| val)).readReg a).2 &&& mask = val
    · exact .inl ⟨hr, if_pos hr⟩
    · exact .inr ⟨hr, if_neg hr⟩

/-- In EMU a register reads back what was just written to it. -/
theorem readReg_writeReg_emul (s : State) (a : RegAddr) (v : Byte) (he : s.bus.emul = true) (hr : Carries s.cfg a)
    (hw : Memory.wf s.cfg s.shadow = true) (hv : v.toNat < 2 ^ s.cfg.regDataBits) :
    (s.writeReg a v).readReg a =
      ({ s with shadow := shadowPut s.shadow a.toNat v, busLog := s.busLog ++ [.cmdWr a v, .cmdRd a v] }, v) := by
  rw [writeReg_emul s a v he hr hv, readReg_emul _ a (by exact he) (by exact hr)]
  simp [shadowGet_put _ _ _ _ hw]

/-- In EMU a WriteVerify always goes on: the shadow entry reads back what was written. -/
theorem writeVerify_emul (s : State) (a : RegAddr) (v : Byte) (he : s.bus.emul = true) (hr : Carries s.cfg a)
    (hw : Memory.wf s.cfg s.shadow = true) (hv : v.toNat < 2 ^ s.cfg.regDataBits) :
    s.writeVerify a v =
      .ok { s with shadow := shadowPut s.shadow a.toNat v, busLog := s.busLog ++ [.cmdWr a v, .cmdRd a v] } := by
  unfold State.writeVerify
  rw [readReg_writeReg_emul s a v he hr hw hv]
  exact if_pos rfl

/-- The masked bits of a masked update are the value's. -/
theorem masked_readback (old mask val : Byte) (hv : val &&& mask = val) : ((old &&& ~~~mask) ||| val) &&& mask = val := by
  apply BitVec.eq_of_getLsbD_eq
  intro i hi
  have h := congrArg (fun x : Byte => x.getLsbD i) hv
  simp only [BitVec.getLsbD_and, BitVec.getLsbD_or, BitVec.getLsbD_not, hi, decide_true, Bool.true_and] at h ⊢
  revert h
  cases old.getLsbD i <;> cases mask.getLsbD i <;> cases val.getLsbD i <;> simp

/-- A masked update of register values is a register value. -/
theorem masked_lt {n : Nat} (old mask val : Byte) (ho : old.toNat < 2 ^ n) (hv : val.toNat < 2 ^ n) :
    ((old &&& ~~~mask) ||| val).toNat < 2 ^ n := by
  apply lt_of_getLsbD
  intro i hi
  simp [getLsbD_of_lt old ho i hi, getLsbD_of_lt val hv i hi]

/-- In EMU a MaskedUpdate always goes on. -/
theorem maskedUpdate_emul (s : State) (a : RegAddr) (mask val : Byte) (he : s.bus.emul = true) (hr : Carries s.cfg a)
    (hw : Memory.wf s.cfg s.shadow = true) (hv : val &&& mask = val) (hf : val.toNat < 2 ^ s.cfg.regDataBits) :
    s.maskedUpdate a mask val =
      .ok { s with
        shadow := shadowPut s.shadow a.toNat ((shadowGet s.shadow a.toNat &&& ~~~mask) ||| val)
        busLog := s.busLog ++
          [.cmdRd a (shadowGet s.shadow a.toNat), .cmdWr a ((shadowGet s.shadow a.toNat &&& ~~~mask) ||| val),
            .cmdRd a ((shadowGet s.shadow a.toNat &&& ~~~mask) ||| val)] } := by
  simp only [State.maskedUpdate, readReg_emul s a he hr]
  rw [readReg_writeReg_emul _ a _ (by exact he) (by exact hr) (by exact hw)
      (by exact masked_lt _ _ _ (shadowGet_lt hw _) hf),
    if_pos (masked_readback _ _ _ hv)]
  simp

/-! ## Sample words -/

/-- Everything SampleWord can do. -/
theorem sampleWord_cases (s : State) (w : Half) :
    (s.bus.mode ≠ .sample ∧ s.sampleWord w = .error (s.raise .mode)) ∨
      (s.bus.mode = .sample ∧ s.sampleFits w = false ∧ s.sampleWord w = .error (s.raise .sampleRange)) ∨
        (s.bus.mode = .sample ∧ s.sampleFits w = true ∧
          s.sampleWord w = .ok { s with busLog := s.busLog ++ [.sample w] }) := by
  unfold State.sampleWord
  by_cases hm : s.bus.mode = .sample
  · cases hf : s.sampleFits w <;> simp [hm]
  · simp [hm]

/-- SampleWord of fitting words in SAMPLE mode sends them in order. -/
theorem sampleWords_ok (s : State) (ws : List Half) (hm : s.bus.mode = .sample) (hf : ws.all s.sampleFits = true) :
    s.sampleWords ws = .ok { s with busLog := s.busLog ++ ws.map .sample } := by
  induction ws generalizing s with
  | nil => simp [State.sampleWords]
  | cons w ws ih =>
    simp only [List.all_cons, Bool.and_eq_true] at hf
    have h1 : s.sampleWord w = .ok { s with busLog := s.busLog ++ [.sample w] } := by
      simp [State.sampleWord, hm, hf.1]
    simp only [State.sampleWords, h1]
    rw [ih _ (by exact hm) (by exact hf.2)]
    simp

/-- Whatever SampleWord of several words does, it only adds sample events, and raises a fault if it stops. -/
theorem sampleWords_cases (s : State) (ws : List Half) :
    ∃ sent, (s.sampleWords ws = .ok { s with busLog := s.busLog ++ sent.map .sample } ∧ sent = ws) ∨
      ∃ f, (f = .mode ∨ f = .sampleRange) ∧
        s.sampleWords ws = .error { s with busLog := s.busLog ++ sent.map .sample, fault := some f } := by
  induction ws generalizing s with
  | nil => exact ⟨[], .inl ⟨by simp [State.sampleWords], rfl⟩⟩
  | cons w ws ih =>
    rcases sampleWord_cases s w with ⟨_, h⟩ | ⟨_, _, h⟩ | ⟨_, _, h⟩
    · exact ⟨[], .inr ⟨.mode, .inl rfl, by simp [State.sampleWords, h, State.raise]⟩⟩
    · exact ⟨[], .inr ⟨.sampleRange, .inr rfl, by simp [State.sampleWords, h, State.raise]⟩⟩
    · obtain ⟨sent, h2 | ⟨f, hf, h2⟩⟩ := ih { s with busLog := s.busLog ++ [.sample w] }
      · exact ⟨w :: sent, .inl ⟨by simp [State.sampleWords, h, h2.1], by rw [h2.2]⟩⟩
      · exact ⟨w :: sent, .inr ⟨f, hf, by simp [State.sampleWords, h, h2]⟩⟩

/-! ## Buffer accesses -/

/-- Everything a one-entry MemRead can do. -/
theorem memRead_one (s : State) (b : Fin 2) (p : Nat) :
    (∃ v, p < s.sch.len ∧ sampleAt s.buf (s.sampleAddr b p) = some v ∧ s.memRead b p 1 = .ok [v]) ∨
      ((s.sch.len ≤ p ∨ sampleAt s.buf (s.sampleAddr b p) = none) ∧ s.memRead b p 1 = .error (s.raise .unwritten)) := by
  unfold State.memRead
  by_cases hp : p < s.sch.len
  · rw [if_pos (by omega), samplesFrom_one]
    cases h : sampleAt s.buf (s.sampleAddr b p)
    · exact .inr ⟨.inr rfl, rfl⟩
    · exact .inl ⟨_, hp, rfl, rfl⟩
  · rw [if_neg (by omega)]
    exact .inr ⟨.inl (by omega), rfl⟩

/-- An entry that is filled with a fitting sample is sent. -/
theorem sendEntry_ok (s : State) (b : Fin 2) (p : Nat) (v : Half) (hp : p < s.sch.len)
    (hv : sampleAt s.buf (s.sampleAddr b p) = some v) (hm : s.bus.mode = .sample) (hf : s.sampleFits v = true) :
    s.sendEntry b p = .ok { s with busLog := s.busLog ++ [.sample v] } := by
  rcases memRead_one s b p with ⟨w, _, hw, h⟩ | ⟨h | h, _⟩
  · rw [hv] at hw
    obtain rfl : v = w := by simpa using hw
    simp only [State.sendEntry, h]
    exact sampleWords_ok s [v] hm (by simp [hf])
  · omega
  · simp [hv] at h

/-- Whatever sending an entry does, it adds at most one sample event, and raises a fault if it stops. -/
theorem sendEntry_cases (s : State) (b : Fin 2) (p : Nat) :
    (∃ v, s.sendEntry b p = .ok { s with busLog := s.busLog ++ [.sample v] }) ∨
      ∃ f, (f = .unwritten ∨ f = .mode ∨ f = .sampleRange) ∧ s.sendEntry b p = .error (s.raise f) := by
  rcases memRead_one s b p with ⟨w, _, _, h⟩ | ⟨_, h⟩
  · rcases sampleWord_cases s w with ⟨_, hw⟩ | ⟨_, _, hw⟩ | ⟨_, _, hw⟩
    · exact .inr ⟨.mode, by simp, by simp [State.sendEntry, h, State.sampleWords, hw]⟩
    · exact .inr ⟨.sampleRange, by simp, by simp [State.sendEntry, h, State.sampleWords, hw]⟩
    · exact .inl ⟨w, by simp [State.sendEntry, h, State.sampleWords, hw]⟩
  · exact .inr ⟨.unwritten, by simp, by simp [State.sendEntry, h]⟩

/-- A fill supplies exactly S samples. -/
@[simp] theorem fillSrc_length (s : State) (n : Nat) : (s.fillSrc n).length = s.sch.len := by simp [State.fillSrc]

/-- A sample fits exactly if it is below 2^SAMPLE_BITS (30_encoding.md R96). -/
theorem all_sampleFits (s : State) (l : List Half) :
    l.all s.sampleFits = true ↔ ∀ x ∈ l, x.toNat < 2 ^ s.cfg.sampleBits := by
  simp [State.sampleFits]

/-- What a fill stores keeps the canonical form: the data has been checked (20_memory.md R70). -/
theorem wf_samplesPut {s : State} {vs : List Half} (a : Nat) (h : vs.all s.sampleFits = true)
    (hw : SampleMemory.wf s.cfg s.buf = true) : SampleMemory.wf s.cfg (samplesPut a vs s.buf) = true :=
  SampleMemory.wf_put vs a s.buf hw ((all_sampleFits s vs).mp h)

/-- Everything a fill can do. -/
theorem fill_cases (s : State) (b : Fin 2) :
    ((s.fillSrc s.fillCount).all s.sampleFits = true ∧
      s.fill b = .ok
        { s with
          fillCount := s.fillCount + 1
          buf := samplesPut (s.sampleAddr b 0) (s.fillSrc s.fillCount) s.buf }) ∨
      ((s.fillSrc s.fillCount).all s.sampleFits = false ∧
        s.fill b = .error { s with fillCount := s.fillCount + 1, fault := some .sampleRange }) := by
  unfold State.fill State.memWrite
  simp only
  have hfits : ({ s with fillCount := s.fillCount + 1 } : State).sampleFits = s.sampleFits := rfl
  rw [hfits]
  cases h : (s.fillSrc s.fillCount).all s.sampleFits
  · exact .inr ⟨rfl, rfl⟩
  · exact .inl ⟨rfl, rfl⟩

/-! ## Buffer indices -/

@[simp] theorem otherBuffer_zero : otherBuffer 0 = 1 := rfl
@[simp] theorem otherBuffer_one : otherBuffer 1 = 0 := rfl

theorem otherBuffer_ne (b : Fin 2) : otherBuffer b ≠ b := by revert b; decide

theorem eq_otherBuffer_of_ne {b c : Fin 2} (h : b ≠ c) : b = otherBuffer c := by revert b c; decide

@[simp] theorem fresh_get_set (f : FreshBits) (b : Fin 2) (v : Bool) : (f.set b v).get b = v := by
  unfold FreshBits.get FreshBits.set
  split <;> simp_all

theorem fresh_get_set_ne (f : FreshBits) {b c : Fin 2} (v : Bool) (h : c ≠ b) : (f.set b v).get c = f.get c := by
  unfold FreshBits.get FreshBits.set
  by_cases hb : b = 0 <;> by_cases hc : c = 0 <;> simp_all
  omega

end Sys2Proof.Machine
end

