-- ==== Sys2Proof/Laws/Afe.lean ====
section
/-! SUPPORT. The verified register writes on a physical chip, whatever words it sends, and the field masks of the operands. -/

namespace Sys2Proof.Machine

/-- The word a draw answers depends on the outside world's answers alone. -/
theorem drawReceived_of_env {s t : State} (h : t.env = s.env) :
    t.drawReceived.2 = s.drawReceived.2 ∧ t.drawReceived.1.env = s.drawReceived.1.env := by
  unfold State.drawReceived
  rw [h]
  cases s.env.received <;> exact ⟨rfl, rfl⟩

/-- A write and the readback after it on a physical chip. -/
theorem readReg_writeReg_phys (s : State) (a : RegAddr) (v : Byte) (he : s.bus.emul = false) :
    (s.writeReg a v).readReg a =
      ({ s with
          env := s.drawReceived.1.env
          busLog := s.busLog ++ [.cmdWr a v, .cmdRd a (s.cfg.regBits s.drawReceived.2)] },
        s.cfg.regBits s.drawReceived.2) := by
  have hw := writeReg_eq s a v
  generalize s.writeReg a v = w at *
  rw [readReg_phys _ _ (by rw [hw]; exact he)]
  obtain ⟨h1, h2⟩ := drawReceived_of_env (s := s) (t := w) (by rw [hw])
  rw [h1, h2, hw]
  simp [he]

/-- WriteVerify on a physical chip (41_afe.md R164). -/
theorem writeVerify_phys (s : State) (a : RegAddr) (v : Byte) (he : s.bus.emul = false) (t : State)
    (ht : t =
      { s with
        env := s.drawReceived.1.env
        busLog := s.busLog ++ [.cmdWr a v, .cmdRd a (s.cfg.regBits s.drawReceived.2)] }) :
    s.writeVerify a v = if s.cfg.regBits s.drawReceived.2 = v then .ok t else .error { t with fault := some .integrity } := by
  unfold State.writeVerify
  rw [readReg_writeReg_phys s a v he, ht]; rfl

/-- MaskedUpdate on a physical chip (41_afe.md R164). -/
theorem maskedUpdate_phys (s : State) (a : RegAddr) (mask val : Byte) (he : s.bus.emul = false) (old new r : Byte)
    (ho : old = s.cfg.regBits s.drawReceived.2) (hn : new = (old &&& ~~~mask) ||| val)
    (hr : r = s.cfg.regBits s.drawReceived.1.drawReceived.2) (t : State)
    (ht : t =
      { s with
        env := s.drawReceived.1.drawReceived.1.env
        busLog := s.busLog ++ [.cmdRd a old, .cmdWr a new, .cmdRd a r] }) :
    s.maskedUpdate a mask val = if r &&& mask = val then .ok t else .error { t with fault := some .integrity } := by
  unfold State.maskedUpdate
  rw [readReg_phys _ _ he]
  simp only [← ho]
  rw [← hn, readReg_writeReg_phys _ _ _ (by exact he)]
  obtain ⟨h1, h2⟩ := drawReceived_of_env (s := s.drawReceived.1)
    (t := { s with env := s.drawReceived.1.env, busLog := s.busLog ++ [.cmdRd a old] }) rfl
  simp only [h1, h2, ← hr, ht]
  simp [State.raise]

/-! ## Field masks and field values -/

/-- A byte's bits are those of its container. -/
theorem getLsbD_blockBit (m : Byte) (i j k : Nat) (hj : j < 8) :
    (blockBit m i j).getLsbD k = (decide (k = j) && m.getLsbD i) := by
  unfold blockBit
  simp only [BitVec.getLsbD_shiftLeft, BitVec.getLsbD_setWidth, BitVec.getLsbD_ofBool]
  by_cases h : k = j
  · subst h; simp [hj]
  · by_cases h1 : k < j
    · simp [h, h1]
    · simp [h, show ¬ k - j = 0 by omega]

/-- The bits of a field of width two. -/
theorem getLsbD_three (lo k : Nat) (h : lo + 2 ≤ 8) : (3#8 <<< lo).getLsbD k = decide (lo ≤ k ∧ k < lo + 2) := by
  simp only [BitVec.getLsbD_shiftLeft]
  by_cases h1 : lo ≤ k ∧ k < lo + 2
  · have : k - lo = 0 ∨ k - lo = 1 := by omega
    rcases this with e | e <;> simp [h1, show k < 8 by omega, show ¬ k < lo by omega, e]
  · by_cases h2 : k < lo
    · simp [h1, h2]
    · have : (3#8).getLsbD (k - lo) = false := getLsbD_of_lt (n := 2) 3#8 (by decide) _ (by omega)
      simp [h1, this]

/-- The bits of a level in a field of width two. -/
theorem getLsbD_level (g : BitVec 2) (lo k : Nat) (h : lo + 2 ≤ 8) :
    ((g.setWidth 8) <<< lo).getLsbD k = (decide (lo ≤ k ∧ k < lo + 2) && g.getLsbD (k - lo)) := by
  simp only [BitVec.getLsbD_shiftLeft, BitVec.getLsbD_setWidth]
  by_cases h1 : lo ≤ k ∧ k < lo + 2
  · simp [h1, show k < 8 by omega, show ¬ k < lo by omega, show k - lo < 8 by omega]
  · by_cases h2 : k < lo
    · simp [h1, h2]
    · have : g.getLsbD (k - lo) = false := getLsbD_of_lt (n := 2) g g.isLt _ (by omega)
      simp [this]

/-- The bits of a one-bit field. -/
theorem getLsbD_one_at (lo k : Nat) (h : lo < 8) : (1#8 <<< lo).getLsbD k = decide (k = lo) := by
  simp only [BitVec.getLsbD_shiftLeft, BitVec.getLsbD_one]
  by_cases h1 : k = lo
  · subst h1; simp [h]
  · by_cases h2 : k < lo
    · simp [h1, h2]
    · simp [h1, show ¬ k - lo = 0 by omega]

/-- A level in range is a value of two bits. -/
theorem level_eq_setWidth (g : Byte) (h : g.toNat ≤ 3) : ∃ k : BitVec 2, g = k.setWidth 8 := by
  refine ⟨g.setWidth 2, ?_⟩
  apply BitVec.eq_of_toNat_eq; simp; omega

/-- Where the fields of the registers lie on an admissible machine. -/
structure RegisterLayout (c : Config) : Prop where
  data8 : c.regDataBits ≤ 8
  pa : c.places.pa < c.regDataBits
  tx : c.places.tx < c.regDataBits
  rx : c.places.rx < c.regDataBits
  dac : c.places.dac < c.regDataBits
  zc : c.places.zc < c.regDataBits
  ref1 : c.places.ref1 < c.regDataBits
  ref2 : c.places.ref2 < c.regDataBits
  paOut : c.places.paOut < c.regDataBits
  rx1g : c.places.rx1gLo + 2 ≤ c.regDataBits
  rx2g : c.places.rx2gLo + 2 ≤ c.regDataBits
  txg : c.places.txgLo + 2 ≤ c.regDataBits
  rx1rx2 : c.places.rx1gLo + 2 ≤ c.places.rx2gLo ∨ c.places.rx2gLo + 2 ≤ c.places.rx1gLo
  rx1tx : c.places.rx1gLo + 2 ≤ c.places.txgLo ∨ c.places.txgLo + 2 ≤ c.places.rx1gLo
  rx2tx : c.places.rx2gLo + 2 ≤ c.places.txgLo ∨ c.places.txgLo + 2 ≤ c.places.rx2gLo
  txCal : c.places.txCal < c.regDataBits
  rxCal : c.places.rxCal < c.regDataBits
  txPgaCal : c.places.txPgaCal < c.regDataBits

theorem registerLayout_of_admissible {c : Config} (h : c.admissible = true) : RegisterLayout c := by
  have h8 := (frameLayout_of_admissible h).data8
  simp only [Config.admissible, Config.placesAdmissible, Bool.and_eq_true, decide_eq_true_eq, apart_iff] at h
  obtain ⟨⟨-, ⟨⟨⟨h1, h2⟩, h3⟩, h4⟩, h5⟩, -⟩ := h
  exact ⟨h8, h1.1, h1.2.1, h1.2.2.1, h1.2.2.2.1, h2.1, h2.2.1, h2.2.2.1, h2.2.2.2.1, h3.1, h3.2.1, h3.2.2, h4.1.1, h4.1.2,
    h4.2, h5.1, h5.2.1, h5.2.2.1⟩

/-- What the setters write are values of a register (30_encoding.md R98). -/
theorem encEnable1_lt {c : Config} (h : c.admissible = true) (m : Byte) : (encEnable1 c m).toNat < 2 ^ c.regDataBits := by
  have L := registerLayout_of_admissible h
  have := L.data8; have := L.pa; have := L.tx; have := L.rx; have := L.dac
  apply lt_of_getLsbD
  intro i hi
  unfold encEnable1
  simp only [BitVec.getLsbD_or]
  rw [getLsbD_blockBit _ _ _ _ (by omega), getLsbD_blockBit _ _ _ _ (by omega), getLsbD_blockBit _ _ _ _ (by omega),
    getLsbD_blockBit _ _ _ _ (by omega)]
  simp [show i ≠ c.places.pa by omega, show i ≠ c.places.tx by omega, show i ≠ c.places.rx by omega,
    show i ≠ c.places.dac by omega]

theorem encEnable2_lt {c : Config} (h : c.admissible = true) (m : Byte) : (encEnable2 c m).toNat < 2 ^ c.regDataBits := by
  have L := registerLayout_of_admissible h
  have := L.data8; have := L.zc; have := L.ref1; have := L.ref2; have := L.paOut
  apply lt_of_getLsbD
  intro i hi
  unfold encEnable2
  simp only [BitVec.getLsbD_or]
  rw [getLsbD_blockBit _ _ _ _ (by omega), getLsbD_blockBit _ _ _ _ (by omega), getLsbD_blockBit _ _ _ _ (by omega),
    getLsbD_blockBit _ _ _ _ (by omega)]
  simp [show i ≠ c.places.zc by omega, show i ≠ c.places.ref1 by omega, show i ≠ c.places.ref2 by omega,
    show i ≠ c.places.paOut by omega]

theorem encGainTx_lt {c : Config} (h : c.admissible = true) (g : BitVec 2) :
    (encGainTx c (g.setWidth 8)).toNat < 2 ^ c.regDataBits := by
  have L := registerLayout_of_admissible h
  have := L.data8; have := L.txg
  apply lt_of_getLsbD
  intro i hi
  rw [encGainTx, getLsbD_level _ _ _ (by omega)]
  simp [show ¬ i < c.places.txgLo + 2 by omega]

theorem encGainsRx_lt {c : Config} (h : c.admissible = true) (g g' : BitVec 2) :
    (encGainsRx c (g.setWidth 8) (g'.setWidth 8)).toNat < 2 ^ c.regDataBits := by
  have L := registerLayout_of_admissible h
  have := L.data8; have := L.rx1g; have := L.rx2g
  apply lt_of_getLsbD
  intro i hi
  rw [encGainsRx, BitVec.getLsbD_or, getLsbD_level _ _ _ (by omega), getLsbD_level _ _ _ (by omega)]
  simp [show ¬ i < c.places.rx1gLo + 2 by omega, show ¬ i < c.places.rx2gLo + 2 by omega]

theorem calCode_lt {c : Config} (h : c.admissible = true) (m : Cal) : (calCode c m).toNat < 2 ^ c.regDataBits := by
  have L := registerLayout_of_admissible h
  have := L.data8; have := L.txCal; have := L.rxCal; have := L.txPgaCal
  apply lt_of_getLsbD
  intro i hi
  cases m
  · simp [calCode]
  · rw [calCode, getLsbD_one_at _ _ (by omega)]; simp; omega
  · rw [calCode, getLsbD_one_at _ _ (by omega)]; simp; omega
  · rw [calCode, getLsbD_one_at _ _ (by omega)]; simp; omega

/-- A value in a field is under the field's mask. -/
theorem level_mask (g : BitVec 2) (lo : Nat) : (g.setWidth 8) <<< lo &&& 3#8 <<< lo = (g.setWidth 8) <<< lo := by
  have h : g.setWidth 8 &&& 3#8 = g.setWidth 8 := by revert g; decide
  rw [← BitVec.shiftLeft_and_distrib, h]

theorem encGainTx_mask (c : Config) (g : BitVec 2) :
    encGainTx c (g.setWidth 8) &&& txGainMask c = encGainTx c (g.setWidth 8) := level_mask g _

/-- Two values under two masks are together under both. -/
theorem or_mask (a b m n : Byte) (ha : a &&& m = a) (hb : b &&& n = b) : (a ||| b) &&& (m ||| n) = a ||| b := by
  apply BitVec.eq_of_getLsbD_eq
  intro i hi
  have h1 := congrArg (fun x : Byte => x.getLsbD i) ha
  have h2 := congrArg (fun x : Byte => x.getLsbD i) hb
  simp only [BitVec.getLsbD_and, BitVec.getLsbD_or] at h1 h2 ⊢
  revert h1 h2
  cases a.getLsbD i <;> cases b.getLsbD i <;> cases m.getLsbD i <;> cases n.getLsbD i <;> simp

theorem encGainsRx_mask (c : Config) (g h : BitVec 2) :
    encGainsRx c (g.setWidth 8) (h.setWidth 8) &&& rxGainMask c = encGainsRx c (g.setWidth 8) (h.setWidth 8) :=
  or_mask _ _ _ _ (level_mask g _) (level_mask h _)

theorem calCode_mask (c : Config) (m : Cal) : calCode c m &&& calMask c = calCode c m := by
  have key : ∀ x y z : Byte, x &&& (x ||| y ||| z) = x ∧ y &&& (x ||| y ||| z) = y ∧ z &&& (x ||| y ||| z) = z := by
    intro x y z
    refine ⟨?_, ?_, ?_⟩ <;>
    · apply BitVec.eq_of_getLsbD_eq
      intro i hi
      simp only [BitVec.getLsbD_and, BitVec.getLsbD_or]
      cases x.getLsbD i <;> cases y.getLsbD i <;> cases z.getLsbD i <;> rfl
  cases m
  · simp [calCode]
  · exact (key _ _ _).1
  · exact (key _ _ _).2.1
  · exact (key _ _ _).2.2

/-- The TXG field and the rx fields of GAIN share no bit (10_state.md R33). -/
theorem gain_masks_apart {c : Config} (h : c.admissible = true) : txGainMask c &&& rxGainMask c = 0 := by
  have L := registerLayout_of_admissible h
  have := L.data8; have := L.rx1g; have := L.rx2g; have := L.txg; have := L.rx1tx; have := L.rx2tx
  apply BitVec.eq_of_getLsbD_eq
  intro i hi
  rw [txGainMask, rxGainMask, BitVec.getLsbD_and, BitVec.getLsbD_or, getLsbD_three _ _ (by omega),
    getLsbD_three _ _ (by omega), getLsbD_three _ _ (by omega)]
  by_cases h1 : c.places.txgLo ≤ i ∧ i < c.places.txgLo + 2
  · simp [show ¬ (c.places.rx1gLo ≤ i ∧ i < c.places.rx1gLo + 2) by omega,
      show ¬ (c.places.rx2gLo ≤ i ∧ i < c.places.rx2gLo + 2) by omega]
  · simp [h1]

theorem isFlag_iff (a : Byte) : isFlag a = true ↔ a.toNat ≤ 1 := by
  unfold isFlag
  rw [decide_eq_true_iff]
  constructor
  · rintro (rfl | rfl) <;> decide
  · intro h
    have : a.toNat = 0 ∨ a.toNat = 1 := by omega
    rcases this with h | h
    · exact .inl (BitVec.eq_of_toNat_eq h)
    · exact .inr (BitVec.eq_of_toNat_eq h)

end Sys2Proof.Machine
end

