-- ==== Sys2Proof/Laws/Effects.lean ====
section
/-! SUPPORT. Everything an instruction can do, said once: `exec_effect` inverts `exec`, so that a claim over all instructions is a
case analysis over `Effect` and no meaning is unfolded again. -/

namespace Sys2Proof.Machine

/-! ## Transfers and draws -/

/-- What transfers and draws leave: everything but the registers, the bus history, the answers drawn and the fault record. -/
structure Traffic (s t : State) : Prop where
  cfg : t.cfg = s.cfg
  bus : t.bus = s.bus
  modeSel : t.modeSel = s.modeSel
  flags : t.flags = s.flags
  afe : t.afe = s.afe
  sch : t.sch = s.sch
  buf : t.buf = s.buf
  cbLog : t.cbLog = s.cbLog
  results : t.results = s.results
  fillCount : t.fillCount = s.fillCount
  runVoid : t.runVoid = s.runVoid
  wait : t.wait = s.wait
  port : t.port = s.port
  line : t.line = s.line
  turns : t.turns = s.turns
  ticks : t.ticks = s.ticks
  log : s.busLog <+: t.busLog
  fault : t.fault = s.fault ∨ ∃ f, t.fault = some f
  shadow : Memory.wf s.cfg s.shadow = true → Memory.wf t.cfg t.shadow = true

theorem Traffic.refl (s : State) : Traffic s s := by constructor <;> first | rfl | simp

theorem Traffic.trans {s t u : State} (h : Traffic s t) (k : Traffic t u) : Traffic s u where
  cfg := k.cfg.trans h.cfg
  bus := k.bus.trans h.bus
  modeSel := k.modeSel.trans h.modeSel
  flags := k.flags.trans h.flags
  afe := k.afe.trans h.afe
  sch := k.sch.trans h.sch
  buf := k.buf.trans h.buf
  cbLog := k.cbLog.trans h.cbLog
  results := k.results.trans h.results
  fillCount := k.fillCount.trans h.fillCount
  runVoid := k.runVoid.trans h.runVoid
  wait := k.wait.trans h.wait
  port := k.port.trans h.port
  line := k.line.trans h.line
  turns := k.turns.trans h.turns
  ticks := k.ticks.trans h.ticks
  log := h.log.trans k.log
  fault := k.fault.elim (fun e => by rw [e]; exact h.fault) .inr
  shadow := fun w => k.shadow (h.shadow w)

theorem traffic_raise (s : State) (f : Fault) : Traffic s (s.raise f) := by
  constructor <;> first | rfl | simp

theorem traffic_drawResource (s : State) : Traffic s s.drawResource.1 := by
  rw [drawResource_fst]; constructor <;> first | rfl | simp

theorem traffic_readReg (s : State) (a : RegAddr) : Traffic s (s.readReg a).1 := by
  rw [readReg_fst]; constructor <;> first | rfl | simp

theorem traffic_writeReg (s : State) (a : RegAddr) (v : Byte) : Traffic s (s.writeReg a v) := by
  rw [writeReg_eq]; constructor <;> first | rfl | simp
  intro h; split
  · exact wf_frameWrite _ _ h
  · exact h

theorem traffic_writeVerify {s t : State} {a : RegAddr} {v : Byte}
    (h : s.writeVerify a v = .ok t ∨ s.writeVerify a v = .error t) : Traffic s t := by
  unfold State.writeVerify at h
  simp only at h
  split at h <;> rcases h with h | h <;> cases h
  · exact (traffic_writeReg _ _ _).trans (traffic_readReg _ _)
  · exact ((traffic_writeReg _ _ _).trans (traffic_readReg _ _)).trans (traffic_raise _ _)

theorem traffic_maskedUpdate {s t : State} {a : RegAddr} {m v : Byte}
    (h : s.maskedUpdate a m v = .ok t ∨ s.maskedUpdate a m v = .error t) : Traffic s t := by
  unfold State.maskedUpdate at h
  simp only at h
  have k := (traffic_readReg s a).trans ((traffic_writeReg _ a (((s.readReg a).2 &&& ~~~m) ||| v)).trans
    (traffic_readReg _ a))
  split at h <;> rcases h with h | h <;> cases h
  · exact k
  · exact k.trans (traffic_raise _ _)

theorem traffic_log (s : State) (l : List BusEvent) : Traffic s { s with busLog := s.busLog ++ l } := by
  constructor <;> first | rfl | simp

theorem traffic_sampleWord {s t : State} {w : Half} (h : s.sampleWord w = .ok t ∨ s.sampleWord w = .error t) :
    Traffic s t := by
  rcases sampleWord_cases s w with ⟨_, e⟩ | ⟨_, _, e⟩ | ⟨_, _, e⟩ <;> rw [e] at h <;> rcases h with h | h <;> cases h <;>
    first | exact traffic_log _ _ | exact traffic_raise _ _

theorem traffic_sampleWords {s t : State} {ws : List Half}
    (h : s.sampleWords ws = .ok t ∨ s.sampleWords ws = .error t) : Traffic s t := by
  obtain ⟨x, ⟨e, _⟩ | ⟨f, _, e⟩⟩ := sampleWords_cases s ws <;> rw [e] at h <;> rcases h with h | h <;> cases h
  · exact traffic_log _ _
  · exact (traffic_log s (x.map .sample)).trans (traffic_raise _ _)

theorem traffic_sendEntry {s t : State} {b : Fin 2} {p : Nat}
    (h : s.sendEntry b p = .ok t ∨ s.sendEntry b p = .error t) : Traffic s t := by
  rcases sendEntry_cases s b p with ⟨v, e⟩ | ⟨f, _, e⟩ <;> rw [e] at h <;> rcases h with h | h <;> cases h
  · exact traffic_log _ _
  · exact traffic_raise _ _

theorem traffic_sendFrom {n : Nat} {s t : State} {p : Nat}
    (h : s.sendFrom p n = .ok t ∨ s.sendFrom p n = .error t) : Traffic s t := by
  induction n generalizing s p with
  | zero => simp only [State.sendFrom] at h; rcases h with h | h <;> cases h; exact Traffic.refl _
  | succ n ih =>
    simp only [State.sendFrom] at h
    split at h
    · rename_i u hu; rcases h with h | h <;> cases h; exact traffic_sendEntry (.inr hu)
    · rename_i u hu; exact (traffic_sendEntry (.inl hu)).trans (ih h)

/-! ## A part that goes on leaves the fault record -/

theorem fault_drawResource (s : State) : s.drawResource.1.fault = s.fault := by rw [drawResource_fst]

theorem fault_readReg (s : State) (a : RegAddr) : (s.readReg a).1.fault = s.fault := by rw [readReg_fst]

theorem fault_writeReg (s : State) (a : RegAddr) (v : Byte) : (s.writeReg a v).fault = s.fault := by rw [writeReg_eq]

theorem fault_writeVerify {s t : State} {a : RegAddr} {v : Byte} (h : s.writeVerify a v = .ok t) : t.fault = s.fault := by
  unfold State.writeVerify at h
  simp only at h
  split at h <;> cases h
  rw [fault_readReg, fault_writeReg]

theorem fault_maskedUpdate {s t : State} {a : RegAddr} {m v : Byte} (h : s.maskedUpdate a m v = .ok t) :
    t.fault = s.fault := by
  unfold State.maskedUpdate at h
  simp only at h
  split at h <;> cases h
  rw [fault_readReg, fault_writeReg, fault_readReg]

theorem fault_sampleWord {s t : State} {w : Half} (h : s.sampleWord w = .ok t) : t.fault = s.fault := by
  rcases sampleWord_cases s w with ⟨_, e⟩ | ⟨_, _, e⟩ | ⟨_, _, e⟩ <;> rw [e] at h <;> cases h; rfl

theorem fault_sampleWords {s t : State} {ws : List Half} (h : s.sampleWords ws = .ok t) : t.fault = s.fault := by
  obtain ⟨x, ⟨e, _⟩ | ⟨f, _, e⟩⟩ := sampleWords_cases s ws <;> rw [e] at h <;> cases h; rfl

theorem fault_sendEntry {s t : State} {b : Fin 2} {p : Nat} (h : s.sendEntry b p = .ok t) : t.fault = s.fault := by
  rcases sendEntry_cases s b p with ⟨v, e⟩ | ⟨f, _, e⟩ <;> rw [e] at h <;> cases h; rfl

theorem fault_sendFrom {n : Nat} {s t : State} {p : Nat} (h : s.sendFrom p n = .ok t) : t.fault = s.fault := by
  induction n generalizing s p with
  | zero => simp only [State.sendFrom] at h; cases h; rfl
  | succ n ih =>
    simp only [State.sendFrom] at h
    split at h
    · cases h
    · rename_i u hu; rw [ih h, fault_sendEntry hu]

/-! ## What an instruction can do -/

/-- The state after an instruction: one constructor per kind of change, with what must hold before it. -/
inductive Effect (s : State) : Instr → State → Prop
  /-- Transfers, and perhaps a fault. -/
  | traffic (i) {t} (h : Traffic s t) : Effect s i t
  /-- Transfers and a result. -/
  | reply (i) {t} (st v) (h : Traffic s t) (hf : t.fault = s.fault) : Effect s i (t.reply st v)
  | refuse (i) : Effect s i s.refuse
  | openBus (a b) {u} (h : Traffic s u) (hf : u.fault = s.fault) (h1 : s.bus.life = .absent) :
      Effect s (.busCreate a) (u.openBus b)
  | releaseBus (h1 : s.bus.life = .live) (h2 : s.afe.life ≠ .live) (h3 : s.sch.life = .absent ∨ s.sch.life = .released) :
      Effect s .busRelease ({ s with bus.life := .released }.reply .ok)
  | configure (a w) (h1 : s.bus.life = .live) (h2 : s.busBusy = false) :
      Effect s (.busConfigure a w) ({ s with bus.rung := a.toNat, bus.iwd := w }.reply .ok)
  | setMode (a) (h1 : s.bus.life = .live) (h2 : s.busBusy = false) (ha : isFlag a = true) :
      Effect s (.busSetSampleMode a)
        (({ s with bus.mode := modeOfFlag a }.driveModeSel (decide (a = 1))).reply .ok)
  | openAfe {u} (r) (h : Traffic s u) (hf : u.fault = s.fault) (h1 : s.afe.life = .absent) (h2 : s.bus.life = .live)
      (h3 : s.busBusy = false) :
      Effect s .afeCreate
        ({ u with
            afe :=
              { u.afe with
                life := .live, revision := r, blocks := 0, cal := .none, gainTx := 0, gainRx1 := 0, gainRx2 := 0,
                cbOn := false } }.reply .ok)
  | unwind {u} (st) (h : Traffic s u) (hf : u.fault = s.fault) (h1 : s.afe.life = .absent) (h2 : s.bus.life = .live)
      (h3 : s.busBusy = false) (h4 : s.bus.emul = false) : Effect s .afeCreate (u.unwindAfe st)
  /-- A setter of the AFE handle. -/
  | afeUpdate (i) {u} (f : AfeHandle → AfeHandle) (h : Traffic s u) (hf : u.fault = s.fault) (h1 : s.afe.life = .live)
      (h2 : ∀ a, (f a).life = a.life) : Effect s i ({ u with afe := f u.afe }.reply .ok)
  | releaseAfe (h1 : s.afe.life = .live) :
      Effect s .afeRelease ({ s with afe.cbOn := false, afe.life := .released }.reply .ok)
  | openSched (v w) {u} (h : Traffic s u) (hf : u.fault = s.fault) (h1 : s.sch.life = .absent) (h2 : 1 ≤ w.toNat) :
      Effect s (.schedCreate v w) (u.openSched (variantOf v) w.toNat)
  | start {u} (h : Traffic s u) (hf : u.fault = s.fault) (h1 : s.sch.life = .created)
      (h2 : s.bus.life = .live ∧ s.bus.mode = .sample) {x} (hx : u.prefill = .ok x) : Effect s .schedStart x.beginRun
  | startError {u} (h : Traffic s u) (hf : u.fault = s.fault) (h1 : s.sch.life = .created) {x}
      (hx : u.prefill = .error x) : Effect s .schedStart x
  | stopCreated (h1 : s.sch.life = .created) : Effect s .schedStop ({ s with sch.life := .stopped }.reply .ok)
  | stopWait (h1 : s.sch.life = .running) (h2 : s.schN = 2 ∧ s.sch.txeActive = true) :
      Effect s .schedStop { s with sch.terminate := true, wait := .stop }
  | stopNow (h1 : s.sch.life = .running) (h2 : ¬ (s.schN = 2 ∧ s.sch.txeActive = true)) :
      Effect s .schedStop ({ s with sch.terminate := true } : State).finishStop
  | release (h1 : s.sch.life = .stopped) :
      Effect s .schedRelease ({ s with sch.life := .released, buf := [] }.reply .ok)
  | fill (h1 : s.sch.life = .running) (h2 : s.sch.phase = .needFill) {t} (ht : s.fill s.sch.fillTgt = .ok t) :
      Effect s .schedFillNextBuffer
        ({ t with sch.fresh := t.sch.fresh.set s.sch.fillTgt true, sch.phase := .needFlush }.reply .ok)
  | fillError (h1 : s.sch.life = .running) {t} (ht : s.fill s.sch.fillTgt = .error t) : Effect s .schedFillNextBuffer t
  | flushSync (h1 : s.sch.life = .running) (h2 : s.schN = 1) {t} (h : Traffic s t) (hf : t.fault = s.fault) :
      Effect s .schedFlushAndWaitBuffer
        ({ t with sch.fresh := t.sch.fresh.set 0 false, sch.phase := .needFill }.reply .ok (.index 0))
  | flushEnd (h1 : s.sch.life = .running) (h2 : s.schN = 2) (h3 : s.sch.phase = .needFlush)
      (h4 : s.sch.txCur = s.sch.fillTgt) : Effect s .schedFlushAndWaitBuffer s.finishFlush
  | flushWait (h1 : s.sch.life = .running) (h2 : s.schN = 2) (h3 : s.sch.phase = .needFlush)
      (h4 : s.sch.txCur ≠ s.sch.fillTgt) : Effect s .schedFlushAndWaitBuffer { s with wait := .flush }

/-! ## The inversion -/

theorem effect_requireStatus {i : Instr} {s k : State} {c : Prop} [Decidable c] {e : Status} (h : c → Effect s i k) :
    Effect s i (s.requireStatus c e k) :=
  requireStatus_ind (fun _ => .reply i _ _ (Traffic.refl s) rfl) h

theorem effect_requireFault {i : Instr} {s k : State} {c : Prop} [Decidable c] {f : Fault} (h : c → Effect s i k) :
    Effect s i (s.requireFault c f k) :=
  requireFault_ind (fun _ => .traffic i (traffic_raise s _)) h

theorem effect_reply (i : Instr) (s : State) (st : Status) (v : Value) : Effect s i (s.reply st v) :=
  .reply i _ _ (Traffic.refl s) rfl

theorem effect_setter {i : Instr} {s k : State} (h : s.afe.life = .live → Effect s i k) : Effect s i (s.requireSetter k) :=
  effect_requireFault fun h1 => effect_requireFault fun _ => effect_requireFault fun _ => h h1

theorem effect_probeAfe {s u : State} (hu : Traffic s u) (hf : u.fault = s.fault) (h1 : s.afe.life = .absent)
    (h2 : s.bus.life = .live) (h3 : s.busBusy = false) : Effect s .afeCreate u.probeAfe := by
  have k := hu.trans (traffic_readReg u u.cfg.aRevision)
  have e := (fault_readReg u u.cfg.aRevision).trans hf
  unfold State.probeAfe
  simp only
  split
  · rename_i h; exact .unwind _ k e h1 h2 h3 (by rw [← hu.bus]; exact h.2)
  · exact .openAfe _ k e h1 h2 h3

/-- The state after an instruction is one of the changes listed in `Effect`. -/
theorem exec_effect {i : Instr} {s t : State} (h : exec i s = .next t) : Effect s i t := by
  have r := Traffic.refl s
  have d := traffic_drawResource s
  have df := fault_drawResource s
  cases i <;> have h := Host.Outcome.next.inj h <;> subst h
  case busCreate a =>
    refine effect_requireStatus fun _ => effect_requireFault fun h1 => ?_
    split
    · split
      · exact .openBus a _ d df h1
      · exact .reply _ _ _ d df
    · exact .openBus a _ r rfl h1
  case busRelease => exact effect_requireFault fun h1 => effect_requireFault fun h2 => .releaseBus h1 h2.1 h2.2
  case busConfigure a w =>
    exact effect_requireStatus fun _ => effect_requireFault fun h1 => effect_requireFault fun h2 => .configure a w h1 h2
  case busSetSampleMode a =>
    refine effect_requireStatus fun h => effect_requireFault fun h1 => effect_requireFault fun h2 => ?_
    split
    · exact effect_reply _ _ _ _
    · exact .setMode a h1 h2 h
  case busWriteCommand a b =>
    exact effect_requireStatus fun _ => effect_requireFault fun _ => effect_requireFault fun _ =>
      effect_requireFault fun _ => .reply _ _ _ (traffic_writeReg _ _ _) (fault_writeReg _ _ _)
  case busReadCommand a =>
    exact effect_requireStatus fun _ => effect_requireFault fun _ => effect_requireFault fun _ =>
      effect_requireFault fun _ => .reply _ _ _ (traffic_readReg _ _) (fault_readReg _ _)
  case busTransferSingleSample w =>
    exact effect_requireFault fun _ => effect_requireFault fun _ =>
      proceed_ind (fun t ht => .traffic _ (traffic_sampleWord (.inr ht)))
        (fun t ht => .reply _ _ _ (traffic_sampleWord (.inl ht)) (fault_sampleWord ht))
  case busTransferSampleBuffer ws =>
    exact effect_requireFault fun _ => effect_requireFault fun _ => effect_requireFault fun _ =>
      effect_requireFault fun _ =>
      proceed_ind (fun t ht => .traffic _ (traffic_sampleWords (.inr ht)))
        (fun t ht => .reply _ _ _ (traffic_sampleWords (.inl ht)) (fault_sampleWords ht))
  case busRateToBits e =>
    refine effect_requireStatus fun _ => ?_
    split <;> exact effect_reply _ _ _ _
  case busBitsToRate a => exact effect_requireStatus fun _ => effect_reply _ _ _ _
  case busGetEffectiveRate => exact effect_requireFault fun _ => effect_reply _ _ _ _
  case afeCreate =>
    refine effect_requireFault fun h1 => effect_requireStatus fun h2 => effect_requireFault fun h3 =>
      effect_requireFault fun _ => ?_
    split
    · exact effect_probeAfe r rfl h1 h2 h3
    · rename_i he
      split
      · exact effect_probeAfe d df h1 h2 h3
      · exact .unwind _ d df h1 h2 h3 (by simpa using he)
  case afeRelease => exact effect_requireFault fun h => .releaseAfe h
  case afeActivateBlocks m =>
    exact effect_setter fun h1 =>
      proceed_ind (fun t ht => .traffic _ (traffic_writeVerify (.inr ht))) fun t ht =>
      proceed_ind (fun u hu => .traffic _ ((traffic_writeVerify (.inl ht)).trans (traffic_writeVerify (.inr hu))))
        fun u hu => .afeUpdate _ (fun a => { a with blocks := m })
          ((traffic_writeVerify (.inl ht)).trans (traffic_writeVerify (.inl hu)))
          ((fault_writeVerify hu).trans (fault_writeVerify ht)) h1 fun _ => rfl
  case afeSetGainTx g =>
    exact effect_requireStatus fun _ => effect_setter fun h1 =>
      proceed_ind (fun t ht => .traffic _ (traffic_maskedUpdate (.inr ht))) fun t ht =>
      .afeUpdate _ (fun a => { a with gainTx := gainLevel g }) (traffic_maskedUpdate (.inl ht)) (fault_maskedUpdate ht) h1
        fun _ => rfl
  case afeSetGainsRx g g' =>
    exact effect_requireStatus fun _ => effect_setter fun h1 =>
      proceed_ind (fun t ht => .traffic _ (traffic_maskedUpdate (.inr ht))) fun t ht =>
      .afeUpdate _ (fun a => { a with gainRx1 := gainLevel g, gainRx2 := gainLevel g' }) (traffic_maskedUpdate (.inl ht))
        (fault_maskedUpdate ht) h1 fun _ => rfl
  case afeSetCalibration c =>
    exact effect_requireStatus fun _ => effect_setter fun h1 =>
      proceed_ind (fun t ht => .traffic _ (traffic_maskedUpdate (.inr ht))) fun t ht =>
      .afeUpdate _ (fun a => { a with cal := calOf c }) (traffic_maskedUpdate (.inl ht)) (fault_maskedUpdate ht) h1
        fun _ => rfl
  case afeSetStandby a => exact effect_requireStatus fun _ => .refuse _
  case afeGetRevision => exact effect_requireFault fun _ => effect_reply _ _ _ _
  case afeGetState => exact effect_requireFault fun _ => effect_reply _ _ _ _
  case afeSetFlagsCallback a =>
    refine effect_requireStatus fun _ => effect_requireFault fun h1 => ?_
    split
    · split
      · exact effect_reply _ _ _ _
      · exact .afeUpdate _ (fun a => { a with pend := FlagBits.clear, cbOn := true }) r rfl h1 fun _ => rfl
    · exact .afeUpdate _ (fun a => { a with cbOn := false }) r rfl h1 fun _ => rfl
  case afeIsPresent => exact effect_requireFault fun _ => effect_reply _ _ _ _
  case schedCreate v w =>
    refine effect_requireStatus fun h0 => ?_
    have hw : 1 ≤ w.toNat := by unfold schedOperandsLegal at h0; simp at h0; omega
    split
    · exact .refuse _
    · refine effect_requireFault fun h1 => effect_requireStatus fun _ => ?_
      split
      · exact .openSched v w r rfl h1 hw
      · split
        · exact .openSched v w d df h1 hw
        · exact .reply _ _ _ d df
  case schedStart =>
    refine effect_requireFault fun _ => effect_requireStatus fun h2 => effect_requireStatus fun h3 => ?_
    split
    · split
      · exact proceed_ind (fun t ht => .startError d df h2 ht) (fun t ht => .start d df h2 h3 ht)
      · exact .reply _ _ _ d df
    · exact proceed_ind (fun t ht => .startError r rfl h2 ht) (fun t ht => .start r rfl h2 h3 ht)
  case schedFillNextBuffer =>
    exact effect_requireFault fun _ => effect_requireFault fun h2 =>
      proceed_ind (fun t ht => .fillError h2.1 ht) (fun t ht => .fill h2.1 h2.2 ht)
  case schedFlushAndWaitBuffer =>
    refine effect_requireFault fun _ => effect_requireFault fun h2 => ?_
    split
    · rename_i h3
      exact proceed_ind (fun t ht => .traffic _ (traffic_sendFrom (.inr ht)))
        (fun t ht => .flushSync h2.1 h3 (traffic_sendFrom (.inl ht)) (fault_sendFrom ht))
    · rename_i h3
      have h4 : s.schN = 2 := (buffers_cases s.sch.variant).resolve_left h3
      split
      · exact .flushEnd h2.1 h4 h2.2 (by assumption)
      · exact .flushWait h2.1 h4 h2.2 (by assumption)
  case schedGetAddressBufferInTx =>
    exact effect_requireFault fun _ => effect_requireStatus fun _ => effect_reply _ _ _ _
  case schedStop =>
    refine effect_requireFault fun h => ?_
    split
    · exact .stopCreated (by assumption)
    · split
      · exact effect_reply _ _ _ _
      · have h3 : s.sch.life = .running := by cases hl : s.sch.life <;> simp_all
        simp only
        split
        · exact .stopWait h3 (by assumption)
        · exact .stopNow h3 (by assumption)
  case schedRelease => exact effect_requireFault fun _ => effect_requireFault fun h => .release h
  case schedGetMissed => exact effect_requireFault fun _ => effect_reply _ _ _ _
  case cmdWrite a v =>
    exact effect_requireFault fun _ => effect_requireFault fun _ => effect_requireFault fun _ =>
      .traffic _ (traffic_writeReg _ _ _)
  case cmdRead a =>
    exact effect_requireFault fun _ => effect_requireFault fun _ => effect_requireFault fun _ =>
      .traffic _ (traffic_readReg _ _)
  case sample w =>
    exact effect_requireFault fun _ => effect_requireFault fun _ =>
      proceed_ind (fun t ht => .traffic _ (traffic_sampleWord (.inr ht)))
        (fun t ht => .traffic _ (traffic_sampleWord (.inl ht)))

end Sys2Proof.Machine
end

