-- ==== Sys2Proof/Laws/Sched.lean ====
section
/-! SUPPORT. The scheduler's shared operations: the number of buffers, the synchronous transmission and the TXE emit step. -/

namespace Sys2Proof.Machine

theorem schN_sync {s : State} (h : s.sch.variant = .sync) : s.schN = 1 := by unfold State.schN; rw [h]; rfl

theorem schN_two {s : State} (h : s.sch.variant ≠ .sync) : s.schN = 2 := by
  unfold State.schN; revert h; cases s.sch.variant <;> simp [Variant.buffers]

theorem busBusy_eq_false (s : State) : s.busBusy = false ↔ ¬ (s.sch.life = .running ∧ s.schN = 2) := by
  unfold State.busBusy; rw [decide_eq_false_iff_not]

/-- The fill source depends on the listed data alone. -/
theorem fillSrc_of_fills (s : State) (e : Env) (n : Nat) (he : e.fills = s.env.fills) :
    ({ s with env := e } : State).fillSrc n = s.fillSrc n := by
  unfold State.fillSrc State.fillSampleAt; rw [← he]

theorem fills_drawResource (s : State) : s.drawResource.1.env.fills = s.env.fills := by
  unfold State.drawResource; split <;> rfl

/-- Filled, fitting entries are sent in order (42_sched.md R204). -/
theorem sendFrom_ok (s : State) (n p : Nat) (ws : List Half) (hm : s.bus.mode = .sample) (hl : ws.length = n)
    (hp : p + n ≤ s.sch.len) (hw : ∀ k, k < n → sampleAt s.buf (p + k) = ws[k]?)
    (hf : ∀ w ∈ ws, w.toNat < 2 ^ s.cfg.sampleBits) :
    s.sendFrom p n = .ok { s with busLog := s.busLog ++ ws.map .sample } := by
  induction n generalizing s p ws with
  | zero =>
    have : ws = [] := List.length_eq_zero_iff.mp hl
    subst this; simp [State.sendFrom]
  | succ n ih =>
    cases ws with
    | nil => simp at hl
    | cons w ws =>
      have h1 := hw 0 (by omega)
      have h2 : s.sendEntry 0 p = .ok { s with busLog := s.busLog ++ [.sample w] } := by
        apply sendEntry_ok s 0 p w (by omega) _ hm
        · simp [State.sampleFits]; exact hf w (by simp)
        · simpa [State.sampleAddr] using h1
      simp only [State.sendFrom, h2]
      rw [ih _ (p + 1) ws (by exact hm) (by simpa using hl) (by simp; omega)]
      · simp
      · intro k hk
        have := hw (k + 1) (by omega)
        simpa [Nat.add_assoc, Nat.add_comm 1 k] using this
      · intro x hx; exact hf x (by simp [hx])

/-- The first entry that cannot be sent ends the transmission; those before it were sent. -/
theorem sendFrom_error (s : State) (n p k : Nat) (ws : List Half) (f : Fault) (t : State) (hm : s.bus.mode = .sample)
    (hl : ws.length = k) (hk : k < n) (hp : p + n ≤ s.sch.len) (hw : ∀ j, j < k → sampleAt s.buf (p + j) = ws[j]?)
    (hf : ∀ w ∈ ws, w.toNat < 2 ^ s.cfg.sampleBits) (ht : t = { s with busLog := s.busLog ++ ws.map .sample })
    (he : t.sendEntry 0 (p + k) = .error (t.raise f)) : s.sendFrom p n = .error (t.raise f) := by
  subst ht
  induction k generalizing s p ws n with
  | zero =>
    have : ws = [] := List.length_eq_zero_iff.mp hl
    subst this
    obtain ⟨n, rfl⟩ : ∃ m, n = m + 1 := ⟨n - 1, by omega⟩
    simp at he
    simp [State.sendFrom, he]
  | succ k ih =>
    obtain ⟨n, rfl⟩ : ∃ m, n = m + 1 := ⟨n - 1, by omega⟩
    cases ws with
    | nil => simp at hl
    | cons w ws =>
      have h1 := hw 0 (by omega)
      have h2 : s.sendEntry 0 p = .ok { s with busLog := s.busLog ++ [.sample w] } := by
        apply sendEntry_ok s 0 p w (by omega) _ hm
        · simp [State.sampleFits]; exact hf w (by simp)
        · simpa [State.sampleAddr] using h1
      simp only [State.sendFrom, h2]
      rw [ih { s with busLog := s.busLog ++ [.sample w] } n (p + 1) ws (by exact hm) (by simpa using hl) (by omega)
        (by simp; omega)]
      · simp
      · intro j hj
        have := hw (j + 1) (by omega)
        simpa [Nat.add_assoc, Nat.add_comm 1 j] using this
      · intro x hx; exact hf x (by simp [hx])
      · simpa [Nat.add_assoc, Nat.add_comm 1 k] using he

/-- A TXE emit step that is not enabled leaves everything (42_sched.md R230). -/
theorem txeEmit_disabled {s : State}
    (h : s.busBusy = false ∨ s.sch.txeActive = false ∨ (s.sch.terminate = true ∧ s.sch.txPos = 0)) : s.txeEmit = s := by
  have : s.emitEnabled = false := by
    unfold State.emitEnabled
    rw [decide_eq_false_iff_not]
    rintro ⟨a, b, c, d⟩
    rcases h with h | h | h
    · rw [busBusy_eq_false] at h; exact h ⟨a, b⟩
    · simp [h] at c
    · exact d h
  unfold State.txeEmit; rw [this]; rfl

/-- The halt step ends TXE exactly when it is enabled (42_sched.md R232). -/
theorem haltEnabled_iff (s : State) : s.haltEnabled = true ↔ s.sch.txeActive = true ∧ s.sch.terminate = true := by
  unfold State.haltEnabled; rw [Bool.and_eq_true]

theorem emitEnabled_iff (s : State) :
    s.emitEnabled = true ↔
      s.busBusy = true ∧ s.sch.txeActive = true ∧ ¬ (s.sch.terminate = true ∧ s.sch.txPos = 0) := by
  unfold State.emitEnabled; rw [decide_eq_true_iff, busBusy_iff, and_assoc]

/-- An enabled TXE emit step sends one entry and then moves on (42_sched.md R230). -/
theorem txeEmit_enabled {s : State} (h1 : s.busBusy = true) (h2 : s.sch.txeActive = true)
    (h3 : ¬ (s.sch.terminate = true ∧ s.sch.txPos = 0)) :
    s.txeEmit = proceed (s.sendEntry s.sch.txCur s.sch.txPos) fun t =>
      if s.sch.txPos + 1 < s.sch.len then { t with sch.txPos := s.sch.txPos + 1 } else t.bufferBoundary := by
  rw [busBusy_iff] at h1
  have : s.emitEnabled = true := by
    unfold State.emitEnabled
    rw [decide_eq_true_iff]
    exact ⟨h1.1, h1.2, h2, h3⟩
  unfold State.txeEmit; rw [this]; rfl

end Sys2Proof.Machine
end

