-- ==== Sys2Proof/Laws/Step.lean ====
section
/-! SUPPORT. What one step can do, said once: an invariant of the machine is proved of each case of `step_cases`. -/

namespace Sys2Proof.Machine

/-- Every meaning answers a next state: no instruction stops by itself. -/
theorem exec_next (i : Instr) (s : State) : ∃ t, exec i s = .next t := by
  cases i <;> exact ⟨_, rfl⟩

/-- Taking a turn off the schedule changes nothing else. -/
theorem nextTurn_fst (s : State) :
    s.nextTurn.1 = { s with turns := s.nextTurn.1.turns, ticks := s.nextTurn.1.ticks } := by
  unfold State.nextTurn
  split <;> rfl

theorem nextTurn_listed (s : State) {t : Turn} {ts : List Turn} (h : s.turns = t :: ts) :
    s.nextTurn = ({ s with turns := ts }, t) := by
  unfold State.nextTurn
  split <;> simp_all

/-- Everything sending a bare wire word can do: it is run as the wire row it stands for, or it is wider than any sample word and
faults. -/
theorem wireWord_cases (s : State) (w : Word) :
    (∃ i, wireWord w s = exec i s ∧ ((∃ a v, i = .cmdWrite a v) ∨ (∃ a, i = .cmdRead a) ∨ ∃ x, i = .sample x)) ∨
      ∃ f ∈ [Fault.lifecycle, .busy, .sampleRange], wireWord w s = .next (s.raise f) := by
  unfold wireWord State.lineCode
  cases s.bus.mode
  · refine .inl ⟨(decFrame s.cfg w).instr, rfl, ?_⟩
    cases h : decFrame s.cfg w with
    | write a v => exact .inl ⟨a, v, by simp [Frame.instr]⟩
    | read a => exact .inr (.inl ⟨a, by simp [Frame.instr]⟩)
  · by_cases hw : w.toNat < 65536
    · simp only [hw, if_true]
      exact .inl ⟨.sample (w.setWidth 16), rfl, .inr (.inr ⟨_, rfl⟩)⟩
    · simp only [hw, if_false]
      right
      unfold State.requireBusLive State.requireBusIdle State.requireFault
      by_cases h1 : s.bus.life = .live
      · by_cases h2 : s.busBusy = false
        · exact ⟨.sampleRange, by simp, by simp [h1, h2]⟩
        · exact ⟨.busy, by simp, by simp [h1, h2]⟩
      · exact ⟨.lifecycle, by simp, by simp [h1]⟩

/-- What one turn can do. -/
inductive TurnCase (u t : State) : Prop where
  /-- HOST takes an operation from the port. -/
  | operation (i : Instr) (rest : List Word) (hw : u.wait = .ready) (hl : u.line = [])
      (hd : decodeWords u.port = .instr i rest)
      (he : exec i { u with port := rest } = .next t)
  /-- HOST's word is no operation. -/
  | rejected (e : Reject) (hw : u.wait = .ready) (hl : u.line = []) (hd : decodeWords u.port = .reject e)
      (ht : t = ({ u with port := u.port.tail }).reply .eOp)
  /-- The agent takes no step, or its step is not enabled. -/
  | nothing (ht : t = u)
  /-- HOST's flush ends. -/
  | flushEnds (hw : u.wait = .flush) (hc : u.sch.txCur = u.sch.fillTgt) (ht : t = u.finishFlush)
  /-- HOST's stop ends. -/
  | stopEnds (hw : u.wait = .stop) (hc : u.sch.txeActive = false) (ht : t = u.finishStop)
  /-- HOST sends a bare wire word. -/
  | wire (i : Instr) (w : Word) (ws : List Word) (hw : u.wait = .ready) (hl : u.line = w :: ws)
      (hi : (∃ a v, i = .cmdWrite a v) ∨ (∃ a, i = .cmdRead a) ∨ ∃ x, i = .sample x)
      (he : exec i { u with line := ws } = .next t)
  /-- HOST's bare wire word is wider than any sample word. -/
  | wireWide (f : Fault) (w : Word) (ws : List Word) (hw : u.wait = .ready) (hl : u.line = w :: ws)
      (hf : f ∈ [Fault.lifecycle, .busy, .sampleRange])
      (ht : t = ({ u with line := ws }).raise f)
  /-- TXE emits. -/
  | emit (ht : t = u.txeEmit)
  /-- TXE halts. -/
  | halt (ht : t = u.txeHalt)
  /-- FLAGMON reports pin x. -/
  | flagmon (x : FlagPin) (ht : t = u.flagmonStep x)
  /-- ENV toggles pin x. -/
  | env (x : FlagPin) (ht : t = u.envStep x)

theorem runTurn_cases {u t : State} {turn : Turn} (h : runTurn u turn = .next t) : TurnCase u t := by
  cases turn with
  | host =>
    simp only [runTurn] at h
    cases hw : u.wait with
    | ready =>
      have hh : hostTurn u = hostReady u := by unfold hostTurn; rw [hw]
      rw [hh] at h
      unfold hostReady at h
      split at h
      · rename_i w ws hl
        rcases wireWord_cases { u with line := ws } w with ⟨i, hd, hi⟩ | ⟨f, hf, hd⟩
        · exact .wire i w ws hw hl hi (hd ▸ h)
        · exact .wireWide f w ws hw hl hf (Host.Outcome.next.inj (hd.symm.trans h)).symm
      · rename_i hl
        unfold hostOperation at h
        split at h
        · rename_i i rest hd
          exact .operation i rest hw hl hd h
        · rename_i e hd
          exact .rejected e hw hl hd (Host.Outcome.next.inj h).symm
        · exact .nothing (Host.Outcome.next.inj h).symm
    | flush =>
      have hh : hostTurn u = .next (if u.sch.txCur = u.sch.fillTgt then u.finishFlush else u) := by
        unfold hostTurn State.waitOver State.resume
        rw [hw]
        simp only [decide_eq_true_eq]
      rw [hh] at h
      have ht := Host.Outcome.next.inj h
      by_cases hc : u.sch.txCur = u.sch.fillTgt
      · rw [if_pos hc] at ht
        exact .flushEnds hw hc ht.symm
      · rw [if_neg hc] at ht
        exact .nothing ht.symm
    | stop =>
      have hh : hostTurn u = .next (if u.sch.txeActive = false then u.finishStop else u) := by
        unfold hostTurn State.waitOver State.resume
        rw [hw]
        simp only [Bool.not_eq_true']
      rw [hh] at h
      have ht := Host.Outcome.next.inj h
      by_cases hc : u.sch.txeActive = false
      · rw [if_pos hc] at ht
        exact .stopEnds hw hc ht.symm
      · rw [if_neg hc] at ht
        exact .nothing ht.symm
  | txeEmit => simp only [runTurn, Host.Outcome.next.injEq] at h; exact .emit h.symm
  | txeHalt => simp only [runTurn, Host.Outcome.next.injEq] at h; exact .halt h.symm
  | flagmon x => simp only [runTurn, Host.Outcome.next.injEq] at h; exact .flagmon x h.symm
  | env x => simp only [runTurn, Host.Outcome.next.injEq] at h; exact .env x h.symm

/-- Every turn answers a next state: no agent stops by itself. -/
theorem runTurn_next (u : State) (turn : Turn) : ∃ t, runTurn u turn = .next t := by
  cases turn with
  | host =>
    simp only [runTurn, hostTurn]
    split
    · unfold hostReady
      split
      · rename_i w ws _
        rcases wireWord_cases { u with line := ws } w with ⟨i, hd, -⟩ | ⟨f, -, hd⟩ <;> rw [hd]
        · exact exec_next _ _
        · exact ⟨_, rfl⟩
      · unfold hostOperation
        split
        · exact exec_next _ _
        · exact ⟨_, rfl⟩
        · exact ⟨_, rfl⟩
    · exact ⟨_, rfl⟩
    · exact ⟨_, rfl⟩
  | txeEmit => exact ⟨_, rfl⟩
  | txeHalt => exact ⟨_, rfl⟩
  | flagmon x => exact ⟨_, rfl⟩
  | env x => exact ⟨_, rfl⟩

/-- A step in a state without a fault whose run has a meaning is the turn of the agent that moves. -/
theorem step_running {s : State} (hf : s.fault = none) (hv : s.runVoid = false) :
    step s = runTurn s.nextTurn.1 s.nextTurn.2 := by
  unfold step
  rw [hf, hv]
  rfl

/-- Such a step answers a next state. -/
theorem step_total {s : State} (hf : s.fault = none) (hv : s.runVoid = false) : ∃ t, step s = .next t := by
  rw [step_running hf hv]; exact runTurn_next _ _

/-- No step is taken after a fault or after E_REFUSED. -/
theorem step_next {s t : State} (h : step s = .next t) : s.fault = none ∧ s.runVoid = false := by
  unfold step at h
  split at h
  · cases h
  · split at h
    · cases h
    · exact ⟨by assumption, by simp_all⟩

/-- Everything a step that answers a next state can have done. -/
theorem step_cases {s t : State} (h : step s = .next t) :
    s.fault = none ∧ s.runVoid = false ∧ ∃ ts n, TurnCase { s with turns := ts, ticks := n } t := by
  have hn := step_next h
  rw [step_running hn.1 hn.2] at h
  refine ⟨hn.1, hn.2, s.nextTurn.1.turns, s.nextTurn.1.ticks, ?_⟩
  rw [← nextTurn_fst]
  exact runTurn_cases h

/-! ## Runs -/

/-- A run goes on from the state its first step answers. -/
theorem run_next (M : Host.Core) (k : Nat) (s t : M.State) (h : M.step s = .next t) : M.run (k + 1) s = M.run k t := by
  simp only [Host.Core.run, h]

theorem run_fault (M : Host.Core) (k : Nat) (s : M.State) (f : M.Fault) (h : M.step s = .fault f) :
    M.run (k + 1) s = .fault f := by
  simp only [Host.Core.run, h]

theorem run_refused (M : Host.Core) (k : Nat) (s : M.State) (r : M.Refusal) (h : M.step s = .refused r) :
    M.run (k + 1) s = .refused r := by
  simp only [Host.Core.run, h]

theorem run_succ (k : Nat) (s t : State) (h : step s = .next t) : core.run (k + 1) s = core.run k t :=
  run_next core k s t h

/-- Runs compose. -/
theorem run_add (a b : Nat) (s t : State) (h : core.run a s = .next t) : core.run (a + b) s = core.run b t := by
  induction a generalizing s with
  | zero =>
    simp only [Nat.zero_add]
    have h : Host.Outcome.next s = Host.Outcome.next t := h
    rw [Host.Outcome.next.inj h]
  | succ a ih =>
    rw [Nat.add_right_comm]
    cases hs : step s with
    | next u => rw [run_succ _ _ _ hs] at h ⊢; exact ih u h
    | fault f => cases (run_fault core a s f hs).symm.trans h
    | refused r => cases (run_refused core a s r hs).symm.trans h

end Sys2Proof.Machine
end

