-- ==== Sys2Proof/Laws/Fair.lean ====
section
/-! SUPPORT. Endless runs and weak fairness: what every state of an endless run is like, how a run is made endless, and what
fairness gives. -/

namespace Sys2Proof.Machine

/-- No state of an endless run records a fault, and none comes after E_REFUSED. -/
theorem EndlessRun.running {r : Nat → State} (h : EndlessRun r) (k : Nat) : (r k).fault = none ∧ (r k).runVoid = false :=
  step_next (h k)

/-- Each step of an endless run is the turn of the agent that moves. -/
theorem EndlessRun.turn {r : Nat → State} (h : EndlessRun r) (k : Nat) :
    runTurn (r k).nextTurn.1 (r k).nextTurn.2 = .next (r (k + 1)) := by
  rw [← step_running (h.running k).1 (h.running k).2, h k]

/-- What a step keeps holds from any point of an endless run on. -/
theorem EndlessRun.keeps {r : Nat → State} (h : EndlessRun r) {P : State → Prop} {k : Nat} (h0 : P (r k))
    (hs : ∀ u v, P u → step u = .next v → P v) : ∀ j, k ≤ j → P (r j) := by
  intro j hj
  induction j, hj using Nat.le_induction with
  | base => exact h0
  | succ j _ ih => exact hs _ _ ih (h j)

/-- The run from `s` that follows the steps, standing still where there is none. -/
def runFrom (s : State) : Nat → State
  | 0 => s
  | k + 1 =>
    match step (runFrom s k) with
    | .next t => t
    | .fault _ => runFrom s k
    | .refused _ => runFrom s k

/-- It is endless if each of its states has a next one. -/
theorem endlessRun_runFrom {s : State} (h : ∀ k, ∃ t, step (runFrom s k) = .next t) : EndlessRun (runFrom s) := by
  intro k
  obtain ⟨t, ht⟩ := h k
  simp only [runFrom, ht]

/-- A step that stays enabled until it is taken is taken: fairness as a search for the first time it is. -/
theorem WeaklyFair.taken {enabled : State → Bool} {turn : Turn} {r : Nat → State} (h : WeaklyFair enabled turn r) {k : Nat}
    (he : ∀ j, k ≤ j → (∀ i, k ≤ i → i < j → (r i).nextTurn.2 ≠ turn) → enabled (r j) = true) :
    ∃ j, k ≤ j ∧ (r j).nextTurn.2 = turn := by
  by_contra hn
  push Not at hn
  obtain ⟨j, hj, ht⟩ := h k fun j hj => he j hj fun i hi _ => hn i hi
  exact hn j hj ht

/-- A pending edge does not stay pending for ever: FLAGMON reports the pins as they are then, or its step is no longer enabled
(60_exceptions.md R262). -/
theorem flagmon_reports {r : Nat → State} (h : EndlessRun r) (hf : FlagmonWeaklyFair r) (x : FlagPin) (k : Nat) :
    ∃ j, k ≤ j ∧ ((r j).flagmonEnabled x = false ∨ (r (j + 1)).cbLog = (r j).cbLog ++ [(r j).flags]) := by
  by_cases ha : ∀ j, k ≤ j → (r j).flagmonEnabled x = true
  · obtain ⟨j, hj, ht⟩ := hf x k ha
    refine ⟨j, hj, .inr ?_⟩
    have hs := h.turn j
    rw [ht, nextTurn_fst] at hs
    have he : ({ r j with turns := (r j).nextTurn.1.turns, ticks := (r j).nextTurn.1.ticks } : State).flagmonEnabled x = true :=
      ha j hj
    simp only [runTurn, State.flagmonStep, he, if_true, Host.Outcome.next.injEq] at hs
    rw [← hs]
  · push Not at ha
    obtain ⟨j, hj, he⟩ := ha
    exact ⟨j, hj, .inl (by simpa using he)⟩

end Sys2Proof.Machine
end

