-- ==== Sys2Proof/Laws/PerInstr.lean ====
section
/-! SUPPORT. The family of per-instruction facts named in LAWS.json: the leading field of an instruction's encoding, with the
defaults of 00_scope.md R8, is the one spec/opcode_table.json fixes for its row (30_encoding.md R91, R101 to R103). -/

/-- The field that tells rows of one encoding space apart: the operation code of a host operation word, the read/write bit of a
command frame, nothing for a sample word. -/
def Sys2Proof.Laws.OpcodeField.leading : Sys2Proof.Code → Option Nat
  | .host [] => none
  | .host (w :: _) => some (Sys2Proof.opField w).toNat
  | .frame w => some (if w.getLsbD 15 then 1 else 0)
  | .sample _ => none

/-- What the opcode table fixes for each row. -/
def Sys2Proof.Laws.OpcodeField.row : Sys2Proof.Instr → Option Nat
  | .busCreate _ => some 0x01
  | .busRelease => some 0x02
  | .busConfigure _ _ => some 0x03
  | .busSetSampleMode _ => some 0x04
  | .busWriteCommand _ _ => some 0x05
  | .busReadCommand _ => some 0x06
  | .busTransferSingleSample _ => some 0x07
  | .busTransferSampleBuffer _ => some 0x08
  | .busRateToBits _ => some 0x09
  | .busBitsToRate _ => some 0x0A
  | .busGetEffectiveRate => some 0x0B
  | .afeCreate => some 0x10
  | .afeRelease => some 0x11
  | .afeActivateBlocks _ => some 0x12
  | .afeSetGainTx _ => some 0x13
  | .afeSetGainsRx _ _ => some 0x14
  | .afeSetCalibration _ => some 0x15
  | .afeSetStandby _ => some 0x16
  | .afeGetRevision => some 0x17
  | .afeGetState => some 0x18
  | .afeSetFlagsCallback _ => some 0x19
  | .afeIsPresent => some 0x1A
  | .schedCreate _ _ => some 0x20
  | .schedStart => some 0x21
  | .schedFillNextBuffer => some 0x22
  | .schedFlushAndWaitBuffer => some 0x23
  | .schedGetAddressBufferInTx => some 0x24
  | .schedStop => some 0x25
  | .schedRelease => some 0x26
  | .schedGetMissed => some 0x27
  | .cmdWrite _ _ => some 0
  | .cmdRead _ => some 1
  | .sample _ => none

/-- The leading field of `i`'s encoding is its row's. -/
def Sys2Proof.Laws.OpcodeField.Statement (i : Sys2Proof.Instr) : Prop :=
  Sys2Proof.Laws.OpcodeField.leading (Sys2Proof.encode Sys2Proof.Config.default i) = Sys2Proof.Laws.OpcodeField.row i

namespace Sys2Proof.Laws.OpcodeField

theorem of_hostWord (op a b c : Byte) (ws : List Word) : leading (.host (hostWord op a b c :: ws)) = some op.toNat := by
  rw [leading, opField_hostWord]

theorem of_hostWordW (op a : Byte) (w : Half) (ws : List Word) :
    leading (.host (hostWordW op a w :: ws)) = some op.toNat := by
  rw [leading, opField_hostWordW]

theorem busCreate (a : Byte) : Statement (.busCreate a) := of_hostWord _ _ _ _ _
theorem busRelease : Statement .busRelease := of_hostWord _ _ _ _ _
theorem busConfigure (a : Byte) (w : Half) : Statement (.busConfigure a w) := of_hostWordW _ _ _ _
theorem busSetSampleMode (a : Byte) : Statement (.busSetSampleMode a) := of_hostWord _ _ _ _ _
theorem busWriteCommand (a b : Byte) : Statement (.busWriteCommand a b) := of_hostWord _ _ _ _ _
theorem busReadCommand (a : Byte) : Statement (.busReadCommand a) := of_hostWord _ _ _ _ _
theorem busTransferSingleSample (w : Half) : Statement (.busTransferSingleSample w) := of_hostWordW _ _ _ _
theorem busTransferSampleBuffer (samples : List Half) : Statement (.busTransferSampleBuffer samples) := of_hostWordW _ _ _ _
theorem busRateToBits (e : Word) : Statement (.busRateToBits e) := of_hostWord _ _ _ _ _
theorem busBitsToRate (a : Byte) : Statement (.busBitsToRate a) := of_hostWord _ _ _ _ _
theorem busGetEffectiveRate : Statement .busGetEffectiveRate := of_hostWord _ _ _ _ _
theorem afeCreate : Statement .afeCreate := of_hostWord _ _ _ _ _
theorem afeRelease : Statement .afeRelease := of_hostWord _ _ _ _ _
theorem afeActivateBlocks (m : Byte) : Statement (.afeActivateBlocks m) := of_hostWord _ _ _ _ _
theorem afeSetGainTx (g : Byte) : Statement (.afeSetGainTx g) := of_hostWord _ _ _ _ _
theorem afeSetGainsRx (g1 g2 : Byte) : Statement (.afeSetGainsRx g1 g2) := of_hostWord _ _ _ _ _
theorem afeSetCalibration (c : Byte) : Statement (.afeSetCalibration c) := of_hostWord _ _ _ _ _
theorem afeSetStandby (a : Byte) : Statement (.afeSetStandby a) := of_hostWord _ _ _ _ _
theorem afeGetRevision : Statement .afeGetRevision := of_hostWord _ _ _ _ _
theorem afeGetState : Statement .afeGetState := of_hostWord _ _ _ _ _
theorem afeSetFlagsCallback (a : Byte) : Statement (.afeSetFlagsCallback a) := of_hostWord _ _ _ _ _
theorem afeIsPresent : Statement .afeIsPresent := of_hostWord _ _ _ _ _
theorem schedCreate (v : Byte) (w : Half) : Statement (.schedCreate v w) := of_hostWordW _ _ _ _
theorem schedStart : Statement .schedStart := of_hostWord _ _ _ _ _
theorem schedFillNextBuffer : Statement .schedFillNextBuffer := of_hostWord _ _ _ _ _
theorem schedFlushAndWaitBuffer : Statement .schedFlushAndWaitBuffer := of_hostWord _ _ _ _ _
theorem schedGetAddressBufferInTx : Statement .schedGetAddressBufferInTx := of_hostWord _ _ _ _ _
theorem schedStop : Statement .schedStop := of_hostWord _ _ _ _ _
theorem schedRelease : Statement .schedRelease := of_hostWord _ _ _ _ _
theorem schedGetMissed : Statement .schedGetMissed := of_hostWord _ _ _ _ _
theorem cmdWrite (addr : RegAddr) (data : Byte) : Statement (.cmdWrite addr data) := by
  have h : (encWrite Config.default addr data).getLsbD 15 = false := by
    simp [encWrite, Config.frameWord, fieldAt, Config.default]
  simp only [Statement, encode, leading, row, h]
  rfl
theorem cmdRead (addr : RegAddr) : Statement (.cmdRead addr) := by
  have h : (encRead Config.default addr).getLsbD 15 = true := by
    simp [encRead, Config.frameWord, fieldAt, Config.default]
  simp only [Statement, encode, leading, row, h]
  rfl
theorem sample (w : Half) : Statement (.sample w) := rfl

end Sys2Proof.Laws.OpcodeField
end

