-- ==== Sys2Proof/Laws/Rate.lean ====
section
/-! SUPPORT. The rate functions as inequalities: what a rung's rate is, and which rung `rateToBits` picks. -/

namespace Sys2Proof.Machine

theorem eff_eq (k : Nat) : eff k = 10 ^ 9 / (875 * 2 ^ k + 165) := by
  have h : (0 : Rat) < 2 ^ k := by positivity
  unfold eff bitsToRate rung Config.wordOverhead Config.busTopBps Config.csPulse
  field_simp
  ring

theorem eff_pos (k : Nat) : 0 < eff k := by rw [eff_eq]; positivity

theorem eff_lt (k : Nat) : eff k < 10 ^ 9 / 165 := by
  rw [eff_eq]
  apply div_lt_div_of_pos_left (by norm_num) (by norm_num)
  have : (0 : Rat) < 2 ^ k := by positivity
  linarith

theorem eff_antitone {i j : Nat} (h : i ≤ j) : eff j ≤ eff i := by
  rw [eff_eq, eff_eq]
  apply div_le_div_of_nonneg_left (by norm_num) (by positivity)
  have : (2 : Rat) ^ i ≤ 2 ^ j := pow_le_pow_right₀ (by norm_num) h
  linarith

/-- A whole number of samples per second against a rung's rate. -/
theorem natCast_le_eff (e k : Nat) : (e : Rat) ≤ eff k ↔ e * (875 * 2 ^ k + 165) ≤ 10 ^ 9 := by
  rw [eff_eq, le_div_iff₀ (by positivity)]
  exact_mod_cast Iff.rfl

theorem rung_pos (k : Nat) : 0 < rung k := by unfold rung Config.busTopBps; positivity

theorem rung_antitone {i j : Nat} (h : i ≤ j) : rung j ≤ rung i := by
  unfold rung Config.busTopBps
  exact div_le_div_of_nonneg_left (by norm_num) (by positivity) (pow_le_pow_right₀ (by norm_num) h)

/-- The ideal bit rate of `r` is at most `b` exactly if the rate of `b` is at least `r`. -/
theorem idealBits_le_iff {b r : Rat} (hb : 0 < b) (h : 0 < r) (h2 : r < 10 ^ 9 / 165) :
    idealBits r ≤ b ↔ r ≤ bitsToRate b := by
  have h3 : (165 : Rat) / 10 ^ 9 < 1 / r := by
    rw [div_lt_div_iff₀ (by positivity) h]
    rw [lt_div_iff₀ (by norm_num)] at h2
    linarith
  have h5 : (0 : Rat) < 1 / r - 165 / 10 ^ 9 := by linarith
  unfold idealBits bitsToRate Config.wordOverhead Config.csPulse
  rw [div_le_iff₀ h5, le_div_iff₀ (by positivity)]
  constructor
  · intro hh
    have : 21 / 2 / b ≤ 1 / r - 165 / 10 ^ 9 := by rw [div_le_iff₀ hb]; linarith
    have : r * (21 / 2 / b + 165 / 10 ^ 9) ≤ r * (1 / r) := by apply mul_le_mul_of_nonneg_left <;> linarith
    rwa [mul_one_div_cancel h.ne'] at this
  · intro hh
    have : 21 / 2 / b + 165 / 10 ^ 9 ≤ 1 / r := by rw [le_div_iff₀ h]; linarith
    have : 21 / 2 / b ≤ 1 / r - 165 / 10 ^ 9 := by linarith
    rw [div_le_iff₀ hb] at this; linarith

/-- `slowestRung` answers the largest index whose rung is at least the bit rate asked for. -/
theorem slowestRung_eq_some (b : Rat) (n k : Nat) :
    slowestRung b n = some k ↔ k < n ∧ b ≤ rung k ∧ ∀ j, k < j → j < n → rung j < b := by
  induction n with
  | zero => simp [slowestRung]
  | succ n ih =>
    unfold slowestRung
    split
    · rename_i h
      constructor
      · rintro ⟨⟩; exact ⟨by omega, h, fun j h1 h2 => by omega⟩
      · rintro ⟨h1, h2, h3⟩
        by_cases hk : k = n
        · rw [hk]
        · exact absurd h (not_le.mpr (h3 n (by omega) (by omega)))
    · rename_i h
      rw [ih]
      push Not at h
      constructor
      · rintro ⟨h1, h2, h3⟩
        refine ⟨by omega, h2, fun j hj hj2 => ?_⟩
        by_cases hk : j = n
        · rw [hk]; exact h
        · exact h3 j hj (by omega)
      · rintro ⟨h1, h2, h3⟩
        have : k ≠ n := by rintro rfl; exact absurd h2 (not_le.mpr h)
        exact ⟨by omega, h2, fun j hj hj2 => h3 j hj (by omega)⟩

theorem slowestRung_eq_none (b : Rat) (n : Nat) : slowestRung b n = none ↔ ∀ j, j < n → rung j < b := by
  induction n with
  | zero => simp [slowestRung]
  | succ n ih =>
    unfold slowestRung
    split
    · rename_i h
      simp; exact ⟨n, by omega, h⟩
    · rename_i h
      push Not at h
      rw [ih]
      constructor
      · intro h1 j hj
        by_cases hk : j = n
        · rw [hk]; exact h
        · exact h1 j (by omega)
      · intro h1 j hj; exact h1 j (by omega)

/-- `rateToBits` answers the slowest rung whose rate is at least the request. -/
theorem rateToBits_eq_some {n : Nat} {r : Rat} {k : Nat} :
    rateToBits n r = some k ↔ 0 < r ∧ r ≤ eff k ∧ k < n ∧ ∀ j, k < j → j < n → eff j < r := by
  unfold rateToBits
  have hc : 1 / Config.csPulse = 10 ^ 9 / 165 := by unfold Config.csPulse; norm_num
  rw [hc]
  split
  · rename_i h
    constructor
    · rintro ⟨⟩
    · rintro ⟨h1, h2, _⟩
      have := eff_lt k
      rcases h with h | h <;> linarith
  · rename_i h
    push Not at h
    have key : ∀ j, rung j < idealBits r ↔ eff j < r := fun j => by
      unfold eff; rw [← not_le, ← not_le, idealBits_le_iff (rung_pos j) h.1 h.2]
    split
    · rename_i h2
      constructor
      · rintro ⟨⟩
      · rintro ⟨h3, h4, _⟩
        have := (key 0).mp h2
        have := eff_antitone (Nat.zero_le k)
        linarith
    · rw [slowestRung_eq_some]
      have := idealBits_le_iff (rung_pos k) h.1 h.2
      constructor
      · rintro ⟨h1, h2, h3⟩
        exact ⟨h.1, this.mp h2, h1, fun j a b => (key j).mp (h3 j a b)⟩
      · rintro ⟨_, h2, h1, h3⟩
        exact ⟨h1, this.mpr h2, fun j a b => (key j).mpr (h3 j a b)⟩

/-- `rateToBits` answers "unsupported" exactly if no rung is fast enough. -/
theorem rateToBits_eq_none {n : Nat} {r : Rat} (hr : 0 < r) : rateToBits n r = none ↔ ∀ j, j < n → eff j < r := by
  constructor
  · intro h j hj
    by_contra hc
    push Not at hc
    have hr2 : r < 10 ^ 9 / 165 := lt_of_le_of_lt hc (eff_lt j)
    unfold rateToBits at h
    have hcs : 1 / Config.csPulse = 10 ^ 9 / 165 := by unfold Config.csPulse; norm_num
    rw [hcs, if_neg (by push Not; exact ⟨hr, hr2⟩)] at h
    split at h
    · rename_i h2
      have := (idealBits_le_iff (rung_pos 0) hr hr2).mpr (le_trans hc (eff_antitone (Nat.zero_le j)))
      linarith
    · rw [slowestRung_eq_none] at h
      exact absurd ((idealBits_le_iff (rung_pos j) hr hr2).mpr hc) (not_le.mpr (h j hj))
  · intro h
    cases hc : rateToBits n r with
    | none => rfl
    | some k =>
      obtain ⟨_, h2, h3, _⟩ := rateToBits_eq_some.mp hc
      exact absurd h2 (not_le.mpr (h k h3))

end Sys2Proof.Machine
end

