-- ==== Sys2Proof/Tests/Slice0.lean ====
section
/-! SUPPORT. Tests, with expected values from the words and vectors of 95_test_vectors.md and from the rules named at each, and
one `witness_…` theorem per statement with hypotheses: concrete states and operands that meet them, clause by clause, at
boundary values. -/

namespace Sys2Proof.Machine

/-! ## Small states -/

/-- A live bus. -/
def tBus (emul : Bool) (mode : BusMode) : State :=
  { State.reset with
    bus := { life := .live, mode := mode, rung := 0, iwd := 0, emul := emul }
    modeSel := decide (mode = .sample) }

/-- A live AFE over a live bus in COMMAND mode, with some registers. -/
def tAfe (shadow : List Host.Cell) : State :=
  { tBus true .command with afe := { State.reset.afe with life := .live }, shadow := shadow }

/-- A live AFE over a physical chip that will send `received`. -/
def tChip (received : List Word) : State :=
  { tBus false .command with
    afe := { State.reset.afe with life := .live }
    env := { State.reset.env with received := received } }

/-- ENV's answers `pins` to resource requests and the chip's answers `received`, over a live physical bus. -/
def tPins (pins : List Bool) (received : List Word) : State :=
  { tBus false .command with env := { State.reset.env with resources := pins, received := received } }

/-- A created scheduler over a bus in SAMPLE mode. -/
def tMade (emul : Bool) (v : Variant) (len : Nat) (fills : List (List Half)) : State :=
  { tBus emul .sample with
    sch := { State.reset.sch with life := .created, variant := v, len := len }
    env := { State.reset.env with fills := fills, resources := [true] } }

/-- A running SYNC scheduler with S = 2. -/
def tSync (phase : Phase) (buf : List (Nat × Half)) : State :=
  { tMade true .sync 2 [[7, 8]] with
    sch := { State.reset.sch with life := .running, variant := .sync, len := 2, phase := phase }
    buf := buf }

/-- The state of vector 2.9: WORKER, S = 2, buf[0] = [0, 1], buf[1] = [10, 11]. -/
def tDual (txPos : Nat) (fresh : FreshBits) (missed : Nat) (terminate : Bool) : State :=
  { tMade true .worker 2 [[0, 1], [10, 11]] with
    sch :=
      { life := .running, variant := .worker, len := 2, fillTgt := 1, txCur := 0, txPos := txPos, fresh := fresh,
        phase := .needFill, missed := missed, terminate := terminate, txeActive := true }
    buf := [(0, 0), (1, 1), (2, 10), (3, 11)]
    fillCount := 1 }

/-- Two buffers, the one just filled not yet taken. -/
def tFilled (fillTgt : Fin 2) : State :=
  { tDual 0 ⟨true, true⟩ 0 false with sch.phase := .needFlush, sch.fillTgt := fillTgt }

/-- `s` with one turn ahead. -/
def tTurn (t : Turn) (s : State) : State := { s with turns := [t] }

/-- The next state, if there is one. -/
def after : Host.Outcome State Fault Refusal → Option State
  | .next t => some t
  | .fault _ => none
  | .refused _ => none

/-- The statuses, values, fault, bus events of a next state. -/
def told (o : Host.Outcome State Fault Refusal) : Option (List Result × Option Fault × List BusEvent) :=
  (after o).map fun t => (t.results, t.fault, t.busLog)

/-! ## Well-formedness: what has no encoding is refused -/

theorem test_wf_sample_too_wide : (Instr.sample 0x400).wellFormed Config.default = false := by decide
theorem test_wf_sample_widest : (Instr.sample 0x3FF).wellFormed Config.default = true := by decide
theorem wf_buffer (c : Config) (ss : List Half) (n : Nat) (h : ss.length = n) :
    (Instr.busTransferSampleBuffer ss).wellFormed c = decide (n < 65536) := by subst h; rfl
theorem test_wf_buffer_too_long :
    (Instr.busTransferSampleBuffer (List.replicate 65536 0)).wellFormed Config.default = false := by
  rw [wf_buffer _ _ 65536 List.length_replicate]; decide
theorem test_wf_buffer_longest :
    (Instr.busTransferSampleBuffer (List.replicate 65535 0)).wellFormed Config.default = true := by
  rw [wf_buffer _ _ 65535 List.length_replicate]; decide

theorem test_wf_address_too_wide :
    (Instr.cmdWrite 0x80 0).wellFormed Config.default = false ∧ (Instr.cmdRead 0x80).wellFormed Config.default = false ∧
      (Instr.cmdRead 0x7F).wellFormed Config.default = true := by decide

/-- A machine with an 8-bit address field and 4-bit registers (90_conflicts.md C5): an 18-bit frame, `data` above `addr`. -/
def tWide : Config :=
  { Config.default with
    cmdWordBits := 18, frameAddrBits := 8, regDataBits := 4, frame := { rw := 0, addrLo := 1, dataLo := 9 }
    places :=
      { pa := 3, tx := 2, rx := 1, dac := 0, zc := 3, ref1 := 2, ref2 := 1, paOut := 0, rx1gLo := 2, rx2gLo := 0,
        txgLo := 1, txCal := 1, rxCal := 2, txPgaCal := 3 } }

theorem test_wf_data_too_wide :
    (Instr.cmdWrite 0xFF 0x10).wellFormed tWide = false ∧ (Instr.cmdWrite 0xFF 0x0F).wellFormed tWide = true := by decide

/-- Admissible parameters: the defaults; not the overlapping gain fields of `tWide`. -/
theorem test_admissible :
    Config.default.admissible = true ∧ tWide.frameAdmissible = true ∧ tWide.placesAdmissible = false := by decide

/-! ## Words written out from 30_encoding.md R92, R93, R96, R101 to R103 -/

theorem test_decode_bus :
    decodeWords [0x01000001] = .instr (.busCreate 1) [] ∧
      decodeWords [0x02000000] = .instr .busRelease [] ∧
      decodeWords [0x030F1234] = .instr (.busConfigure 15 0x1234) [] ∧
      decodeWords [0x04000001] = .instr (.busSetSampleMode 1) [] ∧
      decodeWords [0x05007FFF] = .instr (.busWriteCommand 0x7F 0xFF) [] ∧
      decodeWords [0x0600000B] = .instr (.busReadCommand 0x0B) [] ∧
      decodeWords [0x070003FF] = .instr (.busTransferSingleSample 0x3FF) [] ∧
      decodeWords [0x08000002, 5, 6, 0x02000000] = .instr (.busTransferSampleBuffer [5, 6]) [0x02000000] ∧
      decodeWords [0x08000000] = .instr (.busTransferSampleBuffer []) [] ∧
      decodeWords [0x09000000, 0x0007A120] = .instr (.busRateToBits 500000) [] ∧
      decodeWords [0x0A000001] = .instr (.busBitsToRate 1) [] ∧
      decodeWords [0x0B000000] = .instr .busGetEffectiveRate [] := by decide

theorem test_decode_afe :
    decodeWords [0x10000000] = .instr .afeCreate [] ∧
      decodeWords [0x11000000] = .instr .afeRelease [] ∧
      decodeWords [0x1200002F] = .instr (.afeActivateBlocks 0x2F) [] ∧
      decodeWords [0x13000003] = .instr (.afeSetGainTx 3) [] ∧
      decodeWords [0x14000103] = .instr (.afeSetGainsRx 1 3) [] ∧
      decodeWords [0x15000002] = .instr (.afeSetCalibration 2) [] ∧
      decodeWords [0x16000001] = .instr (.afeSetStandby 1) [] ∧
      decodeWords [0x17000000] = .instr .afeGetRevision [] ∧
      decodeWords [0x18000000] = .instr .afeGetState [] ∧
      decodeWords [0x19000001] = .instr (.afeSetFlagsCallback 1) [] ∧
      decodeWords [0x1A000000] = .instr .afeIsPresent [] := by decide

theorem test_decode_sched :
    decodeWords [0x20020800] = .instr (.schedCreate 2 2048) [] ∧
      decodeWords [0x21000000] = .instr .schedStart [] ∧
      decodeWords [0x22000000] = .instr .schedFillNextBuffer [] ∧
      decodeWords [0x23000000] = .instr .schedFlushAndWaitBuffer [] ∧
      decodeWords [0x24000000] = .instr .schedGetAddressBufferInTx [] ∧
      decodeWords [0x25000000] = .instr .schedStop [] ∧
      decodeWords [0x26000000] = .instr .schedRelease [] ∧
      decodeWords [0x27000000] = .instr .schedGetMissed [] := by decide

/-- Vectors 2.1. -/
theorem test_decode_wire :
    encWrite Config.default 0x02 0x36 = 0x0236#32 ∧ encWrite Config.default 0x7F 0xFF = 0x7FFF#32 ∧
      encRead Config.default 0x0B = 0x8B00#32 ∧
      decode Config.default (.frame 0x0B02) = .instr (.cmdWrite 0x0B 0x02) [] ∧
      decode Config.default (.frame 0x8B5A) = .instr (.cmdRead 0x0B) [] ∧
      decode Config.default (.frame 0xFFFF) = .instr (.cmdRead 0x7F) [] ∧
      decode Config.default (.sample 0x3FF) = .instr (.sample 0x3FF) [] := by decide

/-- Other field positions (30_encoding.md R91): `rw` in bit 0, `addr` 0xA5 in bits 8:1, `data` 0x9 in bits 12:9. -/
theorem test_decode_wide :
    encWrite tWide 0xA5 0x9 = 0x0134A#32 ∧ encRead tWide 0xA5 = 0x0014B#32 ∧
      decode tWide (.frame 0x0134A) = .instr (.cmdWrite 0xA5 0x9) [] ∧
      decode tWide (.frame 0x0014B) = .instr (.cmdRead 0xA5) [] := by decide

/-- The numbers of 60_exceptions.md R250 and R254 (92_eei_decisions.md D3). -/
theorem test_code_numbers : Status.ok.code = 0 ∧ Status.eRefused.code = 6 ∧ Fault.integrity.code = 1 ∧ Fault.unwritten.code = 7 := by
  decide

/-- 70_reset_and_hazards.md R305: a run whose last operation has not returned has not ended. -/
theorem test_endedProperly :
    State.reset.endedProperly = true ∧ ({ State.reset with port := [0x01000001] } : State).endedProperly = false ∧
      ({ State.reset with line := [0x0236] } : State).endedProperly = false ∧
      ({ State.reset with fault := some .seq } : State).endedProperly = false := by decide

/-- Vectors 2.2, the E_OP rows, and an operation whose words are not all there. -/
theorem test_decode_rejects :
    decodeWords [0x00000000] = .reject .unknownOperation ∧
      decodeWords [0x1B000000] = .reject .unknownOperation ∧
      decodeWords [0xFF000000] = .reject .unknownOperation ∧
      decodeWords [0x01000100] = .reject .mustBeZero ∧
      decodeWords [0x02000001] = .reject .mustBeZero ∧
      decodeWords [0x07010005] = .reject .mustBeZero ∧
      decodeWords [0x08000002, 5, 0x00010006] = .reject .extensionHighBits ∧
      decodeWords [0x08000002, 5] = .incomplete ∧ decodeWords [] = .incomplete := by decide

theorem test_table_words :
    decodeTableWord 32 0x14000201 = some (.afeSetGainsRx 2 1) ∧
      decodeTableWord 64 0x0007A12009000000 = some (.busRateToBits 500000) ∧
      decodeTableWord 32 0x09000000 = some (.busRateToBits 0) ∧
      decodeTableWord 32 0x08000002 = some (.busTransferSampleBuffer [0, 0]) ∧
      decodeTableWord 16 0x0236 = some (.cmdWrite 0x02 0x36) ∧
      decodeTableWord 16 0x8B00 = some (.cmdRead 0x0B) ∧
      decodeTableWord 10 0x1FF = some (.sample 0x1FF) ∧
      decodeTableWord 32 0x01000100 = none := by decide

/-- `step` runs the word `withFetchWord` places: BUS_CREATE 1 from reset (vector 2.3). -/
theorem test_step_runs_word :
    told (step (State.reset.withFetchWord 32 0x01000001)) = some ([⟨.ok, .none⟩], none, [.modeSel false]) := by decide

/-- The wire rows run too: with no live bus they raise F_LIFECYCLE (40_bus.md R128). -/
theorem test_step_runs_wire_word :
    told (step (State.reset.withFetchWord 16 0x0236)) = some ([], some .lifecycle, []) ∧
      told (step (State.reset.withFetchWord 10 0x1FF)) = some ([], some .lifecycle, []) ∧
      told (step ((tBus true .command).withFetchWord 16 0x0236)) = some ([], none, [.cmdWr 0x02 0x36]) ∧
      told (step ((tBus true .command).withFetchWord 10 0x1FF)) = some ([], none, [.sample 0x1FF]) := by
  refine ⟨?_, ?_, ?_, ?_⟩ <;> decide

/-! ## BUS operations (vectors 2.3, 2.4) -/

theorem test_busCreate_phys_resource :
    told (exec (.busCreate 0) { State.reset with env := { State.reset.env with resources := [false] } }) =
      some ([⟨.eResource, .none⟩], none, []) := by decide

theorem test_busRelease_needs_dead_afe : told (exec .busRelease (tAfe [])) = some ([], some .lifecycle, []) := by decide

theorem test_busConfigure :
    (after (exec (.busConfigure 15 0x1234) (tBus true .command))).map (fun t => (t.bus.rung, t.bus.iwd)) =
      some (15, 0x1234#16) := by decide

theorem test_busSetSampleMode_logs_a_change_only :
    told (exec (.busSetSampleMode 0) (tBus true .command)) = some ([⟨.ok, .none⟩], none, []) ∧
      told (exec (.busSetSampleMode 1) (tBus true .command)) = some ([⟨.ok, .none⟩], none, [.modeSel true]) := by decide

theorem test_busWriteCommand :
    (after (exec (.busWriteCommand 0x55 0xA7) (tBus true .command))).map (fun t => (t.shadow, t.busLog)) =
      some ([(0x55, 0xA7#8)], [.cmdWr 0x55 0xA7]) := by decide

/-- With an 8-bit address field the last of the 256 entries is reached, with 4-bit registers the value is cut (log 24). -/
theorem test_busWriteCommand_wide :
    (after (exec (.busWriteCommand 0xFF 0xA7) { tBus true .command with cfg := tWide })).map (fun t => (t.shadow, t.busLog)) =
      some ([(0xFF, 0x07#8)], [.cmdWr 0xFF 0x07]) := by decide

theorem test_busReadCommand :
    told (exec (.busReadCommand 0x55) (tAfe [(0x55, 0xA7)])) =
      some ([⟨.ok, .byte 0xA7⟩], none, [.cmdRd 0x55 0xA7]) := by decide

/-- "word received during the second, say 0x0002 or 0xA502: result 0x02 either way" (vector 2.1). -/
theorem test_busReadCommand_phys :
    told (exec (.busReadCommand 0x0B) (tChip [0xA502])) = some ([⟨.ok, .byte 0x02⟩], none, [.cmdRd 0x0B 0x02]) := by
  decide

theorem test_busTransferSingleSample :
    told (exec (.busTransferSingleSample 0x3FF) (tBus true .sample)) =
        some ([⟨.ok, .none⟩], none, [.sample 0x3FF]) ∧
      told (exec (.busTransferSingleSample 0x400) (tBus true .sample)) = some ([], some .sampleRange, []) := by decide

/-- Steps 8 and 11b of vector 2.3. -/
theorem test_busTransferSampleBuffer :
    told (exec (.busTransferSampleBuffer [1, 1023]) (tBus true .sample)) =
        some ([⟨.ok, .none⟩], none, [.sample 1, .sample 1023]) ∧
      told (exec (.busTransferSampleBuffer [5, 1024]) (tBus true .sample)) = some ([], some .sampleRange, []) := by
  decide

/-- Rows of vector 2.4 on both sides of a rung's rate. -/
theorem test_busRateToBits :
    rateToBits 16 522193 = some 1 ∧ rateToBits 16 522194 = some 0 ∧ rateToBits 16 961539 = none ∧
      rateToBits 16 1 = some 15 ∧ rateToBits 16 35 = some 14 ∧ rateToBits 16 (12500000 / 13) = some 0 := by
  decide +kernel

theorem test_rates : eff 0 = 12500000 / 13 ∧ eff 1 = 200000000 / 383 ∧ eff 15 = 200000000 / 5734433 := by
  decide +kernel

theorem test_busGetEffectiveRate :
    told (exec .busGetEffectiveRate (tBus true .command)) = some ([⟨.ok, .rate (12500000 / 13)⟩], none, []) := by
  decide +kernel

/-! ## AFEC operations (vectors 2.5 to 2.7) -/

theorem test_blocks :
    (encEnable1 Config.default 0x23, encEnable2 Config.default 0x23) = (0x23#8, 0x00#8) ∧ (encEnable1 Config.default 0x1C, encEnable2 Config.default 0x1C) = (0x04#8, 0x06#8) ∧
      (encEnable1 Config.default 0xAA, encEnable2 Config.default 0xAA) = (0x03#8, 0x05#8) ∧ (encEnable1 Config.default 0x55, encEnable2 Config.default 0x55) = (0x24#8, 0x0A#8) := by
  decide

theorem test_afeCreate_phys :
    told (exec .afeCreate (tPins [true] [0x0002])) = some ([⟨.ok, .none⟩], none, [.cmdRd 0x0B 0x02]) ∧
      told (exec .afeCreate (tPins [true] [0x0000])) = some ([⟨.ePresence, .none⟩], none, [.cmdRd 0x0B 0x00]) ∧
      told (exec .afeCreate (tPins [false] [])) = some ([⟨.eResource, .none⟩], none, []) := by decide

theorem test_afeCreate_unwinds :
    (after (exec .afeCreate (tPins [true] [0x0000]))).map (fun t => (t.bus.life, t.afe.life)) =
      some (.released, .absent) := by decide

theorem test_afeActivateBlocks :
    told (exec (.afeActivateBlocks 0x2F) (tAfe [])) =
      some ([⟨.ok, .none⟩], none,
        [.cmdWr 0x01 0x23, .cmdRd 0x01 0x23, .cmdWr 0x03 0x06, .cmdRd 0x03 0x06]) := by decide

/-- WriteVerify compares all eight bits, and a first mismatch leaves ENABLE2 alone (vector 2.6). -/
theorem test_afeActivateBlocks_phys :
    told (exec (.afeActivateBlocks 0x02) (tChip [0x42])) =
      some ([], some .integrity, [.cmdWr 0x01 0x02, .cmdRd 0x01 0x42]) := by decide

theorem test_afeSetGainTx :
    told (exec (.afeSetGainTx 2) (tAfe [(2, 0xC5)])) =
      some ([⟨.ok, .none⟩], none, [.cmdRd 0x02 0xC5, .cmdWr 0x02 0xE5, .cmdRd 0x02 0xE5]) := by decide

/-- "0x80, 0x50: OK although bits 7:6 differ"; "0x80, 0xA0: fault F_INTEGRITY" (vector 2.6). -/
theorem test_afeSetGainTx_phys :
    told (exec (.afeSetGainTx 1) (tChip [0x80, 0x50])) =
        some ([⟨.ok, .none⟩], none, [.cmdRd 0x02 0x80, .cmdWr 0x02 0x90, .cmdRd 0x02 0x50]) ∧
      told (exec (.afeSetGainTx 1) (tChip [0x80, 0xA0])) =
        some ([], some .integrity, [.cmdRd 0x02 0x80, .cmdWr 0x02 0x90, .cmdRd 0x02 0xA0]) := by decide

theorem test_afeSetGainsRx :
    told (exec (.afeSetGainsRx 2 1) (tAfe [(2, 0xFF)])) =
        some ([⟨.ok, .none⟩], none, [.cmdRd 0x02 0xFF, .cmdWr 0x02 0xF6, .cmdRd 0x02 0xF6]) ∧
      told (exec (.afeSetGainsRx 1 3) (tAfe [(2, 0xE5)])) =
        some ([⟨.ok, .none⟩], none, [.cmdRd 0x02 0xE5, .cmdWr 0x02 0xED, .cmdRd 0x02 0xED]) := by decide

theorem test_afeSetCalibration :
    told (exec (.afeSetCalibration 3) (tAfe [(4, 0xF8)])) =
        some ([⟨.ok, .none⟩], none, [.cmdRd 0x04 0xF8, .cmdWr 0x04 0xFC, .cmdRd 0x04 0xFC]) ∧
      told (exec (.afeSetCalibration 2) (tAfe [(4, 0x01)])) =
        some ([⟨.ok, .none⟩], none, [.cmdRd 0x04 0x01, .cmdWr 0x04 0x02, .cmdRd 0x04 0x02]) := by decide

/-- "0x16000001 AFE_SET_STANDBY 1: E_REFUSED", "in any state, including from reset" (vector 2.2). -/
theorem test_afeSetStandby :
    told (exec (.afeSetStandby 1) State.reset) = some ([⟨.eRefused, .none⟩], none, []) ∧
      told (exec (.afeSetStandby 2) State.reset) = some ([⟨.eParam, .none⟩], none, []) := by decide

theorem test_afeIsPresent :
    told (exec .afeIsPresent (tAfe [])) = some ([⟨.ok, .flag false⟩], none, []) ∧
      told (exec .afeIsPresent (tChip [])) = some ([⟨.ok, .flag true⟩], none, []) := by decide

/-- "AFE released: AFE_RELEASE: fault F_LIFECYCLE" (vector 2.7). -/
theorem test_afeRelease_twice :
    told (exec .afeRelease { tAfe [] with afe.life := .released }) = some ([], some .lifecycle, []) := by decide

/-! ## SCHED operations (vector 2.8) -/

/-- Rows 0x20020800, 0x20020801 and 0x20010801 of vector 2.2. -/
theorem test_schedCreate :
    told (exec (.schedCreate 2 2048) (tBus true .sample)) = some ([⟨.ok, .none⟩], none, []) ∧
      told (exec (.schedCreate 2 2049) (tBus true .sample)) = some ([⟨.eParam, .none⟩], none, []) ∧
      told (exec (.schedCreate 1 2049) (tBus true .sample)) = some ([⟨.ok, .none⟩], none, []) ∧
      told (exec (.schedCreate 3 4) (tBus true .sample)) = some ([⟨.eRefused, .none⟩], none, []) ∧
      told (exec (.schedCreate 4 4) (tBus true .sample)) = some ([⟨.eParam, .none⟩], none, []) := by
  refine ⟨?_, ?_, ?_, ?_, ?_⟩ <;> decide

/-- "CREATED (WORKER, 3): OK; buf[0] = [0, 1, 2]; …". -/
theorem test_schedStart_worker :
    (after (exec .schedStart (tMade true .worker 3 [[0, 1, 2]]))).map (fun t => (t.buf, t.fillCount, t.sch)) =
      some ([(0, 0#16), (1, 1#16), (2, 2#16)], 1,
        { life := .running, variant := .worker, len := 3, fillTgt := 1, txCur := 0, txPos := 0,
          fresh := ⟨true, false⟩, phase := .needFill, missed := 0, terminate := false, txeActive := true }) := by decide

theorem test_schedStart_sync :
    (after (exec .schedStart (tMade true .sync 4 []))).map (fun t => (t.buf, t.fillCount, t.sch.txeActive)) =
      some ([], 0, false) := by decide

theorem test_schedFillNextBuffer :
    (after (exec .schedFillNextBuffer (tDual 0 ⟨true, false⟩ 0 false))).map (fun t => (t.buf, t.sch.fresh, t.sch.phase)) =
      some ([(0, 0#16), (1, 1#16), (2, 10#16), (3, 11#16)], ⟨true, true⟩, .needFlush) := by decide

/-- With samples and containers of 10 bits, fill data of 1024 is a fault and never truncated (30_encoding.md R96, D18). -/
theorem test_schedFillNextBuffer_never_truncates :
    (after (exec .schedFillNextBuffer
        { tDual 0 ⟨true, false⟩ 0 false with
          cfg := { Config.default with sampleContainerBits := 10 }
          env := { State.reset.env with fills := [[], [0, 1024]] } })).map (fun t => (t.buf, t.fillCount, t.fault)) =
      some ([(0, 0#16), (1, 1#16), (2, 10#16), (3, 11#16)], 2, some .sampleRange) := by decide

theorem test_schedFlush_sync :
    told (exec .schedFlushAndWaitBuffer (tSync .needFlush [(0, 7), (1, 8)])) =
      some ([⟨.ok, .index 0⟩], none, [.sample 7, .sample 8]) := by decide

theorem test_schedFlush_blocks :
    (after (exec .schedFlushAndWaitBuffer (tFilled 1))).map (fun t => (t.wait, t.results)) = some (.flush, []) := by
  decide

theorem test_schedStop :
    (after (exec .schedStop (tDual 0 ⟨true, false⟩ 0 false))).map (fun t => (t.wait, t.sch.life, t.sch.terminate)) =
        some (.stop, .running, true) ∧
      (after (exec .schedStop (tSync .needFill []))).map (fun t => (t.wait, t.sch.life)) =
        some (.ready, .stopped) := by decide

theorem test_schedRelease :
    told (exec .schedRelease (tDual 0 ⟨true, false⟩ 0 false)) = some ([], some .seq, []) := by decide

/-! ## TXE, FLAGMON and ENV (vectors 2.9, 2.10) -/

/-- What a TXE step leaves of the columns of vector 2.9. -/
def tColumns (s : State) : Fin 2 × Nat × FreshBits × Nat × List BusEvent :=
  (s.sch.txCur, s.sch.txPos, s.sch.fresh, s.sch.missed, s.busLog)

theorem test_txe_emit :
    tColumns (tDual 0 ⟨true, false⟩ 0 false).txeEmit = (0, 1, ⟨true, false⟩, 0, [.sample 0]) ∧
      tColumns (tDual 1 ⟨true, true⟩ 0 false).txeEmit = (1, 0, ⟨false, true⟩, 0, [.sample 1]) ∧
      tColumns (tDual 1 ⟨true, false⟩ 0 false).txeEmit = (0, 0, ⟨false, false⟩, 1, [.sample 1]) ∧
      tColumns (tDual 1 ⟨false, false⟩ 1 false).txeEmit = (0, 0, ⟨false, false⟩, 2, [.sample 1]) ∧
      tColumns (tDual 1 ⟨true, true⟩ 0 true).txeEmit = (0, 0, ⟨false, true⟩, 0, [.sample 1]) := by
  refine ⟨?_, ?_, ?_, ?_, ?_⟩ <;> decide

theorem test_txe_halt :
    (tDual 1 ⟨true, true⟩ 0 true).txeHalt.sch.txeActive = false ∧ (tDual 1 ⟨true, true⟩ 0 true).txeHalt.busLog = [] ∧
      (tDual 0 ⟨true, false⟩ 0 true).txeEmit = tDual 0 ⟨true, false⟩ 0 true := by decide

/-- "@ENV ovl = 1 (callback not registered): pin changes; no pending bit" and "@FLAGMON tx: FLAGS(1, 0, 1)". -/
theorem test_flags :
    ((tAfe []).envStep .ovl).flags = ⟨false, false, true⟩ ∧ ((tAfe []).envStep .ovl).afe.pend = FlagBits.clear ∧
      ((({ (tAfe []).envStep .ovl with afe.cbOn := true } : State).envStep .tx).flagmonStep .tx).cbLog =
        [⟨true, false, true⟩] := by decide

/-! ## Witnesses: encodings and the step -/

theorem witness_DecodeEncodeAgree :
    (Instr.busTransferSampleBuffer [5, 6]).wellFormed Config.default = true ∧
      encode Config.default (.busTransferSampleBuffer [5, 6]) = .host [0x08000002, 5, 6] ∧
      (Instr.sample 0x3FF).wellFormed Config.default = true ∧
      (Instr.cmdWrite 0x7F 0xFF).wellFormed Config.default = true ∧ Config.default.admissible = true := by decide

theorem witness_DecodedWordsAreTheirEncoding :
    decodeWords [0x08000001, 0x0000FFFF, 0x21000000] = .instr (.busTransferSampleBuffer [0xFFFF]) [0x21000000] := by
  decide

theorem witness_FrameCodecLaws :
    (0x7F : Byte).toNat ≤ 127 ∧ ((0x7FFF : Word).toNat < 65536 ∧ (0x7FFF : Word).getLsbD 15 = false) ∧
      ((0xFFFF : Word).toNat < 65536 ∧ (0xFFFF : Word).getLsbD 15 = true) ∧
      (Config.default.admissible = true ∧ (0x7F : Byte).toNat < 2 ^ Config.default.frameAddrBits ∧
        (0xFF : Byte).toNat < 2 ^ Config.default.regDataBits) := by decide

/-- `s` with words at the port and HOST to move. -/
def tPort (ws : List Word) : State := { tTurn .host State.reset with port := ws }

/-- One word per disjunct: unassigned codes at the ends of their ranges, each format's must-be-zero field, and the extension word of
vector 2.2. -/
theorem witness_IllegalWordAnswersEOp :
    ((tPort [0x00000000]).fault = none ∧ (tPort [0x00000000]).runVoid = false ∧
        (tPort [0x00000000]).turns = [.host] ∧ (tPort [0x00000000]).wait = .ready ∧
        (tPort [0x00000000]).line = [] ∧ (tPort [0x00000000]).port = [0x00000000]) ∧
      (opField 0x00000000).toNat = 0x00 ∧ (opField 0x1F000000).toNat = 0x1F ∧ 0x28 ≤ (opField 0x28000000).toNat ∧
      ((opField 0x27000001).toNat = 0x27 ∧ (0x27000001 : Word).extractLsb' 0 24 ≠ 0) ∧
      ((opField 0x01000100).toNat = 0x01 ∧ (0x01000100 : Word).extractLsb' 8 16 ≠ 0) ∧
      ((opField 0x07010005).toNat = 0x07 ∧ (0x07010005 : Word).extractLsb' 16 8 ≠ 0) ∧
      ((opField 0x08000002).toNat = 0x08 ∧ (0x08000002 : Word).extractLsb' 16 8 = 0 ∧
        ((0x08000002 : Word).extractLsb' 0 16).toNat ≤ [(5 : Word), 0x00010006].length ∧
        (0x00010006 : Word).extractLsb' 16 16 ≠ 0 ∧
        told (step (tPort [0x08000002, 5, 0x00010006])) = some ([⟨.eOp, .none⟩], none, [])) := by
  refine ⟨?_, ?_, ?_, ?_, ?_, ?_, ?_, ?_⟩ <;> decide

theorem witness_StepRunsTheDecodedOperation :
    (tPort [0x01000001, 0x02000000]).fault = none ∧ (tPort [0x01000001, 0x02000000]).runVoid = false ∧
      (tPort [0x01000001, 0x02000000]).turns = [.host] ∧ (tPort [0x01000001, 0x02000000]).wait = .ready ∧
      (tPort [0x01000001, 0x02000000]).line = [] ∧
      decodeWords (tPort [0x01000001, 0x02000000]).port = .instr (.busCreate 1) [0x02000000] := by decide

/-- A wire word HOST has presented, in both modes; 0x8B5A is a read frame, 0x0236 a write frame. -/
def tLine (mode : BusMode) (w : Word) : State := { tTurn .host (tBus true mode) with line := [w] }

theorem witness_StepRunsTheWireWord :
    ((tLine .sample 0x3FF).fault = none ∧ (tLine .sample 0x3FF).runVoid = false ∧
        (tLine .sample 0x3FF).turns = [.host] ∧ (tLine .sample 0x3FF).wait = .ready ∧ (tLine .sample 0x3FF).line = [0x3FF] ∧
        (tLine .sample 0x3FF).bus.mode = .sample ∧ (0x3FF : Word).toNat = (0x3FF : Half).toNat) ∧
      ((tLine .sample 0x10005).line = [0x10005] ∧ 2 ^ 16 ≤ (0x10005 : Word).toNat ∧
        (tLine .sample 0x10005).bus.life = .live ∧ (tLine .sample 0x10005).busBusy = false ∧
        told (step (tLine .sample 0x10005)) = some ([], some .sampleRange, [])) ∧
      ((tLine .command 0x0236).fault = none ∧ (tLine .command 0x0236).runVoid = false ∧
        (tLine .command 0x0236).turns = [.host] ∧ (tLine .command 0x0236).line = [0x0236] ∧
        (tLine .command 0x0236).bus.mode = .command ∧ decFrame Config.default 0x0236 = .write 0x02 0x36) ∧
      ((tLine .command 0x8B5A).line = [0x8B5A] ∧ decFrame Config.default 0x8B5A = .read 0x0B) := by decide

theorem witness_NothingStepsAfterAFaultOrARefusal :
    ({ State.reset with fault := some .seq } : State).fault = some .seq ∧
      ({ State.reset with runVoid := true } : State).fault = none ∧
      ({ State.reset with runVoid := true } : State).runVoid = true := by decide

theorem witness_WaitsEndOnlyWhenTheirConditionHolds :
    (∀ s ∈ [tTurn .host { tFilled 1 with wait := .flush }, tTurn .host { tFilled 0 with wait := .flush },
        tTurn .host { tDual 0 ⟨true, false⟩ 0 true with wait := .stop }],
      s.fault = none ∧ s.runVoid = false ∧ s.turns = [.host]) ∧
      (tFilled 1).sch.txCur ≠ (tFilled 1).sch.fillTgt ∧ (tFilled 0).sch.txCur = (tFilled 0).sch.fillTgt ∧
      (tDual 0 ⟨true, false⟩ 0 true).sch.txeActive = true ∧
      (tDual 0 ⟨true, false⟩ 0 true).txeHalt.sch.txeActive = false := by decide

theorem witness_IllegalOperandIsEParamInAnyState :
    ∀ i ∈ [Instr.busCreate 2, .busConfigure 16 0, .busSetSampleMode 2, .busWriteCommand 0x80 0, .busReadCommand 0x80,
        .busBitsToRate 16, .busRateToBits 0, .afeSetGainTx 4, .afeSetGainsRx 4 0, .afeSetGainsRx 0 4,
        .afeSetCalibration 4, .afeSetStandby 2, .afeSetFlagsCallback 2, .schedCreate 0 0, .schedCreate 4 4,
        .schedCreate 2 2049],
      legalOperands Config.default i = false := by decide

/-- One of each status the rule covers. -/
theorem witness_OtherStatusesChangeNothing :
    Instr.afeSetStandby 1 ≠ .afeCreate ∧
      told (exec (.afeSetStandby 1) State.reset) = some (State.reset.results ++ [⟨.eRefused, .none⟩], none, []) ∧
      told (exec (.afeSetGainTx 4) (tAfe [])) = some ((tAfe []).results ++ [⟨.eParam, .none⟩], none, []) ∧
      told (exec (.schedCreate 0 4) State.reset) = some (State.reset.results ++ [⟨.eState, .none⟩], none, []) ∧
      told (exec (.schedCreate 0 4) (tPins [false] [])) =
        some ((tPins [false] []).results ++ [⟨.eResource, .none⟩], none, []) := by
  refine ⟨?_, ?_, ?_, ?_, ?_⟩ <;> decide

theorem witness_DrawsTakeListedAnswersFirst :
    (tPins [true] [0x0002]).env.resources = [true] ∧ (tPins [true] [0x0002]).env.received = [0x0002] ∧
      State.reset.env.resources = [] ∧ State.reset.env.received = [] ∧ 1 < (tDual 0 ⟨true, false⟩ 0 false).sch.len := by
  decide

/-! ## Witnesses: BUS operations -/

/-- The conditions every BUS rule distinguishes: no bus, TXE owning it, SAMPLE mode, COMMAND mode in EMU and PHYS. -/
theorem witness_bus_states :
    State.reset.bus.life = .absent ∧ State.reset.bus.life ≠ .live ∧
      ((tDual 0 ⟨true, false⟩ 0 false).bus.life = .live ∧ (tDual 0 ⟨true, false⟩ 0 false).busBusy = true) ∧
      ((tBus true .sample).bus.life = .live ∧ (tBus true .sample).busBusy = false ∧
        (tBus true .sample).bus.mode = .sample) ∧
      ((tBus true .command).bus.life = .live ∧ (tBus true .command).busBusy = false ∧
        (tBus true .command).bus.mode = .command ∧ (tBus true .command).bus.emul = true ∧
        (tBus true .command).cfg.admissible = true ∧ Memory.wf Config.default (tBus true .command).shadow = true) ∧
      ((tChip [0]).bus.life = .live ∧ (tChip [0]).busBusy = false ∧ (tChip [0]).bus.mode = .command ∧
        (tChip [0]).bus.emul = false) := by decide

theorem witness_BusCreateRule :
    1 < (2 : Byte).toNat ∧ ((1 : Byte).toNat ≤ 1 ∧ (tBus true .command).bus.life ≠ .absent) ∧
      (State.reset.bus.life = .absent) ∧
      ({ State.reset with env := { State.reset.env with resources := [true] } } : State).drawResource.2 = true ∧
      ({ State.reset with env := { State.reset.env with resources := [false] } } : State).drawResource.2 = false := by
  decide

theorem witness_BusReleaseRule :
    State.reset.bus.life ≠ .live ∧ ((tAfe []).bus.life = .live ∧ (tAfe []).afe.life = .live) ∧
      ((tMade true .sync 1 []).bus.life = .live ∧ (tMade true .sync 1 []).sch.life ≠ .absent ∧
        (tMade true .sync 1 []).sch.life ≠ .released) ∧
      ((tBus true .command).bus.life = .live ∧ (tBus true .command).afe.life ≠ .live ∧
        (tBus true .command).sch.life = .absent) := by decide

/-- Rungs 15 and 16; the states are those of `witness_bus_states`. -/
theorem witness_BusConfigureRule :
    State.reset.cfg.ladderRungs ≤ (16 : Byte).toNat ∧ (15 : Byte).toNat < (tBus true .command).cfg.ladderRungs ∧
      (15 : Byte).toNat < (tDual 0 ⟨true, false⟩ 0 false).cfg.ladderRungs := by decide

theorem witness_BusSetSampleModeRule :
    (1 < (2 : Byte).toNat ∧ (BusMode.command) = if (2 : Byte) = 1 then .sample else .command) ∧
      ((1 : Byte).toNat ≤ 1 ∧ (BusMode.sample) = if (1 : Byte) = 1 then .sample else .command) ∧
      (BusMode.sample ≠ (tBus true .command).bus.mode) ∧ (BusMode.sample = (tBus true .sample).bus.mode) := by decide

/-- Addresses 127 and 128; the states are those of `witness_bus_states`. -/
theorem witness_BusWriteCommandRule :
    2 ^ State.reset.cfg.frameAddrBits ≤ (0x80 : Byte).toNat ∧ (0x7F : Byte).toNat < 2 ^ State.reset.cfg.frameAddrBits ∧
      (0 : Byte).toNat = (0 : Byte).toNat % 2 ^ State.reset.cfg.regDataBits ∧
      (after (exec (.busWriteCommand 0x7F 0) (tAfe [(0x7F, 1)]))).map (·.shadow) = some [] := by decide

theorem witness_BusReadCommandRule :
    2 ^ State.reset.cfg.frameAddrBits ≤ (0x80 : Byte).toNat ∧ (0x7F : Byte).toNat < 2 ^ State.reset.cfg.frameAddrBits ∧
      (0xFF : Byte).toNat = (tChip [0xA5FF]).drawReceived.2.toNat % 2 ^ State.reset.cfg.regDataBits ∧
      told (exec (.busReadCommand 0x7F) (tChip [0xA5FF])) =
        some ([⟨.ok, .byte 0xFF⟩], none, [.cmdRd 0x7F 0xFF]) := by decide

/-- Samples 1023 and 1024; the states are those of `witness_bus_states`. -/
theorem witness_BusTransferSingleSampleRule :
    2 ^ (tBus true .sample).cfg.sampleBits ≤ (1024 : Half).toNat ∧
      (1023 : Half).toNat < 2 ^ (tBus true .sample).cfg.sampleBits := by decide

theorem witness_BusTransferSampleBufferRule :
    (∃ w ∈ [(1023 : Half), 1024], 2 ^ (tBus true .sample).cfg.sampleBits ≤ w.toNat) ∧
      (∀ w ∈ [(0 : Half), 1023], w.toNat < 2 ^ (tBus true .sample).cfg.sampleBits) :=
  ⟨⟨1024, by decide, by decide⟩, (all_sampleFits (tBus true .sample) _).mp (by decide)⟩

/-- Requests 0, one above the top rung's rate, one at the top of the ladder and one at its bottom. -/
theorem witness_BusRateToBitsPicksTheSlowestSufficientRung :
    (0 : Word).toNat = 0 ∧
      (1 ≤ (961539 : Word).toNat ∧ ∀ k, k < 16 → 10 ^ 9 < (961539 : Word).toNat * (875 * 2 ^ k + 165)) ∧
      (1 ≤ (961538 : Word).toNat ∧ 0 < 16 ∧ (961538 : Word).toNat * (875 * 2 ^ 0 + 165) ≤ 10 ^ 9 ∧
        ∀ j, 0 < j → j < 16 → 10 ^ 9 < (961538 : Word).toNat * (875 * 2 ^ j + 165)) ∧
      (1 ≤ (34 : Word).toNat ∧ 15 < 16 ∧ (34 : Word).toNat * (875 * 2 ^ 15 + 165) ≤ 10 ^ 9 ∧
        ∀ j, 15 < j → j < 16 → 10 ^ 9 < (34 : Word).toNat * (875 * 2 ^ j + 165)) ∧
      State.reset.cfg.ladderRungs = 16 := by
  refine ⟨by decide, ⟨by decide, by decide +kernel⟩, ⟨by decide, by decide, by decide, ?_⟩, ⟨by decide, by decide, by decide, ?_⟩,
    by decide⟩
  · intro j h1 h2; interval_cases j <;> decide
  · intro j h1 h2; omega

theorem witness_RateQueriesRule :
    State.reset.cfg.ladderRungs ≤ (16 : Byte).toNat ∧ (15 : Byte).toNat < State.reset.cfg.ladderRungs ∧
      State.reset.bus.life ≠ .live ∧ (tBus true .command).bus.life = .live := by decide

theorem witness_RateConversionProperties :
    rateToBits 16 100000 = some 3 ∧ rateToBits 16 139567 = some 3 ∧ (100000 : Rat) ≤ 139567 ∧ 3 + 1 < 16 ∧
      (0 : Rat) < 100000 ∧ (100000 : Rat) < 10 ^ 9 / 165 ∧ rateToBits 16 961538 = some 0 := by decide +kernel

/-! ## Witnesses: AFEC operations -/

theorem witness_AfeCreateRule :
    (tAfe []).afe.life ≠ .absent ∧ (State.reset.afe.life = .absent ∧ State.reset.bus.life ≠ .live) ∧
      ((tDual 0 ⟨true, false⟩ 0 false).afe.life = .absent ∧ (tDual 0 ⟨true, false⟩ 0 false).bus.life = .live ∧
        (tDual 0 ⟨true, false⟩ 0 false).busBusy = true) ∧
      ((tBus true .sample).afe.life = .absent ∧ (tBus true .sample).bus.mode = .sample) ∧
      ((tBus true .command).afe.life = .absent ∧ (tBus true .command).bus.life = .live) ∧
      ((tPins [false] []).drawResource.2 = false) ∧
      ((tPins [true] [0x00FF]).drawResource.2 = true ∧
        Config.default.regBits (tPins [true] [0x00FF]).drawResource.1.drawReceived.2 ≠ (tPins [true] [0x00FF]).cfg.expectedRevision) ∧
      ((tPins [true] [0xA502]).drawResource.2 = true ∧
        Config.default.regBits (tPins [true] [0xA502]).drawResource.1.drawReceived.2 =
          (tPins [true] [0xA502]).cfg.expectedRevision ∧
        (tPins [true] [0xA502]).afe.life = .absent ∧ (tPins [true] [0xA502]).bus.life = .live ∧
        (tPins [true] [0xA502]).busBusy = false ∧ (tPins [true] [0xA502]).bus.mode = .command ∧
        (tPins [true] [0xA502]).bus.emul = false) := by decide

theorem witness_AfeReleaseRule : State.reset.afe.life ≠ .live ∧ (tAfe []).afe.life = .live := by decide

/-- A live AFE in each state of the bus. -/
theorem witness_setter_states :
    State.reset.afe.life ≠ .live ∧
      (({ tDual 0 ⟨true, false⟩ 0 false with afe := (tAfe []).afe } : State).afe.life = .live ∧
        ({ tDual 0 ⟨true, false⟩ 0 false with afe := (tAfe []).afe } : State).busBusy = true) ∧
      (({ tBus true .sample with afe := (tAfe []).afe } : State).afe.life = .live ∧
        ({ tBus true .sample with afe := (tAfe []).afe } : State).busBusy = false ∧
        ({ tBus true .sample with afe := (tAfe []).afe } : State).bus.mode = .sample) ∧
      ((tAfe [(2, 0xC5)]).afe.life = .live ∧ (tAfe [(2, 0xC5)]).busBusy = false ∧
        (tAfe [(2, 0xC5)]).bus.mode = .command ∧ (tAfe [(2, 0xC5)]).bus.emul = true ∧
        (tAfe [(2, 0xC5)]).cfg.admissible = true ∧ Memory.wf Config.default (tAfe [(2, 0xC5)]).shadow = true) ∧
      ((tChip [0x80, 0x90]).afe.life = .live ∧ (tChip [0x80, 0x90]).busBusy = false ∧
        (tChip [0x80, 0x90]).bus.mode = .command ∧ (tChip [0x80, 0x90]).bus.emul = false) := by
  refine ⟨?_, ?_, ?_, ?_, ?_⟩ <;> decide

/-- Blocks TX (0x02): the three PHYS clauses, with the readbacks of vector 2.6. -/
theorem witness_AfeActivateBlocksRule :
    (∀ i, (fun i => if (0x02 : Byte).getLsbD i then (1 : Byte) else 0) i = if (0x02 : Byte).getLsbD i then 1 else 0) ∧
    Config.default.regBits (tChip [0x42]).drawReceived.2 ≠ encEnable1 Config.default 0x02 ∧
      (Config.default.regBits (tChip [0x02, 0x01]).drawReceived.2 = encEnable1 Config.default 0x02 ∧
        Config.default.regBits (tChip [0x02, 0x01]).drawReceived.1.drawReceived.2 ≠ encEnable2 Config.default 0x02) ∧
      (Config.default.regBits (tChip [0x02, 0x00]).drawReceived.2 = encEnable1 Config.default 0x02 ∧
        Config.default.regBits (tChip [0x02, 0x00]).drawReceived.1.drawReceived.2 = encEnable2 Config.default 0x02) :=
  ⟨fun _ => rfl, by decide⟩

/-- Levels 3 and 4, and both readbacks of vector 2.6. -/
theorem witness_AfeSetGainTxRule :
    3 < (4 : Byte).toNat ∧ (3 : Byte).toNat ≤ 3 ∧
      3#8 <<< (tAfe []).cfg.places.txgLo = 0x30#8 ∧ (3 : Byte) <<< (tAfe []).cfg.places.txgLo = 0x30#8 ∧
      shadowGet (tAfe [(2, 0xC5)]).shadow (tAfe []).cfg.aGain.toNat = 0xC5 ∧
      Config.default.regBits (tChip [0x80, 0x50]).drawReceived.1.drawReceived.2 &&& 0x30#8 = (1 : Byte) <<< 4 ∧
      Config.default.regBits (tChip [0x80, 0xA0]).drawReceived.1.drawReceived.2 &&& 0x30#8 ≠ (1 : Byte) <<< 4 := by decide

theorem witness_AfeSetGainsRxRule :
    3 < (4 : Byte).toNat ∧ (3 : Byte).toNat ≤ 3 ∧
      3#8 <<< (tAfe []).cfg.places.rx1gLo ||| 3#8 <<< (tAfe []).cfg.places.rx2gLo = 0x0F#8 ∧
      Config.default.regBits (tChip [0xFF, 0xF6]).drawReceived.1.drawReceived.2 &&& 0x0F#8 = (2 : Byte) ||| ((1 : Byte) <<< 2) ∧
      Config.default.regBits (tChip [0xFF, 0xF5]).drawReceived.1.drawReceived.2 &&& 0x0F#8 ≠ (2 : Byte) ||| ((1 : Byte) <<< 2) := by
  decide

theorem witness_AfeSetCalibrationRule :
    3 < (4 : Byte).toNat ∧ (3 : Byte).toNat ≤ 3 ∧
      1#8 <<< (tAfe []).cfg.places.txCal ||| 1#8 <<< (tAfe []).cfg.places.rxCal |||
        1#8 <<< (tAfe []).cfg.places.txPgaCal = 0x07#8 ∧ 1#8 <<< (tAfe []).cfg.places.txPgaCal = 4#8 ∧ ((4#8, Cal.txPga) = if (3 : Byte) = 0 then (0#8, Cal.none)
        else if (3 : Byte) = 1 then (1#8, Cal.tx) else if (3 : Byte) = 2 then (2#8, Cal.rx) else (4#8, Cal.txPga)) ∧
      Config.default.regBits (tChip [0xF8, 0xFC]).drawReceived.1.drawReceived.2 &&& 0x07#8 = 4#8 ∧
      Config.default.regBits (tChip [0xF8, 0xFB]).drawReceived.1.drawReceived.2 &&& 0x07#8 ≠ 4#8 := by decide

theorem witness_AfeSetStandbyRule :
    1 < (2 : Byte).toNat ∧ (1 : Byte).toNat ≤ 1 ∧ State.reset.fault = none ∧
      (after (exec (.afeSetStandby 1) State.reset)).map (·.runVoid) = some true := by decide

theorem witness_AfeQueriesRule :
    State.reset.afe.life ≠ .live ∧ (tAfe []).afe.life = .live ∧ State.reset.bus.life ≠ .live ∧
      (tAfe []).bus.life = .live := by decide

theorem witness_AfeSetFlagsCallbackRule :
    1 < (2 : Byte).toNat ∧ (1 : Byte).toNat ≤ 1 ∧ State.reset.afe.life ≠ .live ∧
      ((tAfe []).afe.life = .live ∧ (tAfe []).afe.cbOn = false) ∧
      ({ tAfe [] with afe.cbOn := true } : State).afe.life = .live := by decide

/-- The states after each of the two operations of S4, from registers that were not zero. -/
theorem witness_ActivatingNoneClearsBothEnableRegisters :
    (tAfe [(1, 0x04), (3, 0x01)]).afe.life = .live ∧ Memory.wf Config.default (tAfe [(1, 0x04), (3, 0x01)]).shadow = true ∧
      (after (exec (.afeActivateBlocks 0x90) (tAfe []))).map (·.shadow) = some [(1, 0x04), (3, 0x01)] ∧
      (after (exec (.afeActivateBlocks 0) (tAfe [(1, 0x04), (3, 0x01)]))).map (·.shadow) = some [] := by decide

theorem witness_GainSettersAreIdempotent :
    (tAfe [(2, 0xC5)]).bus.emul = true ∧ Memory.wf Config.default (tAfe [(2, 0xC5)]).shadow = true ∧ (tAfe [(2, 0xC5)]).fault = none ∧
      (after (exec (.afeSetGainTx 3) (tAfe [(2, 0xC5)]))).map (fun t => (t.fault, t.shadow)) =
        some (none, [(2, 0xF5#8)]) ∧
      (after (exec (.afeSetGainsRx 3 3) (tAfe []))).map (fun t => (t.fault, t.shadow)) =
        some (none, [(2, 0x0F#8)]) := by decide

/-- A chip that answers as ChipFaithful asks; the log after the operation is faithful. -/
theorem witness_AFaithfulChipNeverFailsVerification :
    (tChip [0x80, 0x90]).bus.emul = false ∧ (tChip [0x80, 0x90]).fault = none ∧
      (after (exec (.afeSetGainTx 1) (tChip [0x80, 0x90]))).map (fun t => ChipFaithful t.cfg t.busLog) = some true ∧
      (after (exec (.afeActivateBlocks 2) (tChip [0x02, 0x00]))).map (fun t => ChipFaithful t.cfg t.busLog) =
        some true := by decide

/-! ## Witnesses: SCHED operations -/

/-- Lengths 0, 1 and 65535, the DMA limit 2048 and 2049, and the creations in EMU and PHYS. -/
theorem witness_SchedCreateRule :
    (3 < (4 : Byte).toNat ∧ (0 : Half).toNat = 0 ∧ State.reset.cfg.dmaMaxSamples < (2049 : Half).toNat) ∧
      (1 ≤ (1 : Half).toNat ∧ (65535 : Half).toNat ≤ State.reset.cfg.sMax) ∧
      ((2 : Byte).toNat < 3 ∧ (2048 : Half).toNat ≤ State.reset.cfg.dmaMaxSamples) ∧
      (tMade true .sync 1 []).sch.life ≠ .absent ∧
      (State.reset.sch.life = .absent ∧ State.reset.bus.life ≠ .live) ∧
      ((tPins [false] []).sch.life = .absent ∧ (tPins [false] []).bus.life = .live ∧
        (tPins [false] []).bus.emul = false ∧ (tPins [false] []).drawResource.2 = false) ∧
      ((tPins [true] []).sch.life = .absent ∧ (tPins [true] []).drawResource.2 = true) ∧
      ((tBus true .sample).sch.life = .absent ∧ (tBus true .sample).bus.emul = true) := by
  refine ⟨?_, ?_, ?_, ?_, ?_, ?_, ?_, ?_⟩ <;> decide

/-- The fill data of the starts and fills below: one that fits and one with a sample of 1024. -/
theorem witness_SchedStartRule :
    State.reset.sch.life = .absent ∧ (tSync .needFill []).sch.life = .running ∧
      ((tBus true .command).sch.life = .absent ∧
        ({ tMade true .sync 1 [] with bus.mode := .command } : State).sch.life = .created ∧
        ({ tMade true .sync 1 [] with bus.mode := .command } : State).bus.mode = .command) ∧
      ((tMade true .sync 4 []).sch.life = .created ∧ (tMade true .sync 4 []).bus.life = .live ∧
        (tMade true .sync 4 []).bus.mode = .sample ∧ (tMade true .sync 4 []).sch.variant = .sync) ∧
      (({ tMade false .dma 2 [] with env := (tPins [false] []).env } : State).bus.emul = false ∧
        ({ tMade false .dma 2 [] with env := (tPins [false] []).env } : State).drawResource.2 = false) ∧
      ((tMade false .dma 2 [[1, 2]]).sch.variant ≠ .sync ∧ (tMade false .dma 2 [[1, 2]]).drawResource.2 = true) ∧
      (∃ x ∈ (tMade true .worker 2 [[0, 1024]]).fillSrc 0, 2 ^ Config.default.sampleBits ≤ x.toNat) ∧
      (∀ x ∈ (tMade true .worker 2 [[0, 1023]]).fillSrc 0, x.toNat < 2 ^ Config.default.sampleBits) := by
  refine ⟨by decide, by decide, by decide, by decide, by decide, by decide, ⟨1024, by decide, by decide⟩, ?_⟩
  exact (all_sampleFits (tMade true .worker 2 [[0, 1023]]) _).mp (by decide)

theorem witness_SchedFillNextBufferRule :
    State.reset.sch.life = .absent ∧ (tMade true .sync 1 []).sch.life = .created ∧
      ((tSync .needFlush []).sch.life = .running ∧ (tSync .needFlush []).sch.phase = .needFlush) ∧
      ((tSync .needFill []).sch.life = .running ∧ (tSync .needFill []).sch.phase = .needFill ∧
        ∀ x ∈ (tSync .needFill []).fillSrc 0, x.toNat < 2 ^ Config.default.sampleBits) ∧
      (∀ x ∈ (tDual 0 ⟨true, false⟩ 0 false).fillSrc 1, x.toNat < 2 ^ Config.default.sampleBits) ∧
      (∃ x ∈ ({ tSync .needFill [] with env := (tMade true .sync 2 [[0, 1024]]).env } : State).fillSrc 0,
        2 ^ Config.default.sampleBits ≤ x.toNat) := by
  refine ⟨by decide, by decide, by decide, ⟨by decide, by decide, ?_⟩, ?_, ⟨1024, by decide, by decide⟩⟩
  · exact (all_sampleFits (tSync .needFill []) _).mp (by decide)
  · exact (all_sampleFits (tDual 0 ⟨true, false⟩ 0 false) _).mp (by decide)

theorem witness_SchedFlushRule :
    ((tSync .needFlush []).sch.life = .running ∧ (tSync .needFlush []).sch.variant = .sync ∧
        0 < (tSync .needFlush []).sch.len ∧ sampleAt (tSync .needFlush []).buf 0 = none) ∧
      ({ tSync .needFlush [(0, 7)] with bus.mode := .command } : State).bus.mode = .command ∧
      sampleAt (tSync .needFlush [(0, 7)]).buf 0 = some 7 ∧ sampleAt (tSync .needFlush [(0, 7)]).buf 1 = none ∧
      (1 < (tSync .needFlush [(0, 7), (1, 1024)]).sch.len ∧
        sampleAt (tSync .needFlush [(0, 7), (1, 1024)]).buf 1 = some 1024 ∧
        2 ^ Config.default.sampleBits ≤ (1024 : Half).toNat) ∧
      (∀ p, p < 2 → sampleAt (tSync .needFlush [(0, 7), (1, 1023)]).buf p = [(7 : Half), 1023][p]?) ∧
      ((tFilled 0).sch.phase = .needFlush ∧ (tFilled 0).sch.variant ≠ .sync ∧
        (tFilled 0).sch.txCur = (tFilled 0).sch.fillTgt) ∧ (tFilled 1).sch.txCur ≠ (tFilled 1).sch.fillTgt := by
  refine ⟨?_, ?_, ?_, ?_, ?_, ?_, ?_, ?_⟩ <;> decide

/-- Each lifecycle of the scheduler, and a running one with and without TXE. -/
theorem witness_SchedStopRule :
    State.reset.sch.life = .absent ∧ (tMade true .dma 1 []).sch.life = .created ∧
      ({ tSync .needFill [] with sch.life := .stopped } : State).sch.life = .stopped ∧
      ((tSync .needFill []).sch.life = .running ∧ (tSync .needFill []).sch.variant = .sync) ∧
      ((tDual 0 ⟨true, false⟩ 0 true).txeHalt.sch.life = .running ∧
        (tDual 0 ⟨true, false⟩ 0 true).txeHalt.sch.txeActive = false) ∧
      ((tDual 0 ⟨true, false⟩ 0 false).sch.variant ≠ .sync ∧
        (tDual 0 ⟨true, false⟩ 0 false).sch.txeActive = true) := by decide

/-- The states of `witness_SchedStopRule` and a released scheduler. -/
theorem witness_SchedReleaseRule :
    ({ tSync .needFill [] with sch.life := .released } : State).sch.life = .released ∧
      (tMade true .sync 1 []).sch.life = .created ∧
      ({ tSync .needFill [(0, 1)] with sch.life := .stopped } : State).sch.life = .stopped := by decide

theorem witness_SchedQueriesRule :
    State.reset.sch.life = .absent ∧ (tMade true .sync 1 []).sch.life = .created ∧
      (tDual 0 ⟨true, false⟩ 3 false).sch.life = .running ∧
      told (exec .schedGetMissed (tDual 0 ⟨true, false⟩ 3 false)) = some ([⟨.ok, .count 3⟩], none, []) := by decide

/-! ## Witnesses: TXE, the flag pins and the wire words -/

/-- One state per clause, after the rows of vector 2.9. -/
theorem witness_TxeStepsRule :
    ((tTurn .txeEmit (tDual 0 ⟨true, false⟩ 0 true)).turns = [.txeEmit] ∧ (tSync .needFill []).busBusy = false ∧
        (tDual 0 ⟨true, false⟩ 0 true).txeHalt.sch.txeActive = false) ∧
      ((tDual 1 ⟨true, false⟩ 0 false).busBusy = true ∧ (tDual 1 ⟨true, false⟩ 0 false).sch.txeActive = true ∧
        (tDual 1 ⟨true, false⟩ 0 false).sch.txPos + 1 = (tDual 1 ⟨true, false⟩ 0 false).sch.len ∧
        sampleAt (tDual 1 ⟨true, false⟩ 0 false).buf 1 = some 1) ∧
      sampleAt ({ tDual 0 ⟨true, true⟩ 0 false with buf := [(0, 0)] } : State).buf 1 = none ∧
      (tDual 2 ⟨true, true⟩ 0 false).sch.len ≤ (tDual 2 ⟨true, true⟩ 0 false).sch.txPos ∧
      ({ tDual 0 ⟨true, true⟩ 0 false with bus.mode := .command } : State).bus.mode = .command ∧
      sampleAt ({ tDual 0 ⟨true, true⟩ 0 false with buf := [(0, 1024)] } : State).buf 0 = some 1024 ∧
      (tDual 0 ⟨true, true⟩ 0 false).sch.txPos + 1 < (tDual 0 ⟨true, true⟩ 0 false).sch.len ∧
      ((tDual 1 ⟨true, true⟩ 0 true).sch.terminate = true ∧ (tDual 1 ⟨true, true⟩ 0 false).sch.terminate = false ∧
        (tDual 1 ⟨true, true⟩ 0 false).sch.fresh.get 1 = true ∧
        (tDual 1 ⟨true, false⟩ 0 false).sch.fresh.get 1 = false) := by
  refine ⟨?_, ?_, ?_, ?_, ?_, ?_, ?_, ?_⟩ <;> decide

/-- Two emit steps ahead over S = 2, with and without a fresh other buffer. -/
theorem witness_OnePassSendsTheWholeBuffer :
    ({ tDual 0 ⟨true, true⟩ 0 false with turns := [.txeEmit, .txeEmit] } : State).turns =
        List.replicate (tDual 0 ⟨true, true⟩ 0 false).sch.len .txeEmit ++ [] ∧
      (tDual 0 ⟨true, true⟩ 0 false).busBusy = true ∧ (tDual 0 ⟨true, true⟩ 0 false).bus.mode = .sample ∧
      0 < (tDual 0 ⟨true, true⟩ 0 false).sch.len ∧
      (∀ p, p < 2 → sampleAt (tDual 0 ⟨true, true⟩ 0 false).buf (0 * 2 + p) = [(0 : Half), 1][p]?) ∧
      (∀ w ∈ [(0 : Half), 1], w.toNat < 2 ^ Config.default.sampleBits) := by
  refine ⟨by decide, by decide, by decide, by decide, by decide, ?_⟩
  exact (all_sampleFits (tDual 0 ⟨true, true⟩ 0 false) _).mp (by decide)

/-- HOST waiting for TXE to take buffer 1, with two samples of buffer 0 left and with one. -/
theorem witness_FlushWaitEndsWithinOneBuffer :
    (({ tFilled 1 with wait := .flush, turns := [.txeEmit, .txeEmit, .host] } : State).arbiterInv = true ∧
        (tFilled 1).sch.txeActive = true ∧ (tFilled 1).sch.terminate = false ∧
        ({ tFilled 1 with wait := .flush, turns := [.txeEmit, .txeEmit, .host] } : State).turns =
          List.replicate ((tFilled 1).sch.len - (tFilled 1).sch.txPos) .txeEmit ++ .host :: []) ∧
      ({ tFilled 1 with wait := .flush, sch.txPos := 1 } : State).arbiterInv = true := by decide

/-- HOST in a flush, a SCHED_STOP behind it; TXE sends the buffer in flight, takes the other one, and halts. -/
def tFair : State :=
  { tFilled 1 with wait := .flush, turns := [.txeEmit, .txeEmit, .host, .host, .txeHalt], port := [0x25000000] }

/-- Nothing is left to run and TXE has halted. -/
def tQuiet (s : State) : Bool :=
  decide (s.fault = none ∧ s.runVoid = false ∧ s.line = [] ∧ s.port = [] ∧ s.sch.txeActive = false)

/-- Whatever agent moves, a quiet state stays quiet. -/
theorem tQuiet_step {s t : State} (h : tQuiet s = true) (hs : step s = .next t) : tQuiet t = true := by
  simp only [tQuiet, decide_eq_true_eq] at h ⊢
  obtain ⟨hf, hv, hl, hp, ha⟩ := h
  obtain ⟨-, -, ts, n, hc⟩ := step_cases hs
  cases hc
  case operation hd _ => rw [hp] at hd; cases hd
  case rejected hd _ => rw [hp] at hd; cases hd
  case nothing ht => subst ht; exact ⟨hf, hv, hl, hp, ha⟩
  case flushEnds ht => subst ht; exact ⟨hf, hv, hl, hp, ha⟩
  case stopEnds ht => subst ht; exact ⟨hf, hv, hl, hp, ha⟩
  case wire h _ _ => rw [hl] at h; cases h
  case wireWide h _ _ => rw [hl] at h; cases h
  case emit ht =>
    have he := ht.trans (txeEmit_disabled (.inr (.inl ha)))
    subst he; exact ⟨hf, hv, hl, hp, ha⟩
  case halt ht =>
    subst ht; unfold State.txeHalt; split
    · exact ⟨hf, hv, hl, hp, rfl⟩
    · exact ⟨hf, hv, hl, hp, ha⟩
  case flagmon ht => subst ht; unfold State.flagmonStep; split <;> exact ⟨hf, hv, hl, hp, ha⟩
  case env ht => subst ht; unfold State.envStep; simp only; split <;> exact ⟨hf, hv, hl, hp, ha⟩

theorem tQuiet_next {s : State} (h : tQuiet s = true) : ∃ t, step s = .next t := by
  simp only [tQuiet, decide_eq_true_eq] at h
  exact step_total h.1 h.2.1

theorem tFair_quiet (k : Nat) (hk : 5 ≤ k) : tQuiet (runFrom tFair k) = true := by
  induction k, hk using Nat.le_induction with
  | base => decide
  | succ k _ ih =>
    obtain ⟨t, ht⟩ := tQuiet_next ih
    simp only [runFrom, ht]; exact tQuiet_step ih ht

theorem tFair_next (k : Nat) : ∃ t, step (runFrom tFair k) = .next t := by
  by_cases hk : 5 ≤ k
  · exact tQuiet_next (tFair_quiet k hk)
  · have : ∀ k, k < 5 → (after (step (runFrom tFair k))).isSome = true := by decide
    have h := this k (by omega)
    cases hs : step (runFrom tFair k) with
    | next t => exact ⟨t, rfl⟩
    | fault f => rw [hs] at h; cases h
    | refused f => rw [hs] at h; cases h

/-- An endless run in which TXE is weakly fair, whatever the free schedule after its first five turns: HOST waits in a flush at
its start and in a stop after four steps. -/
theorem witness_FlushWaitEndsWithinOneBuffer_fair :
    EndlessRun (runFrom tFair) ∧ TxeWeaklyFair (runFrom tFair) ∧
      ((runFrom tFair 0).arbiterInv = true ∧ (runFrom tFair 0).wait = .flush ∧ (runFrom tFair 0).sch.txeActive = true ∧
        (runFrom tFair 0).sch.terminate = false) ∧
      (runFrom tFair 4).arbiterInv = true ∧ (runFrom tFair 4).wait = .stop ∧ (runFrom tFair 4).sch.txeActive = true := by
  have hoff : ∀ k, 5 ≤ k → (runFrom tFair k).sch.txeActive = false := fun k hk => by
    have h := tFair_quiet k hk
    simp only [tQuiet, decide_eq_true_eq] at h
    exact h.2.2.2.2
  refine ⟨endlessRun_runFrom tFair_next, ⟨fun k h => ?_, fun k h => ?_⟩, by decide, by decide, by decide, by decide⟩
  · have := ((emitEnabled_iff _).mp (h (max k 5) (le_max_left _ _))).2.1
    rw [hoff _ (le_max_right _ _)] at this; cases this
  · have := ((haltEnabled_iff _).mp (h (max k 5) (le_max_left _ _))).1
    rw [hoff _ (le_max_right _ _)] at this; cases this

theorem witness_AFillLeavesTheBufferInFlight :
    (tDual 1 ⟨true, false⟩ 0 false).arbiterInv = true ∧ (tDual 1 ⟨true, false⟩ 0 false).busBusy = true ∧
      (after (exec .schedFillNextBuffer (tDual 1 ⟨true, false⟩ 0 false))).isSome = true ∧
      1 < (tDual 1 ⟨true, false⟩ 0 false).sch.len := by decide

theorem witness_FlagStepsRule :
    (tTurn (.env .tx) (tAfe [])).turns = [.env .tx] ∧ (tTurn (.flagmon .ovl) (tAfe [])).turns = [.flagmon .ovl] ∧
      (({ tAfe [] with afe.cbOn := true, afe.pend := ⟨false, false, true⟩ } : State).afe.life = .live ∧
        ({ tAfe [] with afe.cbOn := true, afe.pend := ⟨false, false, true⟩ } : State).afe.pend.get .ovl = true ∧
        ({ tAfe [] with afe.cbOn := true, afe.pend := ⟨false, false, true⟩ } : State).afe.pend.get .rx = false) ∧
      State.reset.afe.life ≠ .live ∧ (tAfe []).afe.cbOn = false := by decide

theorem witness_NoFlagsEventWithoutTheCallback :
    (tTurn (.flagmon .ovl) { tAfe [] with afe.pend := ⟨false, false, true⟩ }).afe.cbOn = false ∧
      (after (step (tTurn (.flagmon .ovl) { tAfe [] with afe.pend := ⟨false, false, true⟩ }))).map (·.cbLog) =
        some [] := by decide

/-- Samples 1023 and 1024; the states are those of `witness_bus_states`. -/
theorem witness_WireWordsAreTransactions :
    (1023 : Half).toNat < 2 ^ (tBus true .sample).cfg.sampleBits ∧
      2 ^ (tBus true .sample).cfg.sampleBits ≤ (1024 : Half).toNat ∧
      (Instr.cmdWrite 0x7F 0xFF).wellFormed (tBus true .command).cfg = true ∧
      (Instr.cmdRead 0x7F).wellFormed (tBus true .command).cfg = true ∧ (tBus true .command).cfg.admissible = true ∧
      told (exec (.cmdRead 0x0B) (tChip [0xA502])) = some ([], none, [.cmdRd 0x0B 0x02]) := by decide

/-! ## Witnesses: the whole machine -/

/-- For EveryStepKeepsMemoryCanonical, EveryStepKeepsTheArbiterInvariant, EveryStepKeepsTheHandleInvariants and HistoriesOnlyGrow:
steps of TXE and of HOST from states that meet every premise. -/
theorem witness_invariant_steps :
    ((tDual 1 ⟨true, false⟩ 0 false).memoryCanonical = true ∧ (tDual 1 ⟨true, false⟩ 0 false).arbiterInv = true ∧
        (tDual 1 ⟨true, false⟩ 0 false).modePinAgrees = true ∧ (tDual 1 ⟨true, false⟩ 0 false).afeHasBus = true) ∧
      (after (step (tTurn .txeEmit (tDual 1 ⟨true, false⟩ 0 false)))).isSome = true ∧
      (after (step ((tAfe [(2, 0xC5)]).withFetchWord 32 0x13000002))).isSome = true ∧
      (tAfe [(2, 0xC5)]).memoryCanonical = true := by decide

theorem witness_TxeNeverFaultsUnderTheInvariant :
    (tTurn .txeEmit (tDual 1 ⟨true, false⟩ 0 false)).arbiterInv = true ∧
      (after (step (tTurn .txeEmit (tDual 1 ⟨true, false⟩ 0 false)))).map (·.fault) = some none ∧
      (tTurn .txeHalt (tDual 0 ⟨true, false⟩ 0 true)).arbiterInv = true ∧
      (after (step (tTurn .txeHalt (tDual 0 ⟨true, false⟩ 0 true)))).map (·.fault) = some none := by decide

theorem witness_TheHandleStaysEqualToTheRegisters :
    (tAfe []).cfg.admissible = true ∧ Memory.wf Config.default (tAfe []).shadow = true ∧ (tAfe []).afeHasBus = true ∧
      (tAfe []).handleCoherent = true ∧
      (after (exec (.afeSetGainsRx 2 1) (tAfe []))).map (fun t => (t.handleCoherent, t.shadow)) =
        some (true, [(2, 0x06#8)]) := by decide

theorem witness_LifecyclesTakeOnlyTheirTransitions :
    State.reset.arbiterInv = true ∧
      (after (step (State.reset.withFetchWord 32 0x01000001))).map (·.bus.life) = some .live := by decide

theorem witness_EmulationNeverFailsLikeADevice :
    (tAfe []).bus.emul = true ∧ (tAfe []).cfg.admissible = true ∧ Memory.wf Config.default (tAfe []).shadow = true ∧ (tAfe []).bus.life ≠ .absent ∧
      (after (step ((tAfe []).withFetchWord 32 0x13000002))).map (·.results) = some ((tAfe []).results ++ [⟨.ok, .none⟩]) := by
  decide

end Sys2Proof.Machine
end

