-- ==== Sys2Proof/Proofs/Scope.lean ====
section
/-! PROOFS of the statements about 00_scope.md: the numbers of statuses and fault reasons, and the records of a run, which every
step extends. -/

namespace Sys2Proof.Machine

/-! ## The numbers of the statuses and of the fault reasons -/

/-- The statuses in the order of their numbers (60_exceptions.md R250). -/
def Status.listed : List Status := [.ok, .ePresence, .eResource, .eParam, .eState, .eOp, .eRefused]

/-- The fault reasons in the order of their numbers, which begin at 1 (60_exceptions.md R254). -/
def Fault.listed : List Fault := [.integrity, .lifecycle, .seq, .mode, .busy, .sampleRange, .unwritten]

theorem Status.listed_code (x : Status) : Status.listed[x.code]? = some x := by cases x <;> rfl

theorem Fault.listed_code (x : Fault) : Fault.listed[x.code - 1]? = some x := by cases x <;> rfl

/-- A status is found again at its number in the list, so its number tells it. -/
theorem Status.code_injective : Function.Injective Status.code := fun x y h =>
  Option.some.inj <| by rw [← Status.listed_code x, ← Status.listed_code y, h]

theorem Fault.code_injective : Function.Injective Fault.code := fun x y h =>
  Option.some.inj <| by rw [← Fault.listed_code x, ← Fault.listed_code y, h]

/-- Settles O6: the numbers are computed, and no two are the same because each leads back to its name. -/
theorem statusAndFaultNumbers : Obligations.StatusAndFaultNumbers :=
  ⟨rfl, rfl, fun _ _ h => Status.code_injective h, fun _ _ h => Fault.code_injective h⟩

/-! ## The records of a run only grow -/

/-- From `s` to `t` the bus history, the callback history and the results are extended, no fill is uncounted, and the
configuration is the same (00_scope.md R8, R12; 10_state.md R51; 20_memory.md R73). -/
structure Grows (s t : State) : Prop where
  busLog : s.busLog <+: t.busLog
  cbLog : s.cbLog <+: t.cbLog
  results : s.results <+: t.results
  fillCount : s.fillCount ≤ t.fillCount
  cfg : t.cfg = s.cfg

/-- The parts of a state that `Grows` speaks of. -/
def State.records (s : State) : Config × List BusEvent × List FlagBits × List Result × Nat :=
  (s.cfg, s.busLog, s.cbLog, s.results, s.fillCount)

section
variable {s t u : State}

theorem Grows.refl (s : State) : Grows s s := ⟨List.prefix_rfl, List.prefix_rfl, List.prefix_rfl, Nat.le_refl _, rfl⟩

theorem Grows.trans (h : Grows s t) (k : Grows t u) : Grows s u where
  busLog := h.busLog.trans k.busLog
  cbLog := h.cbLog.trans k.cbLog
  results := h.results.trans k.results
  fillCount := h.fillCount.trans k.fillCount
  cfg := k.cfg.trans h.cfg

/-- `Grows` reads its second state through the records alone: an update of anything else does not matter. -/
theorem Grows.congr (h : Grows s t) (e : u.records = t.records) : Grows s u := by
  obtain ⟨hcfg, hbus, hcb, hres, hfill⟩ : u.cfg = t.cfg ∧ u.busLog = t.busLog ∧ u.cbLog = t.cbLog ∧
      u.results = t.results ∧ u.fillCount = t.fillCount := by
    simpa only [State.records, Prod.mk.injEq] using e
  exact ⟨hbus ▸ h.busLog, hcb ▸ h.cbLog, hres ▸ h.results, hfill ▸ h.fillCount, hcfg.trans h.cfg⟩

theorem Grows.of_records (e : t.records = s.records) : Grows s t := (Grows.refl s).congr e

/-- `Grows` reads its first state through the records alone too. -/
theorem Grows.congr_left (h : Grows s t) (e : s.records = u.records) : Grows u t := (Grows.of_records e).trans h

/-! ### The shared operations -/

theorem Grows.reply (h : Grows s t) (st : Status) (v : Value) : Grows s (t.reply st v) :=
  h.trans { Grows.refl t with results := List.prefix_append _ _ }

theorem Grows.driveModeSel (h : Grows s t) (b : Bool) : Grows s (t.driveModeSel b) :=
  h.trans { Grows.refl t with busLog := List.prefix_append _ _ }

theorem Traffic.grows (h : Traffic s t) : Grows s t where
  busLog := h.log
  cbLog := h.cbLog ▸ List.prefix_rfl
  results := h.results ▸ List.prefix_rfl
  fillCount := h.fillCount.ge
  cfg := h.cfg

/-- A fill counts its invocation and touches no other record, whether its data fits or not (42_sched.md R206). -/
theorem grows_fill {b : Fin 2} (h : s.fill b = .ok t ∨ s.fill b = .error t) : Grows s t := by
  have counted : Grows s { s with fillCount := s.fillCount + 1 } :=
    { Grows.refl s with fillCount := Nat.le_succ _ }
  rcases fill_cases s b with ⟨_, e⟩ | ⟨_, e⟩ <;> rw [e] at h <;> rcases h with h | h <;> cases h <;>
    exact counted.congr rfl

theorem grows_prefill (h : s.prefill = .ok t ∨ s.prefill = .error t) : Grows s t := by
  unfold State.prefill at h
  split at h
  · exact grows_fill h
  · rcases h with h | h <;> cases h
    exact Grows.refl s

theorem Grows.openBus (h : Grows s t) (b : Bool) : Grows s (t.openBus b) :=
  ((h.driveModeSel false).reply _ _).congr rfl

theorem grows_finishFlush (s : State) : Grows s s.finishFlush := ((Grows.refl s).reply _ _).congr rfl

theorem grows_finishStop (s : State) : Grows s s.finishStop := ((Grows.refl s).reply _ _).congr rfl

theorem grows_bufferBoundary (s : State) : Grows s s.bufferBoundary := by
  unfold State.bufferBoundary
  simp only
  split
  · exact .of_records rfl
  · split <;> exact .of_records rfl

/-! ### Instructions and turns -/

theorem Effect.grows {i : Instr} (h : Effect s i t) : Grows s t := by
  cases h with
  | traffic _ h => exact h.grows
  | reply _ _ _ h => exact h.grows.reply _ _
  | openBus _ _ h => exact h.grows.openBus _
  | setMode => exact (((Grows.refl s).driveModeSel _).reply _ _).congr rfl
  | refuse | releaseBus | configure | releaseAfe | stopCreated | release => exact ((Grows.refl s).reply _ _).congr rfl
  | openAfe _ h | unwind _ h | afeUpdate _ _ h | openSched _ _ h | flushSync _ _ h =>
    exact (h.grows.reply _ _).congr rfl
  | start h _ _ _ hx => exact ((h.grows.trans (grows_prefill (.inl hx))).reply _ _).congr rfl
  | startError h _ _ hx => exact h.grows.trans (grows_prefill (.inr hx))
  | fill _ _ ht => exact ((grows_fill (.inl ht)).reply _ _).congr rfl
  | fillError _ ht => exact grows_fill (.inr ht)
  | stopWait | flushWait => exact .of_records rfl
  | stopNow => exact (grows_finishStop _).congr_left rfl
  | flushEnd => exact grows_finishFlush s

theorem exec_grows {i : Instr} (h : exec i s = .next t) : Grows s t := (exec_effect h).grows

theorem grows_txeEmit (s : State) : Grows s s.txeEmit := by
  unfold State.txeEmit
  split
  · refine proceed_ind (fun t ht => (traffic_sendEntry (.inr ht)).grows) fun t ht => ?_
    have sent : Grows s t := (traffic_sendEntry (.inl ht)).grows
    split
    · exact sent.congr rfl
    · exact sent.trans (grows_bufferBoundary t)
  · exact Grows.refl s

theorem grows_txeHalt (s : State) : Grows s s.txeHalt := by
  unfold State.txeHalt
  split <;> exact .of_records rfl

/-- A FLAGS event is appended to the callback history (60_exceptions.md R262). -/
theorem grows_flagmonStep (s : State) (x : FlagPin) : Grows s (s.flagmonStep x) := by
  unfold State.flagmonStep
  split
  · exact { Grows.refl s with cbLog := List.prefix_append _ _ }
  · exact Grows.refl s

theorem grows_envStep (s : State) (x : FlagPin) : Grows s (s.envStep x) := by
  unfold State.envStep
  simp only
  split <;> exact .of_records rfl

theorem TurnCase.grows (h : TurnCase s t) : Grows s t := by
  cases h with
  | operation _ _ _ _ _ he | wire _ _ _ _ _ _ he => exact (exec_grows he).congr_left rfl
  | rejected _ _ _ _ ht => exact ht ▸ ((Grows.refl s).reply _ _).congr rfl
  | nothing ht => exact ht ▸ Grows.refl s
  | flushEnds _ _ ht => exact ht ▸ grows_finishFlush s
  | stopEnds _ _ ht => exact ht ▸ grows_finishStop s
  | wireWide _ _ _ _ _ _ ht => exact ht ▸ .of_records rfl
  | emit ht => exact ht ▸ grows_txeEmit s
  | halt ht => exact ht ▸ grows_txeHalt s
  | flagmon x ht => exact ht ▸ grows_flagmonStep s x
  | env x ht => exact ht ▸ grows_envStep s x

/-- Taking the turn off the schedule touches no record, and no turn takes anything from one. -/
theorem step_grows (h : step s = .next t) : Grows s t := by
  obtain ⟨_, _, _, _, turn⟩ := step_cases h
  exact turn.grows.congr_left rfl

end

/-- Settles O58, by the cases of a step (`step_cases`) and of an instruction (`exec_effect`). -/
theorem historiesOnlyGrow : Obligations.HistoriesOnlyGrow := fun _ _ h =>
  have g := step_grows h
  ⟨g.busLog, g.cbLog, g.results, g.fillCount, g.cfg⟩

end Sys2Proof.Machine
end

/-! PROOFS of the statements about 10_state.md: the state after reset, the lifecycles with the mode-select pin, and the AFE handle
beside the registers it caches. -/

namespace Sys2Proof.Machine

/-! ## The lifecycles, the bus mode and the mode-select pin -/

/-- What the handle invariants and the lifecycle rules read of a state (10_state.md R22, R24, R27, R40). -/
structure Lives where
  bus : Life
  mode : BusMode
  modeSel : Bool
  afe : Life
  sch : SchedLife

def State.lives (s : State) : Lives := ⟨s.bus.life, s.bus.mode, s.modeSel, s.afe.life, s.sch.life⟩

/-- The moves of the block as a whole, where HOST waits as `w` says: the arrows of 10_state.md R22, R23 and R40 with what each asks
for, and the mode switch. -/
inductive Lives.Move (w : HostWait) (l : Lives) : Lives → Prop
  | stay : Move w l l
  | openBus (h : l.bus = .absent) : Move w l { l with bus := .live, mode := .command, modeSel := false }
  | releaseBus (hbus : l.bus = .live) (hafe : l.afe ≠ .live) : Move w l { l with bus := .released }
  | setMode (m : BusMode) : Move w l { l with mode := m, modeSel := decide (m = .sample) }
  | openAfe (hafe : l.afe = .absent) (hbus : l.bus = .live) : Move w l { l with afe := .live }
  | releaseAfe (h : l.afe = .live) : Move w l { l with afe := .released }
  | openSched (h : l.sch = .absent) : Move w l { l with sch := .created }
  | start (h : l.sch = .created) : Move w l { l with sch := .running }
  /-- SCHED_STOP at once, or HOST going on from its wait (42_sched.md R208, R213). -/
  | stop (h : l.sch = .created ∨ l.sch = .running ∨ w = .stop) : Move w l { l with sch := .stopped }
  | releaseSched (h : l.sch = .stopped) : Move w l { l with sch := .released }

/-! ### The shared operations -/

section
variable {s t : State}

theorem Traffic.lives (h : Traffic s t) : t.lives = s.lives := by
  simp only [State.lives, h.bus, h.modeSel, h.afe, h.sch]

theorem lives_fill {b : Fin 2} (h : s.fill b = .ok t ∨ s.fill b = .error t) : t.lives = s.lives := by
  rcases fill_cases s b with ⟨_, e⟩ | ⟨_, e⟩ <;> rw [e] at h <;> rcases h with h | h <;> cases h <;> rfl

theorem lives_prefill (h : s.prefill = .ok t ∨ s.prefill = .error t) : t.lives = s.lives := by
  unfold State.prefill at h
  split at h
  · exact lives_fill h
  · rcases h with h | h <;> cases h
    rfl

theorem lives_bufferBoundary (s : State) : s.bufferBoundary.lives = s.lives := by
  unfold State.bufferBoundary
  simp only
  split
  · rfl
  · split <;> rfl

theorem lives_txeEmit (s : State) : s.txeEmit.lives = s.lives := by
  unfold State.txeEmit
  split
  · refine proceed_ind (P := fun u => u.lives = s.lives) (fun t ht => (traffic_sendEntry (.inr ht)).lives) fun t ht => ?_
    have sent : t.lives = s.lives := (traffic_sendEntry (.inl ht)).lives
    split
    · exact sent
    · exact (lives_bufferBoundary t).trans sent
  · rfl

theorem lives_txeHalt (s : State) : s.txeHalt.lives = s.lives := by
  unfold State.txeHalt
  split <;> rfl

theorem lives_flagmonStep (s : State) (x : FlagPin) : (s.flagmonStep x).lives = s.lives := by
  unfold State.flagmonStep
  split <;> rfl

theorem lives_envStep (s : State) (x : FlagPin) : (s.envStep x).lives = s.lives := by
  unfold State.envStep
  simp only
  split <;> rfl

/-! ### Instructions and turns -/

theorem Lives.Move.of_eq {w : HostWait} {l m : Lives} (h : m = l) : Lives.Move w l m := h ▸ .stay

/-- The pin is driven at the level of the mode an operand selects (40_bus.md R123). -/
theorem decide_modeOfFlag (a : Byte) : decide (modeOfFlag a = .sample) = decide (a = 1) := by
  unfold modeOfFlag
  by_cases h : a = 1 <;> simp [h]

theorem Effect.livesMove {i : Instr} (h : Effect s i t) : s.lives.Move s.wait t.lives := by
  cases h with
  | traffic _ h | reply _ _ _ h | flushSync _ _ h => exact .of_eq h.lives
  | refuse | configure | stopWait | flushEnd | flushWait => exact .stay
  | openBus _ _ h _ hbus =>
    have move := Lives.Move.openBus (w := s.wait) (l := s.lives) hbus
    exact h.lives ▸ move
  | releaseBus hbus hafe => exact .releaseBus hbus hafe
  | setMode a =>
    have move := Lives.Move.setMode (w := s.wait) (l := s.lives) (modeOfFlag a)
    rwa [decide_modeOfFlag] at move
  | openAfe _ h _ hafe hbus =>
    have move := Lives.Move.openAfe (w := s.wait) (l := s.lives) hafe hbus
    exact h.lives ▸ move
  | unwind _ h _ hafe hbus =>
    have move := Lives.Move.releaseBus (w := s.wait) (l := s.lives) hbus (by simp [State.lives, hafe])
    exact h.lives ▸ move
  | afeUpdate _ f h _ _ hlife =>
    refine .of_eq (Eq.trans ?_ h.lives)
    simp only [State.lives, State.reply_bus, State.reply_modeSel, State.reply_afe, State.reply_sch, hlife]
  | releaseAfe h => exact .releaseAfe h
  | openSched _ _ h _ hsch =>
    have move := Lives.Move.openSched (w := s.wait) (l := s.lives) hsch
    exact h.lives ▸ move
  | start h _ hsch _ hx =>
    have move := Lives.Move.start (w := s.wait) (l := s.lives) hsch
    exact ((lives_prefill (.inl hx)).trans h.lives) ▸ move
  | startError h _ _ hx => exact .of_eq ((lives_prefill (.inr hx)).trans h.lives)
  | stopCreated h => exact .stop (.inl h)
  | stopNow h => exact .stop (.inr (.inl h))
  | release h => exact .releaseSched h
  | fill _ _ ht =>
    have filled := lives_fill (.inl ht)
    exact .of_eq filled
  | fillError _ ht => exact .of_eq (lives_fill (.inr ht))

theorem TurnCase.livesMove (h : TurnCase s t) : s.lives.Move s.wait t.lives := by
  cases h with
  | operation _ _ _ _ _ he | wire _ _ _ _ _ _ he => exact (exec_effect he).livesMove
  | rejected _ _ _ _ ht | nothing ht | flushEnds _ _ ht | wireWide _ _ _ _ _ _ ht => exact ht ▸ .stay
  | stopEnds hw _ ht => exact ht ▸ .stop (.inr (.inr hw))
  | emit ht => exact ht ▸ .of_eq (lives_txeEmit s)
  | halt ht => exact ht ▸ .of_eq (lives_txeHalt s)
  | flagmon x ht => exact ht ▸ .of_eq (lives_flagmonStep s x)
  | env x ht => exact ht ▸ .of_eq (lives_envStep s x)

/-- Every step of every agent is one of the moves. -/
theorem step_livesMove (h : step s = .next t) : s.lives.Move s.wait t.lives := by
  obtain ⟨_, _, _, _, turn⟩ := step_cases h
  exact turn.livesMove

end

/-! ### The handle invariants (10_state.md R27, 41_afe.md R174) -/

def Lives.ModePinAgrees (l : Lives) : Prop := l.bus = .live → l.modeSel = decide (l.mode = .sample)

def Lives.AfeHasBus (l : Lives) : Prop := l.afe = .live → l.bus = .live

theorem modePinAgrees_iff (s : State) : s.modePinAgrees = true ↔ s.lives.ModePinAgrees := decide_eq_true_iff

theorem afeHasBus_iff (s : State) : s.afeHasBus = true ↔ s.lives.AfeHasBus := decide_eq_true_iff

section
variable {w : HostWait} {l m : Lives}

/-- Only a create and a mode switch write the mode or the pin, and each writes both. -/
theorem Lives.Move.modePinAgrees (h : Lives.Move w l m) (hl : l.ModePinAgrees) : m.ModePinAgrees := by
  cases h with
  | stay | openAfe | releaseAfe | openSched | start | stop | releaseSched => exact hl
  | openBus | setMode => exact fun _ => rfl
  | releaseBus => exact fun h => nomatch h

/-- The bus is released only while no AFE is alive, and an AFE is made only over a live bus. -/
theorem Lives.Move.afeHasBus (h : Lives.Move w l m) (hl : l.AfeHasBus) : m.AfeHasBus := by
  cases h with
  | stay | setMode | openSched | start | stop | releaseSched => exact hl
  | openBus => exact fun _ => rfl
  | releaseBus _ hafe => exact fun h => absurd h hafe
  | openAfe _ hbus => exact fun _ => hbus
  | releaseAfe => exact fun h => nomatch h

end

/-- Settles O56: the moves keep both properties. -/
theorem everyStepKeepsTheHandleInvariants : Obligations.EveryStepKeepsTheHandleInvariants := by
  intro s t h
  simp only [modePinAgrees_iff, afeHasBus_iff]
  exact ⟨(step_livesMove h).modePinAgrees, (step_livesMove h).afeHasBus⟩

/-! ### The transitions of the lifecycles (10_state.md R22, R23, R40) -/

/-- ABSENT to LIVE to RELEASED. -/
def Life.Arrow (a b : Life) : Prop := b = a ∨ (a = .absent ∧ b = .live) ∨ (a = .live ∧ b = .released)

def SchedLife.Arrow (a b : SchedLife) : Prop :=
  b = a ∨ (a = .absent ∧ b = .created) ∨ (a = .created ∧ b = .running) ∨ (a = .running ∧ b = .stopped) ∨
    (a = .created ∧ b = .stopped) ∨ (a = .stopped ∧ b = .released)

/-- A move takes arrows only, where HOST waits for the end of a stop only while the scheduler runs. -/
theorem Lives.Move.arrows {w : HostWait} {l m : Lives} (h : Lives.Move w l m) (hw : w = .stop → l.sch = .running) :
    l.bus.Arrow m.bus ∧ l.afe.Arrow m.afe ∧ l.sch.Arrow m.sch := by
  cases h with
  | stay | setMode => exact ⟨.inl rfl, .inl rfl, .inl rfl⟩
  | openBus h => exact ⟨.inr (.inl ⟨h, rfl⟩), .inl rfl, .inl rfl⟩
  | releaseBus h => exact ⟨.inr (.inr ⟨h, rfl⟩), .inl rfl, .inl rfl⟩
  | openAfe h => exact ⟨.inl rfl, .inr (.inl ⟨h, rfl⟩), .inl rfl⟩
  | releaseAfe h => exact ⟨.inl rfl, .inr (.inr ⟨h, rfl⟩), .inl rfl⟩
  | openSched h => exact ⟨.inl rfl, .inl rfl, .inr (.inl ⟨h, rfl⟩)⟩
  | start h => exact ⟨.inl rfl, .inl rfl, .inr (.inr (.inl ⟨h, rfl⟩))⟩
  | stop h =>
    refine ⟨.inl rfl, .inl rfl, .inr (.inr (.inr ?_))⟩
    rcases h with created | running | waiting
    · exact .inr (.inl ⟨created, rfl⟩)
    · exact .inl ⟨running, rfl⟩
    · exact .inl ⟨hw waiting, rfl⟩
  | releaseSched h => exact ⟨.inl rfl, .inl rfl, .inr (.inr (.inr (.inr (.inr ⟨h, rfl⟩))))⟩

/-- Under the arbiter's invariant HOST waits for the end of a stop only while the scheduler runs (42_sched.md R208). -/
theorem running_of_wait_stop {s : State} (h : s.arbiterInv = true) (hw : s.wait = .stop) : s.sch.life = .running := by
  simp only [State.arbiterInv, Bool.and_eq_true, decide_eq_true_eq] at h
  obtain ⟨_, hstop⟩ := h
  obtain ⟨hbusy, _⟩ := hstop hw
  exact ((busBusy_iff s).mp hbusy).1

/-- Settles O59: every step is a move, and the moves take only arrows. -/
theorem lifecyclesTakeOnlyTheirTransitions : Obligations.LifecyclesTakeOnlyTheirTransitions := fun _ _ hinv h =>
  (step_livesMove h).arrows (running_of_wait_stop hinv)

/-! ## The AFE handle and the registers it caches -/

/-- The handle's cached fields are what the registers hold, read by `r` (10_state.md R49 (a)). -/
structure AfeHandle.Caches (a : AfeHandle) (c : Config) (r : RegAddr → Byte) : Prop where
  enable1 : r c.aEnable1 = encEnable1 c a.blocks
  enable2 : r c.aEnable2 = encEnable2 c a.blocks
  gainTx : r c.aGain &&& txGainMask c = encGainTx c (a.gainTx.setWidth 8)
  gainsRx : r c.aGain &&& rxGainMask c = encGainsRx c (a.gainRx1.setWidth 8) (a.gainRx2.setWidth 8)
  cal : r c.aControl1 &&& calMask c = calCode c a.cal

theorem handleCoherent_iff (s : State) :
    s.handleCoherent = true ↔ (s.afe.life = .live → s.bus.emul = true → s.afe.Caches s.cfg s.emuReg) := by
  rw [State.handleCoherent, decide_eq_true_iff]
  constructor
  · intro h hlive hemul
    obtain ⟨enable1, enable2, gainTx, gainsRx, cal⟩ := h ⟨hlive, hemul⟩
    exact ⟨enable1, enable2, gainTx, gainsRx, cal⟩
  · rintro h ⟨hlive, hemul⟩
    obtain ⟨enable1, enable2, gainTx, gainsRx, cal⟩ := h hlive hemul
    exact ⟨enable1, enable2, gainTx, gainsRx, cal⟩

/-- A register write in EMU, seen by a reader of the registers. -/
theorem emuReg_shadowPut {s t : State} {a : RegAddr} {v : Byte} (hw : Memory.wf s.cfg s.shadow = true)
    (ht : t.shadow = shadowPut s.shadow a.toNat v) : t.emuReg = Function.update s.emuReg a v := by
  funext x
  simp only [State.emuReg, ht, shadowGet_put _ _ _ _ hw, Function.update_apply, BitVec.toNat_inj]

/-- In EMU a WriteVerify goes on, and writes its register alone. -/
theorem writeVerify_written {s : State} {a : RegAddr} {v : Byte} (he : s.bus.emul = true) (hr : Carries s.cfg a)
    (hw : Memory.wf s.cfg s.shadow = true) (hv : v.toNat < 2 ^ s.cfg.regDataBits) :
    ∃ t, s.writeVerify a v = .ok t ∧ Traffic s t ∧ t.emuReg = Function.update s.emuReg a v :=
  have e := writeVerify_emul s a v he hr hw hv
  ⟨_, e, traffic_writeVerify (.inl e), emuReg_shadowPut hw rfl⟩

/-- In EMU a MaskedUpdate goes on, and writes its register alone. -/
theorem maskedUpdate_written {s : State} {a : RegAddr} {mask val : Byte} (he : s.bus.emul = true) (hr : Carries s.cfg a)
    (hw : Memory.wf s.cfg s.shadow = true) (hmask : val &&& mask = val) (hval : val.toNat < 2 ^ s.cfg.regDataBits) :
    ∃ t, s.maskedUpdate a mask val = .ok t ∧ Traffic s t ∧
      t.emuReg = Function.update s.emuReg a ((s.emuReg a &&& ~~~mask) ||| val) :=
  have e := maskedUpdate_emul s a mask val he hr hw hmask hval
  ⟨_, e, traffic_maskedUpdate (.inl e), emuReg_shadowPut hw rfl⟩

/-! ### What a setter writes, it caches -/

/-- The four registers of the setters stand at four addresses (10_state.md R29, R35). -/
structure SetterAddresses (c : Config) : Prop where
  enable1_gain : c.aEnable1 ≠ c.aGain
  enable1_enable2 : c.aEnable1 ≠ c.aEnable2
  enable1_control1 : c.aEnable1 ≠ c.aControl1
  gain_enable2 : c.aGain ≠ c.aEnable2
  gain_control1 : c.aGain ≠ c.aControl1
  enable2_control1 : c.aEnable2 ≠ c.aControl1

theorem setterAddresses_of_admissible {c : Config} (h : c.admissible = true) : SetterAddresses c := by
  simp only [Config.admissible, Config.addressesAdmissible, Bool.and_eq_true, decide_eq_true_eq, List.nodup_cons,
    List.mem_cons, not_or] at h
  obtain ⟨-, -, ⟨enable1_gain, enable1_enable2, enable1_control1, -⟩, ⟨gain_enable2, gain_control1, -⟩,
    ⟨enable2_control1, -⟩, -⟩ := h
  exact ⟨enable1_gain, enable1_enable2, enable1_control1, gain_enable2, gain_control1, enable2_control1⟩

/-- A masked update leaves the fields under a mask that shares no bit with its own. -/
theorem masked_other {old mask val other : Byte} (hv : val &&& mask = val) (h : mask &&& other = 0) :
    ((old &&& ~~~mask) ||| val) &&& other = old &&& other := by
  apply BitVec.eq_of_getLsbD_eq
  intro i hi
  have hv := congrArg (fun x : Byte => x.getLsbD i) hv
  have h := congrArg (fun x : Byte => x.getLsbD i) h
  simp only [BitVec.getLsbD_and, BitVec.getLsbD_or, BitVec.getLsbD_not, hi, decide_true, Bool.true_and] at hv h ⊢
  revert hv h
  cases old.getLsbD i <;> cases mask.getLsbD i <;> cases val.getLsbD i <;> cases other.getLsbD i <;> simp

section
variable {a : AfeHandle} {c : Config} {r : RegAddr → Byte}

theorem AfeHandle.Caches.setBlocks (h : a.Caches c r) (hc : c.admissible = true) (m : Byte) :
    { a with blocks := m }.Caches c
      (Function.update (Function.update r c.aEnable1 (encEnable1 c m)) c.aEnable2 (encEnable2 c m)) := by
  have D := setterAddresses_of_admissible hc
  constructor
  · simp [D.enable1_enable2]
  · simp
  · simpa [D.gain_enable2, D.enable1_gain.symm] using h.gainTx
  · simpa [D.gain_enable2, D.enable1_gain.symm] using h.gainsRx
  · simpa [D.enable2_control1.symm, D.enable1_control1.symm] using h.cal

theorem AfeHandle.Caches.setGainTx (h : a.Caches c r) (hc : c.admissible = true) (g : BitVec 2) :
    { a with gainTx := g }.Caches c
      (Function.update r c.aGain ((r c.aGain &&& ~~~txGainMask c) ||| encGainTx c (g.setWidth 8))) := by
  have D := setterAddresses_of_admissible hc
  have mask := encGainTx_mask c g
  constructor
  · simpa [D.enable1_gain] using h.enable1
  · simpa [D.gain_enable2.symm] using h.enable2
  · simpa using masked_readback _ _ _ mask
  · simpa using (masked_other mask (gain_masks_apart hc)).trans h.gainsRx
  · simpa [D.gain_control1.symm] using h.cal

theorem AfeHandle.Caches.setGainsRx (h : a.Caches c r) (hc : c.admissible = true) (g1 g2 : BitVec 2) :
    { a with gainRx1 := g1, gainRx2 := g2 }.Caches c
      (Function.update r c.aGain
        ((r c.aGain &&& ~~~rxGainMask c) ||| encGainsRx c (g1.setWidth 8) (g2.setWidth 8))) := by
  have D := setterAddresses_of_admissible hc
  have mask := encGainsRx_mask c g1 g2
  have apart : rxGainMask c &&& txGainMask c = 0 := (BitVec.and_comm _ _).trans (gain_masks_apart hc)
  constructor
  · simpa [D.enable1_gain] using h.enable1
  · simpa [D.gain_enable2.symm] using h.enable2
  · simpa using (masked_other mask apart).trans h.gainTx
  · simpa using masked_readback _ _ _ mask
  · simpa [D.gain_control1.symm] using h.cal

theorem AfeHandle.Caches.setCal (h : a.Caches c r) (hc : c.admissible = true) (m : Cal) :
    { a with cal := m }.Caches c
      (Function.update r c.aControl1 ((r c.aControl1 &&& ~~~calMask c) ||| calCode c m)) := by
  have D := setterAddresses_of_admissible hc
  constructor
  · simpa [D.enable1_control1] using h.enable1
  · simpa [D.enable2_control1] using h.enable2
  · simpa [D.gain_control1] using h.gainTx
  · simpa [D.gain_control1] using h.gainsRx
  · simpa using masked_readback _ _ _ (calCode_mask c m)

end

/-! ### Most instructions leave the handle and the registers -/

/-- Everything `State.handleCoherent` reads. -/
def State.handleParts (s : State) : Config × Bool × List Host.Cell × Life × Byte × Cal × BitVec 2 × BitVec 2 × BitVec 2 :=
  (s.cfg, s.bus.emul, s.shadow, s.afe.life, s.afe.blocks, s.afe.cal, s.afe.gainTx, s.afe.gainRx1, s.afe.gainRx2)

section
variable {s t k : State}

theorem handleCoherent_congr (h : t.handleParts = s.handleParts) : t.handleCoherent = s.handleCoherent := by
  simp only [State.handleParts, Prod.mk.injEq] at h
  obtain ⟨cfg, emul, shadow, life, blocks, cal, gainTx, gainRx1, gainRx2⟩ := h
  refine decide_eq_decide.mpr ?_
  simp only [State.emuReg, cfg, emul, shadow, life, blocks, cal, gainTx, gainRx1, gainRx2]

theorem handleParts_requireStatus {p : Prop} [Decidable p] {e : Status} (h : p → k.handleParts = s.handleParts) :
    (s.requireStatus p e k).handleParts = s.handleParts :=
  requireStatus_ind (P := fun u => u.handleParts = s.handleParts) (fun _ => rfl) h

theorem handleParts_requireFault {p : Prop} [Decidable p] {f : Fault} (h : p → k.handleParts = s.handleParts) :
    (s.requireFault p f k).handleParts = s.handleParts :=
  requireFault_ind (P := fun u => u.handleParts = s.handleParts) (fun _ => rfl) h

theorem handleParts_proceed {r : Except State State} {f : State → State}
    (hr : ∀ {u}, r = .ok u ∨ r = .error u → u.handleParts = s.handleParts)
    (hf : ∀ u, (f u).handleParts = u.handleParts) : (proceed r f).handleParts = s.handleParts :=
  proceed_ind (P := fun u => u.handleParts = s.handleParts) (fun _ hu => hr (.inr hu))
    fun u hu => (hf u).trans (hr (.inl hu))

theorem handleParts_drawResource (s : State) : s.drawResource.1.handleParts = s.handleParts := by
  rw [drawResource_fst]; rfl

theorem handleParts_readReg (s : State) (a : RegAddr) : (s.readReg a).1.handleParts = s.handleParts := by
  rw [readReg_fst]; rfl

theorem handleParts_sampleWord {w : Half} (h : s.sampleWord w = .ok t ∨ s.sampleWord w = .error t) :
    t.handleParts = s.handleParts := by
  rcases sampleWord_cases s w with ⟨_, e⟩ | ⟨_, _, e⟩ | ⟨_, _, e⟩ <;> rw [e] at h <;> rcases h with h | h <;> cases h <;> rfl

theorem handleParts_sampleWords {ws : List Half} (h : s.sampleWords ws = .ok t ∨ s.sampleWords ws = .error t) :
    t.handleParts = s.handleParts := by
  obtain ⟨_, ⟨e, _⟩ | ⟨_, _, e⟩⟩ := sampleWords_cases s ws <;> rw [e] at h <;> rcases h with h | h <;> cases h <;> rfl

theorem handleParts_sendEntry {b : Fin 2} {p : Nat} (h : s.sendEntry b p = .ok t ∨ s.sendEntry b p = .error t) :
    t.handleParts = s.handleParts := by
  rcases sendEntry_cases s b p with ⟨_, e⟩ | ⟨_, _, e⟩ <;> rw [e] at h <;> rcases h with h | h <;> cases h <;> rfl

theorem handleParts_sendFrom {n p : Nat} (h : s.sendFrom p n = .ok t ∨ s.sendFrom p n = .error t) :
    t.handleParts = s.handleParts := by
  induction n generalizing s p with
  | zero =>
    simp only [State.sendFrom] at h
    rcases h with h | h <;> cases h
    rfl
  | succ n ih =>
    simp only [State.sendFrom] at h
    split at h
    next u hu =>
      rcases h with h | h <;> cases h
      exact handleParts_sendEntry (.inr hu)
    next u hu => exact (ih h).trans (handleParts_sendEntry (.inl hu))

theorem handleParts_fill {b : Fin 2} (h : s.fill b = .ok t ∨ s.fill b = .error t) : t.handleParts = s.handleParts := by
  rcases fill_cases s b with ⟨_, e⟩ | ⟨_, e⟩ <;> rw [e] at h <;> rcases h with h | h <;> cases h <;> rfl

theorem handleParts_prefill (h : s.prefill = .ok t ∨ s.prefill = .error t) : t.handleParts = s.handleParts := by
  unfold State.prefill at h
  split at h
  · exact handleParts_fill h
  · rcases h with h | h <;> cases h
    rfl

end

/-- The instructions that write neither a register nor the handle: all but the two creates, the release and the setters of the AFE,
and the direct register writes. -/
def leavesHandle : Instr → Bool
  | .busCreate _ | .busWriteCommand _ _ | .afeCreate | .afeRelease | .afeActivateBlocks _ | .afeSetGainTx _
  | .afeSetGainsRx _ _ | .afeSetCalibration _ | .cmdWrite _ _ => false
  | _ => true

theorem exec_handleParts {i : Instr} {s t : State} (hi : leavesHandle i = true) (h : exec i s = .next t) :
    t.handleParts = s.handleParts := by
  have drawn := handleParts_drawResource s
  cases i <;> have h := Host.Outcome.next.inj h <;> subst h
  case busCreate | busWriteCommand | afeCreate | afeRelease | afeActivateBlocks | afeSetGainTx | afeSetGainsRx
      | afeSetCalibration | cmdWrite => cases hi
  case busRelease | schedRelease => exact handleParts_requireFault fun _ => handleParts_requireFault fun _ => rfl
  case busConfigure =>
    exact handleParts_requireStatus fun _ => handleParts_requireFault fun _ => handleParts_requireFault fun _ => rfl
  case busSetSampleMode =>
    refine handleParts_requireStatus fun _ => handleParts_requireFault fun _ => handleParts_requireFault fun _ => ?_
    split <;> rfl
  case busReadCommand a =>
    exact handleParts_requireStatus fun _ => handleParts_requireFault fun _ => handleParts_requireFault fun _ =>
      handleParts_requireFault fun _ => handleParts_readReg s a
  case busTransferSingleSample | sample =>
    exact handleParts_requireFault fun _ => handleParts_requireFault fun _ =>
      handleParts_proceed handleParts_sampleWord fun _ => rfl
  case busTransferSampleBuffer =>
    exact handleParts_requireFault fun _ => handleParts_requireFault fun _ => handleParts_requireFault fun _ =>
      handleParts_requireFault fun _ => handleParts_proceed handleParts_sampleWords fun _ => rfl
  case busRateToBits =>
    refine handleParts_requireStatus fun _ => ?_
    split <;> rfl
  case busBitsToRate | afeSetStandby => exact handleParts_requireStatus fun _ => rfl
  case busGetEffectiveRate | afeGetRevision | afeGetState | afeIsPresent | schedGetMissed =>
    exact handleParts_requireFault fun _ => rfl
  case afeSetFlagsCallback =>
    refine handleParts_requireStatus fun _ => handleParts_requireFault fun _ => ?_
    split
    · split <;> rfl
    · rfl
  case schedCreate =>
    refine handleParts_requireStatus fun _ => ?_
    split
    · rfl
    · refine handleParts_requireFault fun _ => handleParts_requireStatus fun _ => ?_
      split
      · rfl
      · split <;> exact drawn
  case schedStart =>
    refine handleParts_requireFault fun _ => handleParts_requireStatus fun _ => handleParts_requireStatus fun _ => ?_
    split
    · split
      · exact handleParts_proceed (fun hu => (handleParts_prefill hu).trans drawn) fun _ => rfl
      · exact drawn
    · exact handleParts_proceed handleParts_prefill fun _ => rfl
  case schedFillNextBuffer =>
    exact handleParts_requireFault fun _ => handleParts_requireFault fun _ =>
      handleParts_proceed handleParts_fill fun _ => rfl
  case schedFlushAndWaitBuffer =>
    refine handleParts_requireFault fun _ => handleParts_requireFault fun _ => ?_
    split
    · exact handleParts_proceed handleParts_sendFrom fun _ => rfl
    · split <;> rfl
  case schedGetAddressBufferInTx => exact handleParts_requireFault fun _ => handleParts_requireStatus fun _ => rfl
  case schedStop =>
    refine handleParts_requireFault fun _ => ?_
    split
    · rfl
    · split
      · rfl
      · simp only
        split <;> rfl
  case cmdRead a =>
    exact handleParts_requireFault fun _ => handleParts_requireFault fun _ => handleParts_requireFault fun _ =>
      handleParts_readReg s a

/-! ### A create and the setters keep the handle equal to the registers -/

section
variable {s t k : State}

theorem handleCoherent_of_afe_not_live (h : s.afe.life ≠ .live) : s.handleCoherent = true :=
  (handleCoherent_iff s).mpr fun hlive => absurd hlive h

/-- On a physical chip the block holds no register file to compare with. -/
theorem handleCoherent_of_phys (h : s.bus.emul = false) : s.handleCoherent = true :=
  (handleCoherent_iff s).mpr fun _ hemul => absurd (h ▸ hemul) Bool.false_ne_true

theorem handleCoherent_requireStatus {p : Prop} [Decidable p] {e : Status} (hs : s.handleCoherent = true)
    (h : p → k.handleCoherent = true) : (s.requireStatus p e k).handleCoherent = true :=
  requireStatus_ind (P := fun u => u.handleCoherent = true) (fun _ => hs) h

theorem handleCoherent_requireFault {p : Prop} [Decidable p] {f : Fault} (hs : s.handleCoherent = true)
    (h : p → k.handleCoherent = true) : (s.requireFault p f k).handleCoherent = true :=
  requireFault_ind (P := fun u => u.handleCoherent = true) (fun _ => hs) h

/-- The body of a setter runs with a live AFE, so with a handle that caches the registers in EMU. -/
theorem handleCoherent_requireSetter (hs : s.handleCoherent = true)
    (h : (s.bus.emul = true → s.afe.Caches s.cfg s.emuReg) → k.handleCoherent = true) :
    (s.requireSetter k).handleCoherent = true :=
  handleCoherent_requireFault hs fun hlive => handleCoherent_requireFault hs fun _ => handleCoherent_requireFault hs fun _ =>
    h ((handleCoherent_iff s).mp hs hlive)

/-- No AFE is alive over an absent bus, so a bus create has no handle to keep. -/
theorem handleCoherent_execBusCreate (a : Byte) (hb : s.afeHasBus = true) (hs : s.handleCoherent = true)
    (h : execBusCreate a s = .next t) : t.handleCoherent = true := by
  have drawn := handleParts_drawResource s
  obtain rfl := Host.Outcome.next.inj h
  refine handleCoherent_requireStatus hs fun _ => handleCoherent_requireFault hs fun habsent => ?_
  have hafe : s.afe.life ≠ .live := fun hlive => by
    have hlive := (afeHasBus_iff s).mp hb hlive
    exact absurd (habsent.symm.trans hlive) (by decide)
  split
  · split
    · exact handleCoherent_of_afe_not_live (by simpa [State.openBus, (traffic_drawResource s).afe] using hafe)
    · exact (handleCoherent_congr drawn).trans hs
  · exact handleCoherent_of_afe_not_live hafe

/-- A setter that writes one field: in EMU the readback agrees, so the handle is updated; on a physical chip nothing is asked. -/
theorem handleCoherent_maskedUpdate {a : RegAddr} {mask val : Byte} (f : AfeHandle → AfeHandle) (hr : Carries s.cfg a)
    (hw : Memory.wf s.cfg s.shadow = true) (hmask : val &&& mask = val) (hval : val.toNat < 2 ^ s.cfg.regDataBits)
    (h : s.bus.emul = true → (f s.afe).Caches s.cfg (Function.update s.emuReg a ((s.emuReg a &&& ~~~mask) ||| val))) :
    (proceed (s.maskedUpdate a mask val) fun t => { t with afe := f t.afe }.reply .ok).handleCoherent = true := by
  cases hemul : s.bus.emul
  · have phys {t : State} (ht : s.maskedUpdate a mask val = .ok t ∨ s.maskedUpdate a mask val = .error t) :
        t.bus.emul = false := by rw [(traffic_maskedUpdate ht).bus, hemul]
    refine proceed_ind (P := fun u => u.handleCoherent = true) (fun t ht => handleCoherent_of_phys (phys (.inr ht)))
      fun t ht => ?_
    have still := phys (.inl ht)
    exact handleCoherent_of_phys still
  · obtain ⟨t, ht, st, rt⟩ := maskedUpdate_written hemul hr hw hmask hval
    rw [ht, proceed_ok, handleCoherent_iff]
    intro _ _
    change (f t.afe).Caches t.cfg t.emuReg
    rw [rt, st.cfg, st.afe]
    exact h hemul

theorem handleCoherent_execAfeSetGainTx (g : Byte) (hc : s.cfg.admissible = true) (hw : Memory.wf s.cfg s.shadow = true)
    (hs : s.handleCoherent = true) (h : execAfeSetGainTx g s = .next t) : t.handleCoherent = true := by
  obtain rfl := Host.Outcome.next.inj h
  refine handleCoherent_requireStatus hs fun hg => handleCoherent_requireSetter hs fun caches => ?_
  obtain ⟨-, hr, -⟩ := carries_of_admissible hc
  obtain ⟨g, rfl⟩ := level_eq_setWidth g hg
  refine handleCoherent_maskedUpdate (fun a => { a with gainTx := gainLevel (g.setWidth 8) }) hr hw (encGainTx_mask _ g)
    (encGainTx_lt hc g) fun hemul => ?_
  simpa [gainLevel] using (caches hemul).setGainTx hc g

theorem handleCoherent_execAfeSetGainsRx (g1 g2 : Byte) (hc : s.cfg.admissible = true)
    (hw : Memory.wf s.cfg s.shadow = true) (hs : s.handleCoherent = true) (h : execAfeSetGainsRx g1 g2 s = .next t) :
    t.handleCoherent = true := by
  obtain rfl := Host.Outcome.next.inj h
  refine handleCoherent_requireStatus hs fun hg => handleCoherent_requireSetter hs fun caches => ?_
  obtain ⟨-, hr, -⟩ := carries_of_admissible hc
  obtain ⟨g1, rfl⟩ := level_eq_setWidth g1 hg.1
  obtain ⟨g2, rfl⟩ := level_eq_setWidth g2 hg.2
  refine handleCoherent_maskedUpdate
    (fun a => { a with gainRx1 := gainLevel (g1.setWidth 8), gainRx2 := gainLevel (g2.setWidth 8) }) hr hw
    (encGainsRx_mask _ g1 g2) (encGainsRx_lt hc g1 g2) fun hemul => ?_
  simpa [gainLevel] using (caches hemul).setGainsRx hc g1 g2

theorem handleCoherent_execAfeSetCalibration (c : Byte) (hc : s.cfg.admissible = true)
    (hw : Memory.wf s.cfg s.shadow = true) (hs : s.handleCoherent = true) (h : execAfeSetCalibration c s = .next t) :
    t.handleCoherent = true := by
  obtain rfl := Host.Outcome.next.inj h
  refine handleCoherent_requireStatus hs fun _ => handleCoherent_requireSetter hs fun caches => ?_
  obtain ⟨-, -, -, hr, -⟩ := carries_of_admissible hc
  exact handleCoherent_maskedUpdate (fun a => { a with cal := calOf c }) hr hw (calCode_mask _ _) (calCode_lt hc _)
    fun hemul => (caches hemul).setCal hc (calOf c)

/-- Both enable registers are written whole, one after the other. -/
theorem handleCoherent_execAfeActivateBlocks (m : Byte) (hc : s.cfg.admissible = true)
    (hw : Memory.wf s.cfg s.shadow = true) (hs : s.handleCoherent = true) (h : execAfeActivateBlocks m s = .next t) :
    t.handleCoherent = true := by
  obtain rfl := Host.Outcome.next.inj h
  refine handleCoherent_requireSetter hs fun caches => ?_
  obtain ⟨hr1, -, hr2, -⟩ := carries_of_admissible hc
  cases hemul : s.bus.emul
  · have phys {u v : State} {a : RegAddr} {b : Byte} (hu : u.bus.emul = false)
        (h : u.writeVerify a b = .ok v ∨ u.writeVerify a b = .error v) : v.bus.emul = false := by
      rw [(traffic_writeVerify h).bus, hu]
    refine proceed_ind (P := fun u => u.handleCoherent = true) (fun u hu => handleCoherent_of_phys (phys hemul (.inr hu)))
      fun u hu => ?_
    have between := phys hemul (.inl hu)
    refine proceed_ind (P := fun v => v.handleCoherent = true) (fun v hv => handleCoherent_of_phys (phys between (.inr hv)))
      fun v hv => ?_
    have still := phys between (.inl hv)
    exact handleCoherent_of_phys still
  · obtain ⟨u, hu, su, ru⟩ := writeVerify_written hemul hr1 hw (encEnable1_lt hc m)
    obtain ⟨v, hv, sv, rv⟩ := writeVerify_written (a := s.cfg.aEnable2) (v := encEnable2 s.cfg m) (su.bus ▸ hemul)
      (su.cfg.symm ▸ hr2) (su.shadow hw) (su.cfg.symm ▸ encEnable2_lt hc m)
    have all := su.trans sv
    rw [hu, proceed_ok, hv, proceed_ok, handleCoherent_iff]
    intro _ _
    change { v.afe with blocks := m }.Caches v.cfg v.emuReg
    rw [rv, ru, all.cfg, all.afe]
    exact (caches hemul).setBlocks hc m

end

/-- Settles O57: an instruction that is no create, setter or release of the AFE leaves all that is compared, a bus create finds no
AFE, a release leaves none, and each setter caches what it writes. -/
theorem theHandleStaysEqualToTheRegisters : Obligations.TheHandleStaysEqualToTheRegisters := by
  intro i s t hnoWrite hnoWire hnoCreate hc hw hb hs h
  cases i
  case busWriteCommand a b => exact absurd rfl (hnoWrite a b)
  case cmdWrite a v => exact absurd rfl (hnoWire a v)
  case afeCreate => exact absurd rfl hnoCreate
  case busCreate a => exact handleCoherent_execBusCreate a hb hs h
  case afeRelease =>
    obtain rfl := Host.Outcome.next.inj h
    exact handleCoherent_requireFault hs fun _ => handleCoherent_of_afe_not_live (by simp)
  case afeActivateBlocks m => exact handleCoherent_execAfeActivateBlocks m hc hw hs h
  case afeSetGainTx g => exact handleCoherent_execAfeSetGainTx g hc hw hs h
  case afeSetGainsRx g1 g2 => exact handleCoherent_execAfeSetGainsRx g1 g2 hc hw hs h
  case afeSetCalibration c => exact handleCoherent_execAfeSetCalibration c hc hw hs h
  all_goals exact (handleCoherent_congr (exec_handleParts rfl h)).trans hs

/-! ## Reset (10_state.md R50, 70_reset_and_hazards.md R291) -/

/-- Settles O51: the fields of `State.reset` are the listed values. -/
theorem resetLeavesWhatTheSpecGives : Obligations.ResetLeavesWhatTheSpecGives :=
  ⟨rfl, rfl, rfl, rfl, rfl, rfl, rfl, rfl, rfl, rfl, rfl⟩

/-- Settles O52: both memories are empty, nothing runs, and neither bus nor AFE is alive. -/
theorem resetMeetsTheInvariants : Obligations.ResetMeetsTheInvariants :=
  ⟨rfl, by decide, by decide, by decide, handleCoherent_of_afe_not_live (by decide), by decide⟩

end Sys2Proof.Machine

/-! PROOFS of the statements about 20_memory.md: the canonical form of the two address spaces, which every step keeps, and the bare
wire words, which the bus mode reads. -/

namespace Sys2Proof.Machine

/-! ## The canonical form of both address spaces -/

theorem memoryCanonical_iff (s : State) :
    s.memoryCanonical = true ↔ Memory.wf s.cfg s.shadow = true ∧ SampleMemory.wf s.cfg s.buf = true := by
  rw [State.memoryCanonical, Bool.and_eq_true]

section
variable {s t : State}

/-! ### The shared operations -/

/-- Transfers touch no sample, and what a frame writes of the register file is canonical. -/
theorem Traffic.memoryCanonical (h : Traffic s t) (hs : s.memoryCanonical = true) : t.memoryCanonical = true := by
  rw [memoryCanonical_iff] at hs ⊢
  obtain ⟨registers, samples⟩ := hs
  refine ⟨h.shadow registers, ?_⟩
  rw [h.cfg, h.buf]
  exact samples

/-- A fill stores only data it has checked (20_memory.md R70). -/
theorem memoryCanonical_fill {b : Fin 2} (h : s.fill b = .ok t ∨ s.fill b = .error t) (hs : s.memoryCanonical = true) :
    t.memoryCanonical = true := by
  rcases fill_cases s b with ⟨fits, e⟩ | ⟨_, e⟩ <;> rw [e] at h <;> rcases h with h | h <;> cases h
  case inl.inl =>
    obtain ⟨registers, samples⟩ := (memoryCanonical_iff s).mp hs
    exact (memoryCanonical_iff _).mpr ⟨registers, wf_samplesPut _ fits samples⟩
  case inr.inr => exact hs

theorem memoryCanonical_prefill (h : s.prefill = .ok t ∨ s.prefill = .error t) (hs : s.memoryCanonical = true) :
    t.memoryCanonical = true := by
  unfold State.prefill at h
  split at h
  · exact memoryCanonical_fill h hs
  · rcases h with h | h <;> cases h
    exact hs

/-- A create in EMU empties the register file, one in PHYS leaves it (10_state.md R28). -/
theorem memoryCanonical_openBus (b : Bool) (hs : s.memoryCanonical = true) : (s.openBus b).memoryCanonical = true := by
  obtain ⟨registers, samples⟩ := (memoryCanonical_iff s).mp hs
  cases b with
  | true => exact (memoryCanonical_iff _).mpr ⟨rfl, samples⟩
  | false => exact hs

/-- No sample is stored after a SCHED_CREATE or a SCHED_RELEASE (10_state.md R42). -/
theorem memoryCanonical_noSamples (hs : s.memoryCanonical = true) :
    ({ s with buf := [] } : State).memoryCanonical = true := by
  obtain ⟨registers, _⟩ := (memoryCanonical_iff s).mp hs
  exact (memoryCanonical_iff _).mpr ⟨registers, rfl⟩

/-! ### The other agents -/

theorem memoryCanonical_bufferBoundary (hs : s.memoryCanonical = true) : s.bufferBoundary.memoryCanonical = true := by
  unfold State.bufferBoundary
  simp only
  split
  · exact hs
  · split <;> exact hs

theorem memoryCanonical_txeEmit (hs : s.memoryCanonical = true) : s.txeEmit.memoryCanonical = true := by
  unfold State.txeEmit
  split
  · refine proceed_ind (P := fun u => u.memoryCanonical = true)
      (fun t ht => (traffic_sendEntry (.inr ht)).memoryCanonical hs) fun t ht => ?_
    have sent : t.memoryCanonical = true := (traffic_sendEntry (.inl ht)).memoryCanonical hs
    split
    · exact sent
    · exact memoryCanonical_bufferBoundary sent
  · exact hs

theorem memoryCanonical_txeHalt (hs : s.memoryCanonical = true) : s.txeHalt.memoryCanonical = true := by
  unfold State.txeHalt
  split <;> exact hs

theorem memoryCanonical_flagmonStep (x : FlagPin) (hs : s.memoryCanonical = true) :
    (s.flagmonStep x).memoryCanonical = true := by
  unfold State.flagmonStep
  split <;> exact hs

theorem memoryCanonical_envStep (x : FlagPin) (hs : s.memoryCanonical = true) :
    (s.envStep x).memoryCanonical = true := by
  unfold State.envStep
  simp only
  split <;> exact hs

/-! ### Instructions and turns -/

/-- Only transfers, fills, the two creates and SCHED_RELEASE touch an address space. -/
theorem Effect.memoryCanonical {i : Instr} (h : Effect s i t) (hs : s.memoryCanonical = true) :
    t.memoryCanonical = true := by
  cases h with
  | traffic _ h => exact h.memoryCanonical hs
  | reply _ _ _ h | openAfe _ h | unwind _ h | afeUpdate _ _ h | flushSync _ _ h =>
    have kept := h.memoryCanonical hs
    exact kept
  | openBus _ b h => exact memoryCanonical_openBus b (h.memoryCanonical hs)
  | openSched _ _ h =>
    have emptied := memoryCanonical_noSamples (h.memoryCanonical hs)
    exact emptied
  | release =>
    have emptied := memoryCanonical_noSamples hs
    exact emptied
  | start h _ _ _ hx =>
    have filled := memoryCanonical_prefill (.inl hx) (h.memoryCanonical hs)
    exact filled
  | startError h _ _ hx => exact memoryCanonical_prefill (.inr hx) (h.memoryCanonical hs)
  | fill _ _ ht =>
    have filled := memoryCanonical_fill (.inl ht) hs
    exact filled
  | fillError _ ht => exact memoryCanonical_fill (.inr ht) hs
  | refuse | releaseBus | configure | setMode | releaseAfe | stopCreated | stopWait | stopNow | flushEnd | flushWait =>
    exact hs

theorem TurnCase.memoryCanonical (h : TurnCase s t) (hs : s.memoryCanonical = true) : t.memoryCanonical = true := by
  cases h with
  | operation _ _ _ _ _ he | wire _ _ _ _ _ _ he => exact (exec_effect he).memoryCanonical hs
  | rejected _ _ _ _ ht | nothing ht | flushEnds _ _ ht | stopEnds _ _ ht | wireWide _ _ _ _ _ _ ht => exact ht ▸ hs
  | emit ht => exact ht ▸ memoryCanonical_txeEmit hs
  | halt ht => exact ht ▸ memoryCanonical_txeHalt hs
  | flagmon x ht => exact ht ▸ memoryCanonical_flagmonStep x hs
  | env x ht => exact ht ▸ memoryCanonical_envStep x hs

/-- Every step of every agent keeps the canonical form: taking the turn off the schedule touches no address space. -/
theorem step_memoryCanonical (h : step s = .next t) (hs : s.memoryCanonical = true) : t.memoryCanonical = true := by
  obtain ⟨_, _, _, _, turn⟩ := step_cases h
  exact turn.memoryCanonical hs

end

/-- Settles O53, by the cases of a step (`step_cases`) and of an instruction (`exec_effect`); a sample of the canonical form fits
its container. -/
theorem everyStepKeepsMemoryCanonical : Obligations.EveryStepKeepsMemoryCanonical := by
  intro s t hs h
  have ht : t.memoryCanonical = true := step_memoryCanonical h hs
  obtain ⟨_, samples⟩ := (memoryCanonical_iff t).mp ht
  exact ⟨ht, fun hbits _ _ hv => sampleAt_lt_container samples hbits hv⟩

/-! ## Bare wire words (20_memory.md R65) -/

/-- A step of HOST that is not blocked sends the first word on the line. -/
theorem step_line {s : State} {ts : List Turn} {w : Word} {ws : List Word} (hf : s.fault = none) (hv : s.runVoid = false)
    (ht : s.turns = .host :: ts) (hw : s.wait = .ready) (hl : s.line = w :: ws) :
    step s = wireWord w { s with turns := ts, line := ws } := by
  rw [step_running hf hv, nextTurn_listed s ht]
  simp only [runTurn, hostTurn, hw, hostReady, hl]

section
variable (s : State) {w : Word}

/-- In COMMAND mode every word is a frame. -/
theorem wireWord_command (hm : s.bus.mode = .command) {f : Frame} (hd : decFrame s.cfg w = f) :
    wireWord w s = exec f.instr s := by
  simp only [wireWord, State.lineCode, hm, decode, hd]

/-- In SAMPLE mode a word of at most 16 bits is a sample word. -/
theorem wireWord_sample (hm : s.bus.mode = .sample) {v : Half} (hv : w.toNat = v.toNat) :
    wireWord w s = exec (.sample v) s := by
  have fits : w.toNat < 65536 := hv ▸ v.isLt
  have low : w.setWidth 16 = v := BitVec.eq_of_toNat_eq (by rw [BitVec.toNat_setWidth, hv, Nat.mod_eq_of_lt v.isLt])
  simp only [wireWord, State.lineCode, hm, if_pos fits, decode, low]

/-- A word wider than any sample word is never truncated (30_encoding.md R96). -/
theorem wireWord_wide (hm : s.bus.mode = .sample) (hw : 2 ^ 16 ≤ w.toNat) (hlive : s.bus.life = .live)
    (hidle : s.busBusy = false) : wireWord w s = .next (s.raise .sampleRange) := by
  have wide : ¬ w.toNat < 65536 := Nat.not_lt.mpr hw
  simp only [wireWord, State.lineCode, hm, if_neg wide, State.requireBusLive, State.requireBusIdle,
    requireFault_pos hlive, requireFault_pos hidle]

end

/-- Settles O8: the step sends the word (`step_line`), which the bus mode reads. -/
theorem stepRunsTheWireWord : Obligations.StepRunsTheWireWord := by
  intro s ts w ws hf hv ht hw hl
  rw [step_line hf hv ht hw hl]
  refine ⟨fun v hm hval => ?sample, fun hm hwide hlive hidle => ?wide, fun a v hm hd => ?write, fun a hm hd => ?read⟩
  case sample => exact wireWord_sample { s with turns := ts, line := ws } hm hval
  case wide => exact wireWord_wide { s with turns := ts, line := ws } hm hwide hlive hidle
  case write => exact wireWord_command { s with turns := ts, line := ws } hm hd
  case read => exact wireWord_command { s with turns := ts, line := ws } hm hd

end Sys2Proof.Machine

/-! PROOFS of the statements about 30_encoding.md: the codec of the host operations, read through the format of each operation
code; the words that are no operation; the command frames at the defaults; and the operands out of range. -/

namespace Sys2Proof

/-! ## Formats (30_encoding.md R100) -/

/-- The formats of an operation word, each with the operation its fields make. -/
inductive OpFormat where
  | h0 (i : Instr)
  | h1 (f : Byte → Instr)
  | h2 (f : Byte → Byte → Instr)
  | hw (f : Byte → Half → Instr)
  /-- Format HW with the u8 held at zero (BUS_TRANSFER_SINGLE_SAMPLE, R101). -/
  | hwZero (f : Half → Instr)
  | hx (f : Word → Instr)
  | hv (f : List Half → Instr)

/-- The operation code map (30_encoding.md R101 to R103); a code it does not list is assigned to nothing (R104). -/
def opFormat : Nat → Option OpFormat
  | 0x01 => some (.h1 .busCreate)
  | 0x02 => some (.h0 .busRelease)
  | 0x03 => some (.hw .busConfigure)
  | 0x04 => some (.h1 .busSetSampleMode)
  | 0x05 => some (.h2 .busWriteCommand)
  | 0x06 => some (.h1 .busReadCommand)
  | 0x07 => some (.hwZero .busTransferSingleSample)
  | 0x08 => some (.hv .busTransferSampleBuffer)
  | 0x09 => some (.hx .busRateToBits)
  | 0x0A => some (.h1 .busBitsToRate)
  | 0x0B => some (.h0 .busGetEffectiveRate)
  | 0x10 => some (.h0 .afeCreate)
  | 0x11 => some (.h0 .afeRelease)
  | 0x12 => some (.h1 .afeActivateBlocks)
  | 0x13 => some (.h1 .afeSetGainTx)
  | 0x14 => some (.h2 .afeSetGainsRx)
  | 0x15 => some (.h1 .afeSetCalibration)
  | 0x16 => some (.h1 .afeSetStandby)
  | 0x17 => some (.h0 .afeGetRevision)
  | 0x18 => some (.h0 .afeGetState)
  | 0x19 => some (.h1 .afeSetFlagsCallback)
  | 0x1A => some (.h0 .afeIsPresent)
  | 0x20 => some (.hw .schedCreate)
  | 0x21 => some (.h0 .schedStart)
  | 0x22 => some (.h0 .schedFillNextBuffer)
  | 0x23 => some (.h0 .schedFlushAndWaitBuffer)
  | 0x24 => some (.h0 .schedGetAddressBufferInTx)
  | 0x25 => some (.h0 .schedStop)
  | 0x26 => some (.h0 .schedRelease)
  | 0x27 => some (.h0 .schedGetMissed)
  | _ => none

theorem opFormat_beyond {n : Nat} (h : 0x28 ≤ n) : opFormat n = none := by
  unfold opFormat
  split
  case h_31 => rfl
  all_goals exact absurd h (by decide)

/-- The decoder of one format. -/
def OpFormat.decode (w : Word) (rest : List Word) : OpFormat → Decoded
  | .h0 i => decodeH0 w rest i
  | .h1 f => decodeH1 w rest f
  | .h2 f => decodeH2 w rest f
  | .hw f => decodeHW w rest f
  | .hwZero f => if highField w = 0 then .instr (f (halfField w)) rest else .reject .mustBeZero
  | .hx f => decodeHX w rest f
  | .hv f => decodeHV w rest f

/-- The decoder reads a word by the format of its operation code. -/
theorem decodeWords_cons (w : Word) (rest : List Word) :
    decodeWords (w :: rest) = (opFormat (opField w).toNat).elim (.reject .unknownOperation) (·.decode w rest) := by
  simp only [decodeWords]
  generalize (opField w).toNat = n
  split
  case h_31 => simp only [opFormat, Option.elim_none]
  all_goals rfl

/-- The words of the operations of one format under the code `op`. -/
inductive OpFormat.Encodes (op : Byte) : OpFormat → Instr → List Word → Prop where
  | h0 (i : Instr) : Encodes op (.h0 i) i [hostWord op 0 0 0]
  | h1 (f : Byte → Instr) (a : Byte) : Encodes op (.h1 f) (f a) [hostWord op 0 0 a]
  | h2 (f : Byte → Byte → Instr) (a b : Byte) : Encodes op (.h2 f) (f a b) [hostWord op 0 a b]
  | hw (f : Byte → Half → Instr) (a : Byte) (w : Half) : Encodes op (.hw f) (f a w) [hostWordW op a w]
  | hwZero (f : Half → Instr) (w : Half) : Encodes op (.hwZero f) (f w) [hostWordW op 0 w]
  | hx (f : Word → Instr) (e : Word) : Encodes op (.hx f) (f e) [hostWord op 0 0 0, e]
  | hv (f : List Half → Instr) (ss : List Half) (hlen : ss.length < 65536) :
      Encodes op (.hv f) (f ss) (hostWordW op 0 (BitVec.ofNat 16 ss.length) :: ss.map sampleExtension)

/-- `us` are the words of the host operation `i`, by the operation code map and the formats. -/
def IsOperation (i : Instr) (us : List Word) : Prop :=
  ∃ op F, opFormat op.toNat = some F ∧ F.Encodes op i us

/-! ### Extension words of samples -/

theorem decodeSamples_extensions (f : List Half → Instr) (ss acc : List Half) (rest : List Word) :
    decodeSamples f ss.length acc (ss.map sampleExtension ++ rest) = .instr (f (acc ++ ss)) rest := by
  induction ss generalizing acc with
  | nil => simp [decodeSamples]
  | cons s ss ih =>
    simp only [List.length_cons, List.map_cons, List.cons_append, decodeSamples, if_pos (high_sampleExtension s),
      halfField_sampleExtension, ih, List.append_assoc, List.nil_append]

theorem extensions_of_decodeSamples {f : List Half → Instr} {n : Nat} {acc : List Half} {ws rest : List Word} {i : Instr}
    (h : decodeSamples f n acc ws = .instr i rest) :
    ∃ ss : List Half, ss.length = n ∧ i = f (acc ++ ss) ∧ ws = ss.map sampleExtension ++ rest := by
  induction n generalizing acc ws with
  | zero =>
    obtain ⟨rfl, rfl⟩ := Decoded.instr.inj h
    exact ⟨[], rfl, by rw [List.append_nil], rfl⟩
  | succ n ih =>
    cases ws with
    | nil => cases h
    | cons e ws =>
      by_cases high : e.extractLsb' 16 16 = 0#16
      · simp only [decodeSamples, if_pos high] at h
        obtain ⟨ss, hlen, hi, hws⟩ := ih h
        refine ⟨halfField e :: ss, by rw [List.length_cons, hlen], by rw [hi, List.append_assoc]; rfl, ?_⟩
        rw [List.map_cons, sampleExtension_fields e high, hws, List.cons_append]
      · simp only [decodeSamples, if_neg high] at h
        cases h

/-- One bad word among the extension words rejects the operation (40_bus.md R127). -/
theorem decodeSamples_high (f : List Half → Instr) {n : Nat} (acc : List Half) {ws : List Word} {e : Word}
    (he : e ∈ ws.take n) (high : e.extractLsb' 16 16 ≠ 0#16) :
    decodeSamples f n acc ws = .reject .extensionHighBits := by
  induction n generalizing acc ws with
  | zero => simp at he
  | succ n ih =>
    cases ws with
    | nil => simp at he
    | cons x ws =>
      by_cases hx : x.extractLsb' 16 16 = 0#16
      · have later : e ∈ ws.take n := by
          rcases List.mem_cons.mp he with rfl | later
          · exact absurd hx high
          · exact later
        simp only [decodeSamples, if_pos hx, ih _ later]
      · simp only [decodeSamples, if_neg hx]

/-! ### Decoding inverts the formats -/

section
variable {op : Byte} {F : OpFormat} {i : Instr}

theorem OpFormat.Encodes.decodeWords {us : List Word} (h : F.Encodes op i us) (hF : opFormat op.toNat = some F)
    (rest : List Word) : decodeWords (us ++ rest) = .instr i rest := by
  cases h with
  | h0 | h1 | h2 | hx =>
    simp only [List.cons_append, List.nil_append, decodeWords_cons, opField_hostWord, hF, Option.elim_some, OpFormat.decode,
      decodeH0, decodeH1, decodeH2, decodeHX, highField_hostWord, midField_hostWord, lowField_hostWord, and_self, if_true]
  | hw | hwZero =>
    simp only [List.cons_append, List.nil_append, decodeWords_cons, opField_hostWordW, hF, Option.elim_some, OpFormat.decode,
      decodeHW, highField_hostWordW, halfField_hostWordW, if_true]
  | hv f ss hlen =>
    have count : (BitVec.ofNat 16 ss.length).toNat = ss.length := by rw [BitVec.toNat_ofNat, Nat.mod_eq_of_lt hlen]
    simp only [List.cons_append, decodeWords_cons, opField_hostWordW, hF, Option.elim_some, OpFormat.decode, decodeHV,
      highField_hostWordW, halfField_hostWordW, if_true, count, decodeSamples_extensions, List.nil_append]

/-- A check of a must-be-zero field that lets an operation through found it zero. -/
theorem instr_of_check {p : Prop} [Decidable p] {d : Decoded} {ws : List Word}
    (h : (if p then d else .reject .mustBeZero) = .instr i ws) : p ∧ d = .instr i ws := by
  by_cases hp : p
  · exact ⟨hp, (if_pos hp).symm.trans h⟩
  · cases (if_neg hp).symm.trans h

/-- A word is built from its operation code and its other bytes. -/
theorem eq_hostWord {w : Word} {a b c : Byte} (ha : highField w = a) (hb : midField w = b) (hc : lowField w = c) :
    w = hostWord (opField w) a b c := by
  rw [← ha, ← hb, ← hc, hostWord_fields]

theorem eq_hostWordW {w : Word} {a : Byte} {v : Half} (ha : highField w = a) (hv : halfField w = v) :
    w = hostWordW (opField w) a v := by
  rw [← ha, ← hv, hostWordW_fields]

/-- Words that one format decodes are words of that format, and the words left over. -/
theorem OpFormat.encodes_of_decode {w : Word} {ws rest : List Word} (h : F.decode w ws = .instr i rest) :
    ∃ us, F.Encodes (opField w) i us ∧ w :: ws = us ++ rest := by
  cases F with
  | h0 j =>
    obtain ⟨⟨ha, hb, hc⟩, hd⟩ := instr_of_check h
    obtain ⟨rfl, rfl⟩ := Decoded.instr.inj hd
    exact ⟨_, .h0 j, congrArg (· :: ws) (eq_hostWord ha hb hc)⟩
  | h1 f =>
    obtain ⟨⟨ha, hb⟩, hd⟩ := instr_of_check h
    obtain ⟨rfl, rfl⟩ := Decoded.instr.inj hd
    exact ⟨_, .h1 f _, congrArg (· :: ws) (eq_hostWord ha hb rfl)⟩
  | h2 f =>
    obtain ⟨ha, hd⟩ := instr_of_check h
    obtain ⟨rfl, rfl⟩ := Decoded.instr.inj hd
    exact ⟨_, .h2 f _ _, congrArg (· :: ws) (eq_hostWord ha rfl rfl)⟩
  | hw f =>
    obtain ⟨rfl, rfl⟩ := Decoded.instr.inj h
    exact ⟨_, .hw f _ _, congrArg (· :: ws) (eq_hostWordW rfl rfl)⟩
  | hwZero f =>
    obtain ⟨ha, hd⟩ := instr_of_check h
    obtain ⟨rfl, rfl⟩ := Decoded.instr.inj hd
    exact ⟨_, .hwZero f _, congrArg (· :: ws) (eq_hostWordW ha rfl)⟩
  | hx f =>
    obtain ⟨⟨ha, hb, hc⟩, hd⟩ := instr_of_check h
    cases ws with
    | nil => cases hd
    | cons e ws =>
      obtain ⟨rfl, rfl⟩ := Decoded.instr.inj hd
      exact ⟨_, .hx f e, congrArg (· :: e :: ws) (eq_hostWord ha hb hc)⟩
  | hv f =>
    obtain ⟨ha, hd⟩ := instr_of_check h
    obtain ⟨ss, hlen, rfl, rfl⟩ := extensions_of_decodeSamples hd
    have count : halfField w = BitVec.ofNat 16 ss.length := by rw [hlen, BitVec.ofNat_toNat, BitVec.setWidth_eq]
    have fits : ss.length < 65536 := hlen ▸ (halfField w).isLt
    exact ⟨_, .hv f ss fits, congrArg (· :: (ss.map sampleExtension ++ rest)) (eq_hostWordW ha count)⟩

end

/-- The decoder reads exactly the words of the operations, whatever stands after them. -/
theorem decodeWords_eq_instr_iff {ws rest : List Word} {i : Instr} :
    decodeWords ws = .instr i rest ↔ ∃ us, IsOperation i us ∧ ws = us ++ rest := by
  constructor
  · intro h
    cases ws with
    | nil => cases h
    | cons w ws =>
      rw [decodeWords_cons] at h
      cases hF : opFormat (opField w).toNat with
      | none => rw [hF] at h; cases h
      | some F =>
        rw [hF] at h
        obtain ⟨us, hus, hws⟩ := OpFormat.encodes_of_decode h
        exact ⟨us, ⟨opField w, F, hF, hus⟩, hws⟩
  · rintro ⟨us, ⟨op, F, hF, hus⟩, rfl⟩
    exact hus.decodeWords hF rest

/-! ### The encoder writes the words of the formats -/

theorem isOperation_of_encode {c : Config} {i : Instr} {us : List Word} (hwf : i.wellFormed c = true)
    (h : encode c i = .host us) : IsOperation i us := by
  cases i
  case busRelease | busGetEffectiveRate | afeCreate | afeRelease | afeGetRevision | afeGetState | afeIsPresent | schedStart |
      schedFillNextBuffer | schedFlushAndWaitBuffer | schedGetAddressBufferInTx | schedStop | schedRelease | schedGetMissed =>
    cases h; exact ⟨_, _, rfl, .h0 _⟩
  case busCreate | busSetSampleMode | busReadCommand | busBitsToRate | afeActivateBlocks | afeSetGainTx | afeSetCalibration |
      afeSetStandby | afeSetFlagsCallback =>
    cases h; exact ⟨_, _, rfl, .h1 _ _⟩
  case busWriteCommand | afeSetGainsRx => cases h; exact ⟨_, _, rfl, .h2 _ _ _⟩
  case busConfigure | schedCreate => cases h; exact ⟨_, _, rfl, .hw _ _ _⟩
  case busTransferSingleSample => cases h; exact ⟨_, _, rfl, .hwZero _ _⟩
  case busRateToBits => cases h; exact ⟨_, _, rfl, .hx _ _⟩
  case busTransferSampleBuffer ss => cases h; exact ⟨_, _, rfl, .hv _ ss (of_decide_eq_true hwf)⟩
  case cmdWrite | cmdRead | sample => cases h

theorem encode_of_isOperation (c : Config) {i : Instr} {us : List Word} (h : IsOperation i us) : encode c i = .host us := by
  obtain ⟨op, F, hF, hus⟩ := h
  obtain ⟨n, hn, rfl⟩ : ∃ n, n < 2 ^ 8 ∧ op = BitVec.ofNat 8 n := ⟨op.toNat, op.isLt, by simp⟩
  rw [BitVec.toNat_ofNat, Nat.mod_eq_of_lt hn] at hF
  unfold opFormat at hF
  split at hF
  case h_31 => cases hF
  all_goals cases hF; cases hus; rfl

theorem decodeWords_encode {c : Config} {i : Instr} {us : List Word} (hwf : i.wellFormed c = true)
    (h : encode c i = .host us) (rest : List Word) : decodeWords (us ++ rest) = .instr i rest :=
  decodeWords_eq_instr_iff.mpr ⟨us, isOperation_of_encode hwf h, rfl⟩

/-- A host operation, by its words; a frame, by its fields in the layout; a sample, as it is. -/
theorem decode_encode {c : Config} {i : Instr} (hc : c.admissible = true) (hwf : i.wellFormed c = true) :
    decode c (encode c i) = .instr i [] := by
  cases hcode : encode c i with
  | host us => rw [decode, ← List.append_nil us, decodeWords_encode hwf hcode]
  | sample w => cases i <;> cases hcode; rfl
  | frame w =>
    cases i
    case cmdWrite a v =>
      obtain ⟨ha, hv⟩ := of_decide_eq_true hwf
      cases hcode
      rw [decode, decFrame_encWrite c hc a v ha hv, Frame.instr]
    case cmdRead a =>
      cases hcode
      rw [decode, decFrame_encRead c hc a (of_decide_eq_true hwf), Frame.instr]
    all_goals cases hcode

/-! ## Words that are no operation (30_encoding.md R104) -/

/-- The lowest bit of the must-be-zero field of an operation word, which ends below the operation code; 24 where there is
none. -/
def OpFormat.zeroLo : OpFormat → Nat
  | .h0 _ => 0
  | .h1 _ => 8
  | .h2 _ => 16
  | .hw _ => 24
  | .hwZero _ => 16
  | .hx _ => 0
  | .hv _ => 16

theorem extract_8_16_eq_zero {w : Word} (ha : highField w = 0) (hb : midField w = 0) : w.extractLsb' 8 16 = 0 :=
  calc w.extractLsb' 8 16 = highField w ++ midField w :=
        (BitVec.extractLsb'_append_extractLsb'_eq_extractLsb' (start₂ := 16) (len₁ := 8) (len₂ := 8) rfl).symm
    _ = 0 := by rw [ha, hb]; decide

theorem extract_0_24_eq_zero {w : Word} (ha : highField w = 0) (hb : midField w = 0) (hc : lowField w = 0) :
    w.extractLsb' 0 24 = 0 :=
  calc w.extractLsb' 0 24 = w.extractLsb' 8 16 ++ lowField w :=
        (BitVec.extractLsb'_append_extractLsb'_eq_extractLsb' (start₂ := 8) (len₁ := 8) (len₂ := 16) rfl).symm
    _ = 0 := by rw [extract_8_16_eq_zero ha hb, hc]; decide

theorem OpFormat.decode_mustBeZero {F : OpFormat} {w : Word} (h : w.extractLsb' F.zeroLo (24 - F.zeroLo) ≠ 0)
    (rest : List Word) : F.decode w rest = .reject .mustBeZero := by
  cases F with
  | h0 | hx => exact if_neg fun ⟨ha, hb, hc⟩ => h (extract_0_24_eq_zero ha hb hc)
  | h1 => exact if_neg fun ⟨ha, hb⟩ => h (extract_8_16_eq_zero ha hb)
  | h2 | hwZero | hv => exact if_neg h
  | hw => exact absurd (BitVec.eq_nil _) h

section
variable {w : Word} (rest : List Word)

theorem decodeWords_unassigned (h : opFormat (opField w).toNat = none) :
    decodeWords (w :: rest) = .reject .unknownOperation := by
  rw [decodeWords_cons, h, Option.elim_none]

theorem decodeWords_mustBeZero {lo : Nat} (hlo : (opFormat (opField w).toNat).map OpFormat.zeroLo = some lo)
    (h : w.extractLsb' lo (24 - lo) ≠ 0) : decodeWords (w :: rest) = .reject .mustBeZero := by
  obtain ⟨F, hF, rfl⟩ := Option.map_eq_some_iff.mp hlo
  rw [decodeWords_cons, hF, Option.elim_some, OpFormat.decode_mustBeZero h]

theorem decodeWords_sampleHigh (hop : (opField w).toNat = 0x08) (hzero : highField w = 0) {e : Word}
    (he : e ∈ rest.take (halfField w).toNat) (high : e.extractLsb' 16 16 ≠ 0#16) :
    decodeWords (w :: rest) = .reject .extensionHighBits := by
  rw [decodeWords_cons, hop]
  simp only [opFormat, Option.elim_some, OpFormat.decode, decodeHV, if_pos hzero, decodeSamples_high _ _ he high]

end

theorem opFormat_unassigned : ∀ n ∈ [0x00, 0x0C, 0x0D, 0x0E, 0x0F, 0x1B, 0x1C, 0x1D, 0x1E, 0x1F], opFormat n = none := by
  simp only [List.forall_mem_cons]
  exact ⟨rfl, rfl, rfl, rfl, rfl, rfl, rfl, rfl, rfl, rfl, nofun⟩

theorem opFormat_zeroLo_zero :
    ∀ n ∈ [0x02, 0x09, 0x0B, 0x10, 0x11, 0x17, 0x18, 0x1A, 0x21, 0x22, 0x23, 0x24, 0x25, 0x26, 0x27],
      (opFormat n).map OpFormat.zeroLo = some 0 := by decide

theorem opFormat_zeroLo_eight : ∀ n ∈ [0x01, 0x04, 0x06, 0x0A, 0x12, 0x13, 0x15, 0x16, 0x19],
    (opFormat n).map OpFormat.zeroLo = some 8 := by decide

theorem opFormat_zeroLo_sixteen : ∀ n ∈ [0x05, 0x07, 0x08, 0x14], (opFormat n).map OpFormat.zeroLo = some 16 := by decide

/-! ## Command frames at the defaults of 00_scope.md R8 (30_encoding.md R91) -/

theorem toNat_fieldOf (w : Word) (lo n : Nat) (hn : n ≤ 8) : (fieldOf w lo n).toNat = w.toNat / 2 ^ lo % 2 ^ n := by
  have fits : w.toNat / 2 ^ lo % 2 ^ n < 2 ^ 8 :=
    lt_of_lt_of_le (Nat.mod_lt _ (by positivity)) (Nat.pow_le_pow_right (by decide) hn)
  rw [fieldOf, BitVec.toNat_setWidth, BitVec.extractLsb'_toNat, Nat.shiftRight_eq_div_pow, Nat.mod_eq_of_lt fits]

theorem toNat_fieldAt {v : Byte} {lo n : Nat} (hv : v.toNat < 2 ^ n) (hlo : lo ≤ 24) :
    (fieldAt v lo n).toNat = v.toNat * 2 ^ lo := by
  have small : v.toNat * 2 ^ lo < 2 ^ 32 :=
    calc v.toNat * 2 ^ lo < 2 ^ 8 * 2 ^ lo := by gcongr; exact v.isLt
      _ ≤ 2 ^ 8 * 2 ^ 24 := by gcongr; decide
      _ = 2 ^ 32 := by norm_num
  have word : v.toNat < 2 ^ 32 := lt_trans v.isLt (by decide)
  rw [fieldAt, BitVec.toNat_shiftLeft, BitVec.toNat_setWidth, BitVec.toNat_setWidth, Nat.mod_eq_of_lt hv,
    Nat.mod_eq_of_lt word, Nat.shiftLeft_eq, Nat.mod_eq_of_lt small]

theorem toNat_frameWord_default (w : Word) : (Config.default.frameWord w).toNat = w.toNat % 2 ^ 16 := by
  have word : w.toNat % 2 ^ 16 < 2 ^ 32 := lt_trans (Nat.mod_lt _ (by decide)) (by decide)
  change ((w.setWidth 16).setWidth 32).toNat = _
  rw [BitVec.toNat_setWidth, BitVec.toNat_setWidth, Nat.mod_eq_of_lt word]

theorem frameWord_default_of_lt {w : Word} (hw : w.toNat < 65536) : Config.default.frameWord w = w :=
  BitVec.eq_of_toNat_eq ((toNat_frameWord_default w).trans (Nat.mod_eq_of_lt hw))

theorem toNat_encWrite_default {a : RegAddr} {v : Byte} (ha : a.toNat ≤ 127) :
    (encWrite Config.default a v).toNat = a.toNat * 256 + v.toNat := by
  have hv : v.toNat < 2 ^ 8 := v.isLt
  change (Config.default.frameWord (fieldAt a 8 7 ||| fieldAt v 0 8)).toNat = _
  rw [toNat_frameWord_default, BitVec.toNat_or, toNat_fieldAt (by omega) (by decide),
    toNat_fieldAt hv (by decide), Nat.mul_comm a.toNat, Nat.pow_zero, Nat.mul_one,
    ← Nat.two_pow_add_eq_or_of_lt hv]
  omega

theorem toNat_encRead_default {a : RegAddr} (ha : a.toNat ≤ 127) :
    (encRead Config.default a).toNat = 0x8000 + a.toNat * 256 := by
  have below : a.toNat * 2 ^ 8 < 2 ^ 15 := by omega
  change (Config.default.frameWord (fieldAt 1 15 1 ||| fieldAt a 8 7)).toNat = _
  rw [toNat_frameWord_default, BitVec.toNat_or, toNat_fieldAt (by decide) (by decide),
    toNat_fieldAt (by omega) (by decide), Nat.mul_comm (BitVec.toNat 1), ← Nat.two_pow_add_eq_or_of_lt below]
  change (2 ^ 15 * 1 + _) % _ = _
  omega

/-- The three fields of a frame of 16 bits, as numbers. -/
theorem decFrame_default {w : Word} (hw : w.toNat < 65536) :
    decFrame Config.default w =
      if w.getLsbD 15 then .read (fieldOf w 8 7) else .write (fieldOf w 8 7) (fieldOf w 0 8) := by
  rw [decFrame, frameWord_default_of_lt hw]
  rfl

theorem getLsbD_fifteen {w : Word} (hw : w.toNat < 65536) : w.getLsbD 15 = decide (32768 ≤ w.toNat) := by
  rw [BitVec.getLsbD, Nat.testBit_eq_decide_div_mod_eq, decide_eq_decide]
  omega

theorem toNat_clearLowByte {w : Word} (hw : w.toNat < 65536) : (w &&& 0xFF00#32).toNat = w.toNat / 256 * 256 := by
  have q : w.toNat / 2 ^ 8 &&& 2 ^ 8 - 1 = w.toNat / 2 ^ 8 := by
    rw [Nat.and_two_pow_sub_one_eq_mod, Nat.mod_eq_of_lt (by omega)]
  have hi : (w.toNat &&& 0xFF00) / 2 ^ 8 = w.toNat / 2 ^ 8 := by rw [Nat.and_div_two_pow]; exact q
  have lo : (w.toNat &&& 0xFF00) % 2 ^ 8 = 0 := by rw [Nat.and_mod_two_pow]; exact Nat.and_zero _
  change w.toNat &&& 0xFF00 = _
  omega

/-- A 16-bit word whose read/write bit is clear is a write frame (30_encoding.md R92, R95). -/
theorem writeFrame_default {w : Word} (hw : w.toNat < 65536) (hrw : w.getLsbD 15 = false) :
    ∃ a v : Byte, decFrame Config.default w = .write a v ∧ a.toNat = w.toNat / 256 ∧ v.toNat = w.toNat % 256 ∧
      encWrite Config.default a v = w := by
  have top := getLsbD_fifteen hw
  rw [hrw, eq_comm, decide_eq_false_iff_not] at top
  have ha : (fieldOf w 8 7).toNat = w.toNat / 256 := by rw [toNat_fieldOf w 8 7 (by decide)]; omega
  have hv : (fieldOf w 0 8).toNat = w.toNat % 256 := by rw [toNat_fieldOf w 0 8 (by decide)]; omega
  refine ⟨_, _, by rw [decFrame_default hw, hrw]; rfl, ha, hv, BitVec.eq_of_toNat_eq ?_⟩
  rw [toNat_encWrite_default (by omega), ha, hv]
  omega

/-- A 16-bit word whose read/write bit is set is a read frame, whose data bits are ignored (30_encoding.md R93, R95). -/
theorem readFrame_default {w : Word} (hw : w.toNat < 65536) (hrw : w.getLsbD 15 = true) :
    ∃ a : Byte, decFrame Config.default w = .read a ∧ a.toNat = w.toNat / 256 - 128 ∧
      encRead Config.default a = w &&& 0xFF00#32 := by
  have top := getLsbD_fifteen hw
  rw [hrw, eq_comm, decide_eq_true_iff] at top
  have ha : (fieldOf w 8 7).toNat = w.toNat / 256 - 128 := by rw [toNat_fieldOf w 8 7 (by decide)]; omega
  refine ⟨_, by rw [decFrame_default hw, hrw]; rfl, ha, BitVec.eq_of_toNat_eq ?_⟩
  rw [toNat_encRead_default (by omega), toNat_clearLowByte hw, ha]
  omega

end Sys2Proof

namespace Sys2Proof.Machine

/-! ## The statements about the codec -/

/-- Settles O1: the words of an operation decode to it whatever follows, and a frame's fields share no bit. -/
theorem decodeEncodeAgree : Obligations.DecodeEncodeAgree := fun _ _ hc hwf =>
  ⟨decode_encode hc hwf, fun _ rest h => decodeWords_encode hwf h rest⟩

/-- Settles O2: the decoder reads words of an operation only, and the encoder writes those. -/
theorem decodedWordsAreTheirEncoding : Obligations.DecodedWordsAreTheirEncoding := by
  intro c ws rest i h
  obtain ⟨us, hus, hws⟩ := decodeWords_eq_instr_iff.mp h
  exact ⟨us, encode_of_isOperation c hus, hws⟩

theorem default_admissible : Config.default.admissible = true := by decide

/-- Settles O3: the frames as numbers at the defaults, and the inversion in every admissible layout. -/
theorem frameCodecLaws : Obligations.FrameCodecLaws := by
  refine ⟨fun a v ha => ?defaults, fun w hw hrw => writeFrame_default hw hrw, fun w hw hrw => readFrame_default hw hrw,
    fun c a v hc ha hv => ⟨decFrame_encWrite c hc a v ha hv, decFrame_encRead c hc a ha⟩⟩
  case defaults =>
    have fits : a.toNat < 2 ^ 7 := Nat.lt_succ_of_le ha
    exact ⟨toNat_encWrite_default ha, decFrame_encWrite _ default_admissible a v fits v.isLt, toNat_encRead_default ha,
      decFrame_encRead _ default_admissible a fits⟩

/-- Settles O4: the decoder is run on each word. -/
theorem specWordsDecode : Obligations.SpecWordsDecode := by
  refine ⟨?_, ?_, ?_, ?_, ?_, ?_, ?_, ?_, ?_, ?_, ?_⟩ <;> decide

/-! ## The operation at the port (30_encoding.md R105) -/

section
variable {s : State} {ts : List Turn} (hf : s.fault = none) (hv : s.runVoid = false) (ht : s.turns = .host :: ts)
  (hw : s.wait = .ready) (hl : s.line = [])
include hf hv ht hw hl

/-- A step of HOST that is not blocked, with nothing on the line, takes the next operation at the port. -/
theorem step_port : step s = hostOperation { s with turns := ts } := by
  rw [step_running hf hv, nextTurn_listed s ht]
  simp only [runTurn, hostTurn, hw, hostReady, hl]

theorem step_operation {i : Instr} {rest : List Word} (hd : decodeWords s.port = .instr i rest) :
    step s = exec i { s with turns := ts, port := rest } := by
  simp only [step_port hf hv ht hw hl, hostOperation, hd]

theorem step_rejected {why : Reject} (hd : decodeWords s.port = .reject why) :
    step s = .next ({ s with turns := ts, port := s.port.tail }.reply .eOp) := by
  simp only [step_port hf hv ht hw hl, hostOperation, hd]

end

/-- Settles O7: HOST takes the operation at the port, and the decoder says which. -/
theorem stepRunsTheDecodedOperation : Obligations.StepRunsTheDecodedOperation :=
  fun _ _ _ _ hf hv ht hw hl hd => step_operation hf hv ht hw hl hd

/-- Settles O5: each of the three kinds of word is rejected by the decoder, and HOST answers a rejected word E_OP. -/
theorem illegalWordAnswersEOp : Obligations.IllegalWordAnswersEOp := by
  intro s ts w rest hf hv ht hw hl hp hbad
  obtain ⟨why, hd⟩ : ∃ why, decodeWords (w :: rest) = .reject why := by
    rcases hbad with hop | hop | ⟨hop, hz⟩ | ⟨hop, hz⟩ | ⟨hop, hz⟩ | ⟨hop, hz, -, e, he, high⟩
    · exact ⟨_, decodeWords_unassigned rest (opFormat_unassigned _ hop)⟩
    · exact ⟨_, decodeWords_unassigned rest (opFormat_beyond hop)⟩
    · exact ⟨_, decodeWords_mustBeZero rest (opFormat_zeroLo_zero _ hop) hz⟩
    · exact ⟨_, decodeWords_mustBeZero rest (opFormat_zeroLo_eight _ hop) hz⟩
    · exact ⟨_, decodeWords_mustBeZero rest (opFormat_zeroLo_sixteen _ hop) hz⟩
    · exact ⟨_, decodeWords_sampleHigh rest hop hz he high⟩
  rw [step_rejected hf hv ht hw hl (hp ▸ hd), hp]
  rfl

/-! ## Operands out of range (30_encoding.md R106) -/

/-- An operation whose first check is the legal range of its operands answers E_PARAM for the others. -/
theorem exec_illegal {i : Instr} {s k : State} {c : Prop} [Decidable c]
    (hexec : exec i s = .next (s.requireStatus c .eParam k)) (hrange : c → legalOperands s.cfg i = true)
    (h : legalOperands s.cfg i = false) : exec i s = .next (s.reply .eParam) := by
  have out : ¬ c := fun hc => Bool.false_ne_true (h.symm.trans (hrange hc))
  rw [hexec, requireStatus_neg out]

theorem legal_of_isFlag {a : Byte} (h : isFlag a = true) : decide (a.toNat ≤ 1) = true :=
  decide_eq_true ((isFlag_iff a).mp h)

/-- SCHED_CREATE's own range check is R106's. -/
theorem legal_of_schedOperandsLegal {c : Config} {v : Byte} {w : Half} (h : schedOperandsLegal c v w = true) :
    legalOperands c (.schedCreate v w) = true := by
  obtain ⟨hv, hpos, hmax, hdma⟩ := of_decide_eq_true h
  refine decide_eq_true ⟨hv, hpos, hmax, fun h2 => Nat.le_of_not_lt fun hlong => hdma ⟨?_, hlong⟩⟩
  exact BitVec.eq_of_toNat_eq h2

/-- Settles O11: in every operation R106 gives a range, the range is the first check. -/
theorem illegalOperandIsEParamInAnyState : Obligations.IllegalOperandIsEParamInAnyState := by
  intro i s h
  cases i
  case busCreate | busSetSampleMode | afeSetStandby | afeSetFlagsCallback => exact exec_illegal rfl legal_of_isFlag h
  case schedCreate => exact exec_illegal rfl legal_of_schedOperandsLegal h
  case busWriteCommand | busReadCommand => exact exec_illegal rfl id h
  case busConfigure | busBitsToRate | busRateToBits | afeSetGainTx | afeSetGainsRx | afeSetCalibration =>
    exact exec_illegal rfl decide_eq_true h
  all_goals cases h

end Sys2Proof.Machine

/-! PROOFS of the statements about 40_bus.md: each BUS operation and each wire word runs its checks in order and then one shared
operation, whose effect is said once; and the conversion between rates and rungs. -/

namespace Sys2Proof.Machine

/-! ## The checks of an operation (40_bus.md R128) -/

section
variable {i : Instr} {s k : State}

theorem exec_legal {c : Prop} [Decidable c] {e : Status} (hexec : exec i s = .next (s.requireStatus c e k)) (hc : c) :
    exec i s = .next k := by rw [hexec, requireStatus_pos hc]

theorem exec_passes {c : Prop} [Decidable c] {f : Fault} (hexec : exec i s = .next (s.requireFault c f k)) (hc : c) :
    exec i s = .next k := by rw [hexec, requireFault_pos hc]

theorem exec_fails {c : Prop} [Decidable c] {f : Fault} (hexec : exec i s = .next (s.requireFault c f k)) (hc : ¬ c) :
    exec i s = .next (s.raise f) := by rw [hexec, requireFault_neg hc]

theorem exec_notLive (hexec : exec i s = .next (s.requireBusLive k)) (hlive : s.bus.life ≠ .live) :
    exec i s = .next (s.raise .lifecycle) := exec_fails hexec hlive

theorem exec_busy (hexec : exec i s = .next (s.requireBusLive (s.requireBusIdle k))) (hlive : s.bus.life = .live)
    (hbusy : s.busBusy = true) : exec i s = .next (s.raise .busy) :=
  exec_fails (exec_passes hexec hlive) (by simp [hbusy])

theorem exec_idle (hexec : exec i s = .next (s.requireBusLive (s.requireBusIdle k))) (hlive : s.bus.life = .live)
    (hidle : s.busBusy = false) : exec i s = .next k := exec_passes (exec_passes hexec hlive) hidle

variable {m n : BusMode}

theorem exec_wrongMode (hexec : exec i s = .next (s.requireBusLive (s.requireBusIdle (s.requireMode m k))))
    (hlive : s.bus.life = .live) (hidle : s.busBusy = false) (hmode : s.bus.mode = n) (hne : n ≠ m := by decide) :
    exec i s = .next (s.raise .mode) := exec_fails (exec_idle hexec hlive hidle) (hmode ▸ hne)

theorem exec_inMode (hexec : exec i s = .next (s.requireBusLive (s.requireBusIdle (s.requireMode m k))))
    (hlive : s.bus.life = .live) (hidle : s.busBusy = false) (hmode : s.bus.mode = m) : exec i s = .next k :=
  exec_passes (exec_idle hexec hlive hidle) hmode

end

/-! ## Register transactions and sample words -/

section
variable {s : State}

/-- A value cut to a register is the one with its low `REG_DATA_BITS` bits (30_encoding.md R94). -/
theorem regBits_eq {c : Config} {n : Nat} {w : BitVec n} {v : Byte} (hv : v.toNat = w.toNat % 2 ^ c.regDataBits) :
    c.regBits w = v := by
  apply BitVec.eq_of_toNat_eq
  rw [Config.regBits, BitVec.toNat_setWidth, BitVec.toNat_setWidth, ← hv]
  exact Nat.mod_eq_of_lt v.isLt

/-- A register write in PHYS leaves the register file of the block alone. -/
theorem writeReg_phys (a : RegAddr) (v : Byte) (hemul : s.bus.emul = false) :
    s.writeReg a v = { s with busLog := s.busLog ++ [.cmdWr a v] } := by
  simp [writeReg_eq, hemul]

/-- A register write in EMU changes the one entry addressed (40_bus.md R131). -/
theorem writeReg_emul_reads {a : RegAddr} {v : Byte} (hemul : s.bus.emul = true) (hcarries : Carries s.cfg a)
    (hcanonical : Memory.wf s.cfg s.shadow = true) (hv : v.toNat < 2 ^ s.cfg.regDataBits) :
    ∃ sh : List Host.Cell, (∀ x, shadowGet sh x = if x = a.toNat then v else shadowGet s.shadow x) ∧
      s.writeReg a v = { s with shadow := sh, busLog := s.busLog ++ [.cmdWr a v] } :=
  ⟨_, fun x => shadowGet_put s.shadow a.toNat x v hcanonical, writeReg_emul s a v hemul hcarries hv⟩

/-- A sample word is the mode check, then the range check, then one event (40_bus.md R132). -/
theorem proceed_sampleWord (w : Half) (k : State → State) :
    proceed (s.sampleWord w) k =
      s.requireMode .sample (s.requireFault (s.sampleFits w) .sampleRange (k { s with busLog := s.busLog ++ [.sample w] })) := by
  rcases sampleWord_cases s w with ⟨hmode, hsent⟩ | ⟨hmode, hfits, hsent⟩ | ⟨hmode, hfits, hsent⟩ <;> rw [hsent]
  · exact (requireFault_neg hmode).symm
  · exact ((requireFault_pos hmode).trans (requireFault_neg (by simp [hfits]))).symm
  · exact ((requireFault_pos hmode).trans (requireFault_pos hfits)).symm

theorem sampleFits_iff (w : Half) : s.sampleFits w = true ↔ w.toNat < 2 ^ s.cfg.sampleBits := decide_eq_true_iff

theorem not_sampleFits {w : Half} (hw : 2 ^ s.cfg.sampleBits ≤ w.toNat) : ¬ s.sampleFits w = true :=
  fun hfits => absurd ((sampleFits_iff w).mp hfits) (Nat.not_lt.mpr hw)

theorem exec_busTransferSingleSample (w : Half) :
    exec (.busTransferSingleSample w) s = .next (s.requireBusLive (s.requireBusIdle (s.requireMode .sample
      (s.requireFault (s.sampleFits w) .sampleRange ({ s with busLog := s.busLog ++ [BusEvent.sample w] }.reply .ok))))) := by
  rw [← proceed_sampleWord w fun t => t.reply .ok]
  rfl

theorem exec_sample (w : Half) :
    exec (.sample w) s = .next (s.requireBusLive (s.requireBusIdle (s.requireMode .sample
      (s.requireFault (s.sampleFits w) .sampleRange { s with busLog := s.busLog ++ [.sample w] })))) := by
  rw [← proceed_sampleWord w fun t => t]
  rfl

end

/-! ## Creating, releasing and configuring the bus -/

/-- Settles O14: the range, the lifecycle, and in PHYS ENV's answer, in this order. -/
theorem busCreateRule : Obligations.BusCreateRule := by
  intro s a
  have drawn := drawResource_fst s
  refine ⟨fun ha => ?range, fun ha hlife => ?lifecycle, fun ha hlife => ?emu, fun ha hlife granted => ?phys,
    fun ha hlife denied => ?noResource⟩
  case range => exact illegalOperandIsEParamInAnyState (.busCreate a) s (decide_eq_false (Nat.not_le.mpr ha))
  case lifecycle => exact exec_fails (exec_legal rfl ((isFlag_iff a).mpr ha)) hlife
  case emu =>
    subst ha
    exact exec_passes (exec_legal rfl rfl) hlife
  case phys =>
    subst ha
    have opened := congrArg (·.openBus false) drawn
    exact (exec_passes (exec_legal rfl rfl) hlife).trans (congrArg _ ((if_pos granted).trans opened))
  case noResource =>
    subst ha
    have replied := congrArg (·.reply .eResource) drawn
    exact (exec_passes (exec_legal rfl rfl) hlife).trans (congrArg _ ((if_neg (by simp [denied])).trans replied))

/-- Settles O15: a bus that is not live, then a unit that depends on it; a released bus does not drive the pin. -/
theorem busReleaseRule : Obligations.BusReleaseRule := by
  refine fun s => ⟨exec_notLive rfl, fun hlive hdepends => exec_fails (exec_passes rfl hlive) ?_,
    fun hlive hafe hsch => ⟨_, exec_passes (exec_passes rfl hlive) ⟨hafe, hsch⟩, rfl, rfl⟩⟩
  rintro ⟨hafe, hsch⟩
  rcases hdepends with h | ⟨habsent, hreleased⟩
  · exact hafe h
  · exact hsch.elim habsent hreleased

/-- Settles O16: the checks in order, then the two fields. -/
theorem busConfigureRule : Obligations.BusConfigureRule := fun s a w =>
  ⟨fun ha => illegalOperandIsEParamInAnyState (.busConfigure a w) s (decide_eq_false (Nat.not_lt.mpr ha)),
    fun ha => exec_notLive (exec_legal rfl ha), fun ha => exec_busy (exec_legal rfl ha),
    fun ha => exec_idle (exec_legal rfl ha)⟩

/-- Settles O17: the checks in order, then whether the mode asked for is the one the bus has. -/
theorem busSetSampleModeRule : Obligations.BusSetSampleModeRule := by
  intro s a m hm
  obtain rfl : m = modeOfFlag a := hm
  have legal (ha : a.toNat ≤ 1) := (isFlag_iff a).mpr ha
  exact ⟨fun ha => illegalOperandIsEParamInAnyState (.busSetSampleMode a) s (decide_eq_false (Nat.not_le.mpr ha)),
    fun ha => exec_notLive (exec_legal rfl (legal ha)), fun ha => exec_busy (exec_legal rfl (legal ha)),
    fun ha hlive hidle hsame => (exec_idle (exec_legal rfl (legal ha)) hlive hidle).trans (congrArg _ (if_pos hsame)),
    fun ha hlive hidle hother => (exec_idle (exec_legal rfl (legal ha)) hlive hidle).trans (congrArg _ (if_neg hother))⟩

/-! ## Register commands -/

/-- Settles O18: the checks in order, then the register write transaction of the value cut to a register. -/
theorem busWriteCommandRule : Obligations.BusWriteCommandRule := by
  intro s a b v hv
  obtain rfl : s.cfg.regBits b = v := regBits_eq hv
  have legal (ha : a.toNat < 2 ^ s.cfg.frameAddrBits) : regAddrLegal s.cfg a = true := decide_eq_true ha
  refine ⟨fun ha => illegalOperandIsEParamInAnyState (.busWriteCommand a b) s (decide_eq_false (Nat.not_lt.mpr ha)),
    fun ha => exec_notLive (exec_legal rfl (legal ha)), fun ha => exec_busy (exec_legal rfl (legal ha)),
    fun ha hlive hidle hmode => exec_wrongMode (exec_legal rfl (legal ha)) hlive hidle hmode,
    fun ha hlive hidle hmode hphys => ?phys, fun ha hlive hidle hmode hemul hadm hcanonical => ?emu⟩
  case phys =>
    rw [exec_inMode (exec_legal rfl (legal ha)) hlive hidle hmode, writeReg_phys a _ hphys]
    rfl
  case emu =>
    obtain ⟨sh, reads, hwrite⟩ := writeReg_emul_reads hemul ⟨hadm, ha⟩ hcanonical (regBits_lt s.cfg b)
    refine ⟨sh, reads, ?_⟩
    rw [exec_inMode (exec_legal rfl (legal ha)) hlive hidle hmode, hwrite]
    rfl

/-- Settles O19: the checks in order, then the register read transaction, whose value is returned. -/
theorem busReadCommandRule : Obligations.BusReadCommandRule := by
  intro s a
  have legal (ha : a.toNat < 2 ^ s.cfg.frameAddrBits) : regAddrLegal s.cfg a = true := decide_eq_true ha
  refine ⟨fun ha => illegalOperandIsEParamInAnyState (.busReadCommand a) s (decide_eq_false (Nat.not_lt.mpr ha)),
    fun ha => exec_notLive (exec_legal rfl (legal ha)), fun ha => exec_busy (exec_legal rfl (legal ha)),
    fun ha hlive hidle hmode => exec_wrongMode (exec_legal rfl (legal ha)) hlive hidle hmode,
    fun ha hlive hidle hmode hemul hadm => ?emu, fun r hr ha hlive hidle hmode hphys => ?phys⟩
  case emu =>
    rw [exec_inMode (exec_legal rfl (legal ha)) hlive hidle hmode, readReg_emul s a hemul ⟨hadm, ha⟩]
    rfl
  case phys =>
    rw [exec_inMode (exec_legal rfl (legal ha)) hlive hidle hmode, readReg_phys s a hphys, regBits_eq hr]
    rfl

/-! ## Sample words -/

/-- Settles O20: the checks in order, those of the sample word last. -/
theorem busTransferSingleSampleRule : Obligations.BusTransferSingleSampleRule := fun s w =>
  have run := exec_busTransferSingleSample (s := s) w
  ⟨exec_notLive run, exec_busy run, fun hlive hidle hmode => exec_wrongMode run hlive hidle hmode,
    fun hlive hidle hmode hwide => exec_fails (exec_inMode run hlive hidle hmode) (not_sampleFits hwide),
    fun hlive hidle hmode hfits => exec_passes (exec_inMode run hlive hidle hmode) ((sampleFits_iff w).mpr hfits)⟩

/-- Settles O21: the checks in order, that of all samples last, so that every word then sent fits. -/
theorem busTransferSampleBufferRule : Obligations.BusTransferSampleBufferRule := by
  refine fun s ws => ⟨exec_notLive rfl, exec_busy rfl, fun hlive hidle hmode => exec_wrongMode rfl hlive hidle hmode,
    fun hlive hidle hmode ⟨w, hw, hwide⟩ => ?wide, fun hlive hidle hmode hfit => ?fit⟩
  case wide =>
    refine exec_fails (exec_inMode rfl hlive hidle hmode) fun hall => ?_
    exact absurd ((all_sampleFits s ws).mp hall w hw) (Nat.not_lt.mpr hwide)
  case fit =>
    have hall := (all_sampleFits s ws).mpr hfit
    rw [exec_passes (exec_inMode rfl hlive hidle hmode) hall, sampleWords_ok s ws hmode hall]
    rfl

/-- Settles O50: the three wire rows run the checks of the operations they stand in, and return nothing. -/
theorem wireWordsAreTransactions : Obligations.WireWordsAreTransactions := by
  intro s a v w
  have run := exec_sample (s := s) w
  refine ⟨fun hlive => ⟨exec_notLive rfl hlive, exec_notLive rfl hlive, exec_notLive run hlive⟩,
    fun hlive hbusy => ⟨exec_busy rfl hlive hbusy, exec_busy rfl hlive hbusy, exec_busy run hlive hbusy⟩,
    fun hlive hidle hmode => ⟨exec_wrongMode rfl hlive hidle hmode, exec_wrongMode rfl hlive hidle hmode,
      fun hfits => exec_passes (exec_inMode run hlive hidle hmode) ((sampleFits_iff w).mpr hfits),
      fun hwide => exec_fails (exec_inMode run hlive hidle hmode) (not_sampleFits hwide)⟩,
    fun hlive hidle hmode => ⟨exec_wrongMode run hlive hidle hmode, fun hemul hadm hwf hcanonical => ?writeEmu,
      fun hphys => ?writePhys, fun hemul hadm hwf => ?readEmu, fun hphys => ?readPhys⟩⟩
  case writeEmu =>
    obtain ⟨ha, hv⟩ := of_decide_eq_true hwf
    obtain ⟨sh, reads, hwrite⟩ := writeReg_emul_reads hemul ⟨hadm, ha⟩ hcanonical hv
    exact ⟨sh, reads, by rw [exec_inMode rfl hlive hidle hmode, hwrite]⟩
  case writePhys => rw [exec_inMode rfl hlive hidle hmode, writeReg_phys a v hphys]
  case readEmu => rw [exec_inMode rfl hlive hidle hmode, readReg_emul s a hemul ⟨hadm, of_decide_eq_true hwf⟩]
  case readPhys => rw [exec_inMode rfl hlive hidle hmode, readReg_phys s a hphys]

/-! ## Rates and rungs (40_bus.md R140 to R148) -/

/-- Settles O22: a rung's rate is at least a whole request exactly if an inequality of whole numbers holds. -/
theorem busRateToBitsPicksTheSlowestSufficientRung : Obligations.BusRateToBitsPicksTheSlowestSufficientRung := by
  intro s e
  have below (k : Nat) : eff k < e.toNat ↔ 10 ^ 9 < e.toNat * (875 * 2 ^ k + 165) := by
    rw [← not_le, ← not_le, natCast_le_eff]
  refine ⟨fun he => ?range, fun he hnone => ?unsupported, fun k he hk hsuff hlast => ?answer⟩
  case range => exact illegalOperandIsEParamInAnyState (.busRateToBits e) s (decide_eq_false (by omega))
  case unsupported =>
    have h : rateToBits s.cfg.ladderRungs (e.toNat : Rat) = none :=
      (rateToBits_eq_none (by exact_mod_cast he)).mpr fun k hk => (below k).mpr (hnone k hk)
    rw [exec_legal rfl he, h]
    rfl
  case answer =>
    have h : rateToBits s.cfg.ladderRungs (e.toNat : Rat) = some k :=
      rateToBits_eq_some.mpr ⟨by exact_mod_cast he, (natCast_le_eff _ k).mpr hsuff, hk,
        fun j hkj hj => (below j).mpr (hlast j hkj hj)⟩
    rw [exec_legal rfl he, h]
    rfl

/-- Settles O23: the rate of a rung is the rational of `eff_eq`. -/
theorem rateQueriesRule : Obligations.RateQueriesRule := by
  intro s a
  rw [← eff_eq, ← eff_eq]
  exact ⟨fun ha => illegalOperandIsEParamInAnyState (.busBitsToRate a) s (decide_eq_false (Nat.not_lt.mpr ha)),
    fun ha => exec_legal rfl ha, exec_notLive rfl, fun hlive => exec_passes rfl hlive⟩

theorem eff_strictAnti : StrictAnti eff := fun i j h => by
  have : (2 : Rat) ^ i < 2 ^ j := pow_lt_pow_right₀ (by norm_num) h
  rw [eff_eq, eff_eq]
  exact div_lt_div_of_pos_left (by norm_num) (by positivity) (by linarith)

/-- The next rung is half the bit rate. -/
theorem rung_succ (k : Nat) : rung (k + 1) = rung k / 2 := by
  unfold rung
  rw [pow_succ, div_div]

/-- A sample word takes more bit-times than the half of a rung leaves room for. -/
theorem eff_lt_half_rung (k : Nat) : eff k < rung k / 2 := by
  have hpos : (0 : Rat) < 2 ^ k := by positivity
  rw [eff_eq, rung, Config.busTopBps, div_div, div_lt_div_iff₀ (by positivity) (by positivity)]
  linarith

theorem bitsToRate_idealBits (r : Rat) : bitsToRate (idealBits r) = r := by
  have hword : Config.wordOverhead ≠ 0 := by norm_num [Config.wordOverhead]
  rw [bitsToRate, idealBits, div_div_cancel₀ hword, sub_add_cancel, one_div_one_div]

theorem idealBits_bitsToRate (b : Rat) : idealBits (bitsToRate b) = b := by
  have hword : Config.wordOverhead ≠ 0 := by norm_num [Config.wordOverhead]
  rw [bitsToRate, idealBits, one_div_one_div, add_sub_cancel_right, div_div_cancel₀ hword]

/-- A faster request never gets a slower rung. -/
theorem rateToBits_antitone {n k₁ k₂ : Nat} {r₁ r₂ : Rat} (hr : r₁ ≤ r₂) (h₁ : rateToBits n r₁ = some k₁)
    (h₂ : rateToBits n r₂ = some k₂) : k₂ ≤ k₁ := by
  obtain ⟨-, -, -, last⟩ := rateToBits_eq_some.mp h₁
  obtain ⟨-, sufficient, hk₂, -⟩ := rateToBits_eq_some.mp h₂
  by_contra hlt
  exact absurd (hr.trans sufficient) (not_le.mpr (last k₂ (not_le.mp hlt) hk₂))

/-- Settles O24: `rateToBits` picks the last rung whose rate is sufficient, and rates fall strictly with the rung. -/
theorem rateConversionProperties : Obligations.RateConversionProperties := by
  refine ⟨fun n k r h => ?achieved, fun n k₁ k₂ r₁ r₂ hr h₁ h₂ => ?monotone, fun r _ _ => bitsToRate_idealBits r,
    fun b _ => idealBits_bitsToRate b, fun n k hk => ?fixed⟩
  case achieved =>
    obtain ⟨hr, sufficient, hk, last⟩ := rateToBits_eq_some.mp h
    refine ⟨hk, sufficient, fun hnext => ⟨eff_lt_half_rung k, (rung_succ k).symm, ?_⟩⟩
    have short : ¬ r ≤ eff (k + 1) := not_le.mpr (last (k + 1) (Nat.lt_succ_self k) hnext)
    exact (not_le.mp (mt (idealBits_le_iff (rung_pos (k + 1)) hr (sufficient.trans_lt (eff_lt k))).mp short)).le
  case monotone =>
    have hk := rateToBits_antitone hr h₁ h₂
    exact ⟨rung_antitone hk, eff_antitone hk⟩
  case fixed => exact rateToBits_eq_some.mpr ⟨eff_pos k, le_rfl, hk, fun _ hkj _ => eff_strictAnti hkj⟩

end Sys2Proof.Machine

/-! PROOFS of the statements about 41_afe.md: every setter runs R174's checks and then one or two verified register updates, whose
effect in EMU and in PHYS is said once; the create probes the chip once; the other operations only read or write the handle. -/

namespace Sys2Proof.Machine

/-! ## The checks of a setter (41_afe.md R174) -/

/-- A state in which a setter goes past its checks. -/
structure State.SetterReady (s : State) : Prop where
  live : s.afe.life = .live
  idle : s.busBusy = false
  mode : s.bus.mode = .command

/-- The premises under which the verified updates are exact in EMU: a register reads back what was written to it. -/
structure State.EmuExact (s : State) : Prop where
  emul : s.bus.emul = true
  admissible : s.cfg.admissible = true
  canonical : Memory.wf s.cfg s.shadow = true

section
variable {i : Instr} {s k : State}

theorem requireSetter_ready (h : s.SetterReady) : s.requireSetter k = k :=
  (requireFault_pos h.live).trans ((requireFault_pos h.idle).trans (requireFault_pos h.mode))

/-- The checks of a setter never raise F_INTEGRITY. -/
theorem requireSetter_ind {P : State → Prop} (hno : ∀ f, f ≠ .integrity → P (s.raise f)) (hyes : s.SetterReady → P k) :
    P (s.requireSetter k) :=
  requireFault_ind (fun _ => hno .lifecycle (by decide)) fun hlive =>
    requireFault_ind (fun _ => hno .busy (by decide)) fun hidle =>
      requireFault_ind (fun _ => hno .mode (by decide)) fun hmode => hyes ⟨hlive, hidle, hmode⟩

theorem setterReady_of_no_fault : (s.requireSetter k).fault = none → s.SetterReady :=
  requireSetter_ind (P := fun t => t.fault = none → s.SetterReady) (fun _ _ h => nomatch h) fun h _ => h

theorem exec_setter_notLive (hexec : exec i s = .next (s.requireSetter k)) (hlive : s.afe.life ≠ .live) :
    exec i s = .next (s.raise .lifecycle) := exec_fails hexec hlive

theorem exec_setter_busy (hexec : exec i s = .next (s.requireSetter k)) (hlive : s.afe.life = .live)
    (hbusy : s.busBusy = true) : exec i s = .next (s.raise .busy) :=
  exec_fails (exec_passes hexec hlive) (by simp [hbusy])

theorem exec_setter_wrongMode (hexec : exec i s = .next (s.requireSetter k)) (hlive : s.afe.life = .live)
    (hidle : s.busBusy = false) (hmode : s.bus.mode = .sample) : exec i s = .next (s.raise .mode) :=
  exec_fails (exec_passes (exec_passes hexec hlive) hidle) (by simp [hmode])

theorem exec_setter (hexec : exec i s = .next (s.requireSetter k)) (h : s.SetterReady) : exec i s = .next k := by
  rw [hexec, requireSetter_ready h]

end

/-! ## Setters of a field (41_afe.md R165 to R167): one masked update, then the handle -/

/-- `val` is a value of the register field under `mask`. -/
structure FieldValue (c : Config) (mask val : Byte) : Prop where
  under : val &&& mask = val
  fits : c.admissible = true → val.toNat < 2 ^ c.regDataBits

theorem fieldValue_gainTx (c : Config) {g : Byte} (hg : g.toNat ≤ 3) : FieldValue c (txGainMask c) (encGainTx c g) := by
  obtain ⟨g, rfl⟩ := level_eq_setWidth g hg
  exact ⟨encGainTx_mask c g, fun hc => encGainTx_lt hc g⟩

theorem fieldValue_gainsRx (c : Config) {g₁ g₂ : Byte} (hg₁ : g₁.toNat ≤ 3) (hg₂ : g₂.toNat ≤ 3) :
    FieldValue c (rxGainMask c) (encGainsRx c g₁ g₂) := by
  obtain ⟨g₁, rfl⟩ := level_eq_setWidth g₁ hg₁
  obtain ⟨g₂, rfl⟩ := level_eq_setWidth g₂ hg₂
  exact ⟨encGainsRx_mask c g₁ g₂, fun hc => encGainsRx_lt hc g₁ g₂⟩

theorem fieldValue_cal (c : Config) (m : Cal) : FieldValue c (calMask c) (calCode c m) :=
  ⟨calCode_mask c m, fun hc => calCode_lt hc m⟩

/-- What the three setters of a field do once their operands are in range: R174's checks, the masked update, and the fields of the
handle that `f` writes. -/
def State.setField (s : State) (a : RegAddr) (mask val : Byte) (f : AfeHandle → AfeHandle) : State :=
  s.requireSetter (proceed (s.maskedUpdate a mask val) fun t => { t with afe := f t.afe }.reply .ok)

section
variable {s : State}

theorem exec_afeSetGainTx {g : Byte} (hg : g.toNat ≤ 3) :
    exec (.afeSetGainTx g) s = .next (s.setField s.cfg.aGain (txGainMask s.cfg) (encGainTx s.cfg g) fun h =>
      { h with gainTx := BitVec.ofNat 2 g.toNat }) := exec_legal rfl hg

theorem exec_afeSetGainsRx {g₁ g₂ : Byte} (hg₁ : g₁.toNat ≤ 3) (hg₂ : g₂.toNat ≤ 3) :
    exec (.afeSetGainsRx g₁ g₂) s = .next (s.setField s.cfg.aGain (rxGainMask s.cfg) (encGainsRx s.cfg g₁ g₂) fun h =>
      { h with gainRx1 := BitVec.ofNat 2 g₁.toNat, gainRx2 := BitVec.ofNat 2 g₂.toNat }) := exec_legal rfl ⟨hg₁, hg₂⟩

theorem exec_afeSetCalibration {c : Byte} (hc : c.toNat ≤ 3) :
    exec (.afeSetCalibration c) s = .next (s.setField s.cfg.aControl1 (calMask s.cfg) (calCode s.cfg (calOf c)) fun h =>
      { h with cal := calOf c }) := exec_legal rfl hc

end

section
variable {i : Instr} {s : State} {a : RegAddr} {mask val old new : Byte} {f : AfeHandle → AfeHandle}
  (run : exec i s = .next (s.setField a mask val f)) (ready : s.SetterReady)
include run ready

/-- In EMU a setter of a field changes its register's masked bits, and the handle. -/
theorem exec_setField_emu (emu : s.EmuExact) (hr : Carries s.cfg a) (hv : FieldValue s.cfg mask val)
    (hold : old = shadowGet s.shadow a.toNat) (hnew : new = (old &&& ~~~mask) ||| val) :
    ∃ sh : List Host.Cell, Memory.wf s.cfg sh = true ∧
      (∀ x, shadowGet sh x = if x = a.toNat then new else shadowGet s.shadow x) ∧
      exec i s = .next
        { s with
          shadow := sh
          afe := f s.afe
          busLog := s.busLog ++ [.cmdRd a old, .cmdWr a new, .cmdRd a new]
          results := s.results ++ [⟨.ok, .none⟩] } := by
  have update := maskedUpdate_emul s a mask val emu.emul hr emu.canonical hv.under (hv.fits emu.admissible)
  rw [← hold, ← hnew] at update
  refine ⟨_, (traffic_maskedUpdate (.inl update)).shadow emu.canonical, fun x => shadowGet_put _ _ x _ emu.canonical, ?_⟩
  rw [exec_setter run ready, update]
  rfl

/-- In PHYS a setter of a field takes whatever the chip answers, and compares the masked bits of the second answer alone. -/
theorem exec_setField_phys {r : Byte} (hphys : s.bus.emul = false) (hold : old = s.cfg.regBits s.drawReceived.2)
    (hnew : new = (old &&& ~~~mask) ||| val) (hr : r = s.cfg.regBits s.drawReceived.1.drawReceived.2) :
    (r &&& mask = val → exec i s = .next
        { s with
          env := s.drawReceived.1.drawReceived.1.env
          afe := f s.afe
          busLog := s.busLog ++ [.cmdRd a old, .cmdWr a new, .cmdRd a r]
          results := s.results ++ [⟨.ok, .none⟩] }) ∧
      (r &&& mask ≠ val → exec i s = .next
        { s with
          env := s.drawReceived.1.drawReceived.1.env
          busLog := s.busLog ++ [.cmdRd a old, .cmdWr a new, .cmdRd a r]
          fault := some .integrity }) := by
  rw [exec_setter run ready, maskedUpdate_phys s a mask val hphys old new r hold hnew hr _ rfl]
  refine ⟨fun agrees => ?_, fun differs => ?_⟩
  · rw [if_pos agrees]
    rfl
  · rw [if_neg differs]
    rfl

end

/-- Settles O28: the range, the checks of a setter, and the TXG field of GAIN. -/
theorem afeSetGainTxRule : Obligations.AfeSetGainTxRule := by
  rintro s g mask val rfl rfl
  have run (hg : g.toNat ≤ 3) := exec_afeSetGainTx (s := s) hg
  refine ⟨fun hg => illegalOperandIsEParamInAnyState (.afeSetGainTx g) s (decide_eq_false (Nat.not_le.mpr hg)),
    fun hg => exec_setter_notLive (run hg), fun hg => exec_setter_busy (run hg),
    fun hg => exec_setter_wrongMode (run hg), fun old new hg hlive hidle hmode hemul hadm hwf hold hnew => ?emu,
    fun old new r hg hlive hidle hmode hphys hold hnew hr => ?phys⟩
  case emu =>
    obtain ⟨-, carries, -⟩ := carries_of_admissible hadm
    obtain ⟨sh, -, done⟩ := exec_setField_emu (run hg) ⟨hlive, hidle, hmode⟩ ⟨hemul, hadm, hwf⟩ carries
      (fieldValue_gainTx _ hg) hold hnew
    exact ⟨sh, done⟩
  case phys => exact exec_setField_phys (run hg) ⟨hlive, hidle, hmode⟩ hphys hold hnew hr

/-- Settles O29: the ranges, the checks of a setter, and both rx fields of GAIN at once. -/
theorem afeSetGainsRxRule : Obligations.AfeSetGainsRxRule := by
  rintro s g₁ g₂ mask val rfl rfl
  have run (hg₁ : g₁.toNat ≤ 3) (hg₂ : g₂.toNat ≤ 3) := exec_afeSetGainsRx (s := s) hg₁ hg₂
  refine ⟨fun hg => illegalOperandIsEParamInAnyState (.afeSetGainsRx g₁ g₂) s (decide_eq_false (by omega)),
    fun hg₁ hg₂ => exec_setter_notLive (run hg₁ hg₂), fun hg₁ hg₂ => exec_setter_busy (run hg₁ hg₂),
    fun hg₁ hg₂ => exec_setter_wrongMode (run hg₁ hg₂),
    fun old new hg₁ hg₂ hlive hidle hmode hemul hadm hwf hold hnew => ?emu,
    fun old new r hg₁ hg₂ hlive hidle hmode hphys hold hnew hr => ?phys⟩
  case emu =>
    obtain ⟨-, carries, -⟩ := carries_of_admissible hadm
    obtain ⟨sh, -, done⟩ := exec_setField_emu (run hg₁ hg₂) ⟨hlive, hidle, hmode⟩ ⟨hemul, hadm, hwf⟩ carries
      (fieldValue_gainsRx _ hg₁ hg₂) hold hnew
    exact ⟨sh, done⟩
  case phys => exact exec_setField_phys (run hg₁ hg₂) ⟨hlive, hidle, hmode⟩ hphys hold hnew hr

/-- The mode an operand selects and its one-hot code (41_afe.md R167). -/
theorem calCode_calOf (k : Config) (c : Byte) :
    (calCode k (calOf c), calOf c) =
      if c = 0 then (0#8, .none) else if c = 1 then (1#8 <<< k.places.txCal, .tx)
      else if c = 2 then (1#8 <<< k.places.rxCal, .rx) else (1#8 <<< k.places.txPgaCal, .txPga) := by
  unfold calOf
  split_ifs <;> rfl

/-- Settles O30: the range, the checks of a setter, and the calibration bits of CONTROL1. -/
theorem afeSetCalibrationRule : Obligations.AfeSetCalibrationRule := by
  rintro s c code mask mode rfl hcode
  obtain ⟨rfl, rfl⟩ := Prod.mk.inj (hcode.trans (calCode_calOf s.cfg c).symm)
  have run (hc : c.toNat ≤ 3) := exec_afeSetCalibration (s := s) hc
  refine ⟨fun hc => illegalOperandIsEParamInAnyState (.afeSetCalibration c) s (decide_eq_false (Nat.not_le.mpr hc)),
    fun hc => exec_setter_notLive (run hc), fun hc => exec_setter_busy (run hc),
    fun hc => exec_setter_wrongMode (run hc), fun old new hc hlive hidle hmode hemul hadm hwf hold hnew => ?emu,
    fun old new r hc hlive hidle hmode hphys hold hnew hr => ?phys⟩
  case emu =>
    obtain ⟨-, -, -, carries, -⟩ := carries_of_admissible hadm
    obtain ⟨sh, -, done⟩ := exec_setField_emu (run hc) ⟨hlive, hidle, hmode⟩ ⟨hemul, hadm, hwf⟩ carries
      (fieldValue_cal _ _) hold hnew
    exact ⟨sh, done⟩
  case phys => exact exec_setField_phys (run hc) ⟨hlive, hidle, hmode⟩ hphys hold hnew hr

/-! ### Setting a field again (41_afe.md R175) -/

/-- A masked update made twice is made once. -/
theorem masked_masked (old mask val : Byte) :
    ((((old &&& ~~~mask) ||| val) &&& ~~~mask) ||| val) = (old &&& ~~~mask) ||| val := by
  apply BitVec.eq_of_getLsbD_eq
  intro i hi
  simp only [BitVec.getLsbD_and, BitVec.getLsbD_or]
  cases old.getLsbD i <;> cases (~~~mask).getLsbD i <;> cases val.getLsbD i <;> rfl

/-- A field set in EMU and set again to the same value: the second time only the histories grow. -/
theorem exec_setField_idempotent {i : Instr} {s t u : State} {a : RegAddr} {mask val : Byte} {f : AfeHandle → AfeHandle}
    (emu : s.EmuExact) (hr : Carries s.cfg a) (hv : FieldValue s.cfg mask val)
    (run : exec i s = .next (s.setField a mask val f)) (ht : exec i s = .next t) (hfault : t.fault = none)
    (runAgain : exec i t = .next (t.setField a mask val f)) (hu : exec i t = .next u)
    (hlife : ∀ h, (f h).life = h.life) (htwice : ∀ h, f (f h) = f h) :
    u.afe = t.afe ∧ u.fault = none ∧ (∀ x, shadowGet u.shadow x = shadowGet t.shadow x) ∧
      { u with shadow := t.shadow, busLog := t.busLog, results := t.results } = t := by
  have ready : s.SetterReady := setterReady_of_no_fault (Host.Outcome.next.inj (run.symm.trans ht) ▸ hfault)
  obtain ⟨sh, canonical, reads, first⟩ := exec_setField_emu run ready emu hr hv rfl rfl
  rw [ht, Host.Outcome.next.injEq] at first
  have hcfg : t.cfg = s.cfg := by rw [first]
  have readyAgain : t.SetterReady := by rw [first]; exact ⟨(hlife _).trans ready.live, ready.idle, ready.mode⟩
  have emuAgain : t.EmuExact := by rw [first]; exact ⟨emu.emul, emu.admissible, canonical⟩
  have cached : f t.afe = t.afe := by rw [first]; exact htwice _
  have stored : (shadowGet t.shadow a.toNat &&& ~~~mask) ||| val = shadowGet t.shadow a.toNat := by
    rw [first, reads, if_pos rfl, masked_masked]
  obtain ⟨sh', -, readsAgain, second⟩ := exec_setField_emu runAgain readyAgain emuAgain (hcfg ▸ hr) (hcfg ▸ hv) rfl rfl
  rw [hu, cached, Host.Outcome.next.injEq] at second
  subst second
  refine ⟨rfl, hfault, fun x => ?_, rfl⟩
  rw [readsAgain, stored]
  split
  next hx => rw [hx]
  next => rfl

/-- Settles O35: an operand out of range is answered E_PARAM twice; otherwise one field is set twice. -/
theorem gainSettersAreIdempotent : Obligations.GainSettersAreIdempotent := by
  intro s t u i hi hemul hadm hwf _ ht hfault hu
  obtain ⟨-, carries, -⟩ := carries_of_admissible hadm
  have emu : s.EmuExact := ⟨hemul, hadm, hwf⟩
  have hcfg : t.cfg = s.cfg := (exec_grows ht).cfg
  cases hlegal : legalOperands s.cfg i
  case false =>
    have again := illegalOperandIsEParamInAnyState i t (hcfg ▸ hlegal)
    obtain rfl := Host.Outcome.next.inj (again.symm.trans hu)
    exact ⟨rfl, hfault, fun _ => rfl, rfl⟩
  case true =>
    obtain ⟨g, rfl⟩ | ⟨g₁, g₂, rfl⟩ := hi
    · have hg : g.toNat ≤ 3 := of_decide_eq_true hlegal
      have again := exec_afeSetGainTx (s := t) hg
      rw [hcfg] at again
      exact exec_setField_idempotent emu carries (fieldValue_gainTx _ hg) (exec_afeSetGainTx hg) ht hfault again hu
        (fun _ => rfl) fun _ => rfl
    · obtain ⟨hg₁, hg₂⟩ : g₁.toNat ≤ 3 ∧ g₂.toNat ≤ 3 := of_decide_eq_true hlegal
      have again := exec_afeSetGainsRx (s := t) hg₁ hg₂
      rw [hcfg] at again
      exact exec_setField_idempotent emu carries (fieldValue_gainsRx _ hg₁ hg₂) (exec_afeSetGainsRx hg₁ hg₂) ht hfault
        again hu (fun _ => rfl) fun _ => rfl

/-! ## AFE_ACTIVATE_BLOCKS (41_afe.md R162, R163): two registers written whole and verified -/

theorem blockBit_eq (m : Byte) (i j : Nat) : blockBit m i j = (if m.getLsbD i then (1 : Byte) else 0) <<< j := by
  unfold blockBit
  cases m.getLsbD i <;> rfl

theorem blockBit_zero (i j : Nat) : blockBit 0#8 i j = 0#8 := by
  simp [blockBit_eq]

theorem encEnable1_zero (c : Config) : encEnable1 c 0#8 = 0#8 := by
  simp [encEnable1, blockBit_zero]

theorem encEnable2_zero (c : Config) : encEnable2 c 0#8 = 0#8 := by
  simp [encEnable2, blockBit_zero]

section
variable {s : State} (m : Byte) (ready : s.SetterReady)
include ready

/-- In EMU both enable registers read back what was written. -/
theorem exec_afeActivateBlocks_emu (emu : s.EmuExact) :
    ∃ sh : List Host.Cell, Memory.wf s.cfg sh = true ∧
      (∀ x, shadowGet sh x =
        if x = s.cfg.aEnable2.toNat then encEnable2 s.cfg m
        else if x = s.cfg.aEnable1.toNat then encEnable1 s.cfg m else shadowGet s.shadow x) ∧
      exec (.afeActivateBlocks m) s = .next
        { s with
          shadow := sh
          afe := { s.afe with blocks := m }
          busLog := s.busLog ++
            [.cmdWr s.cfg.aEnable1 (encEnable1 s.cfg m), .cmdRd s.cfg.aEnable1 (encEnable1 s.cfg m),
              .cmdWr s.cfg.aEnable2 (encEnable2 s.cfg m), .cmdRd s.cfg.aEnable2 (encEnable2 s.cfg m)]
          results := s.results ++ [⟨.ok, .none⟩] } := by
  obtain ⟨carries1, -, carries2, -⟩ := carries_of_admissible emu.admissible
  have fits1 := encEnable1_lt emu.admissible m
  have fits2 := encEnable2_lt emu.admissible m
  have between := Memory.wf_put s.shadow s.cfg.aEnable1.toNat _ emu.canonical s.cfg.aEnable1.isLt fits1
  refine ⟨_, Memory.wf_put _ s.cfg.aEnable2.toNat _ between s.cfg.aEnable2.isLt fits2, fun x => ?_, ?_⟩
  · rw [shadowGet_put _ _ _ _ between, shadowGet_put _ _ _ _ emu.canonical]
  · rw [exec_setter rfl ready, writeVerify_emul s _ _ emu.emul carries1 emu.canonical fits1, proceed_ok,
      writeVerify_emul _ _ _ (by exact emu.emul) (by exact carries2) (by exact between) (by exact fits2), proceed_ok]
    simp [State.reply]

/-- In PHYS each readback is what the chip sends, and the second register is written only if the first one agreed. -/
theorem exec_afeActivateBlocks_phys {r₁ r₂ : Byte} (hphys : s.bus.emul = false)
    (hr₁ : r₁ = s.cfg.regBits s.drawReceived.2) (hr₂ : r₂ = s.cfg.regBits s.drawReceived.1.drawReceived.2) :
    (r₁ ≠ encEnable1 s.cfg m → exec (.afeActivateBlocks m) s = .next
        { s with
          env := s.drawReceived.1.env
          busLog := s.busLog ++ [.cmdWr s.cfg.aEnable1 (encEnable1 s.cfg m), .cmdRd s.cfg.aEnable1 r₁]
          fault := some .integrity }) ∧
      (r₁ = encEnable1 s.cfg m → r₂ ≠ encEnable2 s.cfg m → exec (.afeActivateBlocks m) s = .next
        { s with
          env := s.drawReceived.1.drawReceived.1.env
          busLog := s.busLog ++
            [.cmdWr s.cfg.aEnable1 (encEnable1 s.cfg m), .cmdRd s.cfg.aEnable1 r₁,
              .cmdWr s.cfg.aEnable2 (encEnable2 s.cfg m), .cmdRd s.cfg.aEnable2 r₂]
          fault := some .integrity }) ∧
      (r₁ = encEnable1 s.cfg m → r₂ = encEnable2 s.cfg m → exec (.afeActivateBlocks m) s = .next
        { s with
          env := s.drawReceived.1.drawReceived.1.env
          afe := { s.afe with blocks := m }
          busLog := s.busLog ++
            [.cmdWr s.cfg.aEnable1 (encEnable1 s.cfg m), .cmdRd s.cfg.aEnable1 r₁,
              .cmdWr s.cfg.aEnable2 (encEnable2 s.cfg m), .cmdRd s.cfg.aEnable2 r₂]
          results := s.results ++ [⟨.ok, .none⟩] }) := by
  obtain ⟨t, ht⟩ : ∃ t, t = s.afterBus s.shadow s.drawReceived.1.env
    [.cmdWr s.cfg.aEnable1 (encEnable1 s.cfg m), .cmdRd s.cfg.aEnable1 r₁] := ⟨_, rfl⟩
  have hcfg : t.cfg = s.cfg := by rw [ht]; rfl
  have hphys' : t.bus.emul = false := by rw [ht]; exact hphys
  obtain ⟨word, env⟩ := drawReceived_of_env (s := s.drawReceived.1) (t := t) (by rw [ht]; rfl)
  have first := writeVerify_phys s s.cfg.aEnable1 (encEnable1 s.cfg m) hphys t (by rw [ht, hr₁]; rfl)
  have second := writeVerify_phys t s.cfg.aEnable2 (encEnable2 s.cfg m) hphys' _ rfl
  rw [← hr₁] at first
  rw [word, env, hcfg, ← hr₂] at second
  have run := exec_setter (i := .afeActivateBlocks m) rfl ready
  refine ⟨fun differs => ?_, fun agrees differs => ?_, fun agrees agrees' => ?_⟩
  · rw [run, first, if_neg differs, proceed_error, ht]
    rfl
  · rw [run, first, if_pos agrees, proceed_ok, second, if_neg differs, proceed_error, ht]
    simp [State.afterBus]
  · rw [run, first, if_pos agrees, proceed_ok, second, if_pos agrees', proceed_ok, ht]
    simp [State.afterBus, State.reply]

end

/-- Settles O34: the encoders of the empty mask are zero, and the second activation writes both registers whole. -/
theorem activatingNoneClearsBothEnableRegisters : Obligations.ActivatingNoneClearsBothEnableRegisters := by
  intro s t u m hlive hidle hmode hemul hadm hwf ht hu
  obtain ⟨sh, canonical, -, first⟩ := exec_afeActivateBlocks_emu m ⟨hlive, hidle, hmode⟩ ⟨hemul, hadm, hwf⟩
  rw [ht, Host.Outcome.next.injEq] at first
  obtain ⟨sh', -, reads, second⟩ := exec_afeActivateBlocks_emu (s := t) 0 (by rw [first]; exact ⟨hlive, hidle, hmode⟩)
    (by rw [first]; exact ⟨hemul, hadm, canonical⟩)
  rw [hu, Host.Outcome.next.injEq] at second
  have hcfg : t.cfg = s.cfg := (exec_grows ht).cfg
  have hfault : t.fault = s.fault := by rw [first]
  subst second
  refine ⟨hfault, rfl, ?_, ?_⟩ <;> simp [reads, hcfg, encEnable1_zero, encEnable2_zero]

/-- Settles O27: the two encoders bit by bit, the checks of a setter, and the two verified writes. -/
theorem afeActivateBlocksRule : Obligations.AfeActivateBlocksRule := by
  intro s m bit hbit
  have moved (i j : Nat) : blockBit m i j = bit i <<< j := by rw [blockBit_eq, hbit]
  refine ⟨by simp only [encEnable1, moved], by simp only [encEnable2, moved], ?_, ?_,
    exec_setter_notLive rfl, exec_setter_busy rfl, exec_setter_wrongMode rfl,
    fun hlive hidle hmode hemul hadm hwf => ?emu,
    fun r₁ r₂ hlive hidle hmode hphys => exec_afeActivateBlocks_phys m ⟨hlive, hidle, hmode⟩ hphys⟩
  · simp [encEnable1, moved, Config.default]
  · simp [encEnable2, moved, Config.default]
  case emu =>
    obtain ⟨sh, -, done⟩ := exec_afeActivateBlocks_emu m ⟨hlive, hidle, hmode⟩ ⟨hemul, hadm, hwf⟩
    exact ⟨sh, done⟩

/-! ## A faithful chip (20_memory.md R67) -/

/-- A faithful chip reads back what was just written. -/
theorem readback_of_readsFaithful {a : RegAddr} {cur : Option Byte} {l : List BusEvent} {v r : Byte}
    (h : readsFaithful a cur (l ++ [.cmdWr a v, .cmdRd a r]) = true) : r = v := by
  induction l generalizing cur with
  | nil => simpa [readsFaithful, eq_comm] using h
  | cons e l ih =>
    cases e with
    | modeSel => exact ih h
    | sample => exact ih h
    | cmdWr => exact ih h
    | cmdRd b w =>
      simp only [List.cons_append, readsFaithful] at h
      split at h
      · exact ih (Bool.and_eq_true _ _ ▸ h).2
      · exact ih h

/-- What ChipFaithful says of the four registers the setters write. -/
structure FaithfulRegisters (c : Config) (log : List BusEvent) : Prop where
  enable1 : readsFaithful c.aEnable1 none log = true
  gain : readsFaithful c.aGain none log = true
  enable2 : readsFaithful c.aEnable2 none log = true
  control1 : readsFaithful c.aControl1 none log = true

theorem faithfulRegisters_of_chipFaithful {c : Config} {log : List BusEvent} (h : ChipFaithful c log = true) :
    FaithfulRegisters c log := by
  simp only [ChipFaithful, Bool.and_eq_true] at h
  obtain ⟨⟨⟨⟨enable1, gain⟩, enable2⟩, control1⟩, -⟩ := h
  exact ⟨enable1, gain, enable2, control1⟩

section
variable {s t : State} {a : RegAddr}

theorem writeVerify_ok_of_faithful {v : Byte} (h : readsFaithful a none t.busLog = true) : s.writeVerify a v ≠ .error t := by
  intro herr
  obtain ⟨env, r, u, hu, ⟨-, hok⟩ | ⟨differs, herr'⟩⟩ := writeVerify_cases s a v
  · cases hok.symm.trans herr
  · cases herr'.symm.trans herr
    rw [hu] at h
    exact differs (readback_of_readsFaithful h)

theorem maskedUpdate_ok_of_faithful {mask val : Byte} (hv : FieldValue s.cfg mask val)
    (h : readsFaithful a none t.busLog = true) : s.maskedUpdate a mask val ≠ .error t := by
  intro herr
  obtain ⟨env, old, new, r, u, -, hnew, hu, ⟨-, hok⟩ | ⟨differs, herr'⟩⟩ := maskedUpdate_cases s a mask val
  · cases hok.symm.trans herr
  · cases herr'.symm.trans herr
    have events : u.busLog = (s.busLog ++ [.cmdRd a old]) ++ [.cmdWr a new, .cmdRd a r] := by simp [hu, State.afterBus]
    rw [State.raise_busLog, events] at h
    rw [readback_of_readsFaithful h, hnew] at differs
    exact differs (masked_readback old mask val hv.under)

end

/-- If the bus history of `u` is a faithful chip's, no verification has failed. -/
def VerifiedIfFaithful (c : Config) (u : State) : Prop :=
  FaithfulRegisters c u.busLog → u.fault ≠ some .integrity

theorem verifiedIfFaithful_of_no_fault {c : Config} {u : State} (h : u.fault = none) : VerifiedIfFaithful c u := by
  simp [VerifiedIfFaithful, h]

theorem verifiedIfFaithful_requireSetter {c : Config} {s k : State} (hk : VerifiedIfFaithful c k) :
    VerifiedIfFaithful c (s.requireSetter k) :=
  requireSetter_ind (fun _ hf _ he => hf (Option.some.inj he)) fun _ => hk

section
variable {s : State} (hs : s.fault = none)
include hs

theorem verifiedIfFaithful_setField {a : RegAddr} {mask val : Byte} {f : AfeHandle → AfeHandle} (hv : FieldValue s.cfg mask val)
    (ha : ∀ {log}, FaithfulRegisters s.cfg log → readsFaithful a none log = true) :
    VerifiedIfFaithful s.cfg (s.setField a mask val f) := by
  refine verifiedIfFaithful_requireSetter (proceed_ind (fun t herr faithful => ?differs) fun t hok => ?agrees)
  case differs => exact absurd herr (maskedUpdate_ok_of_faithful hv (ha faithful))
  case agrees => exact verifiedIfFaithful_of_no_fault ((fault_maskedUpdate hok).trans hs)

theorem verifiedIfFaithful_afeActivateBlocks {m : Byte} {t : State} (ht : exec (.afeActivateBlocks m) s = .next t) :
    VerifiedIfFaithful s.cfg t := by
  obtain rfl := Host.Outcome.next.inj ht
  refine verifiedIfFaithful_requireSetter (proceed_ind (fun t herr faithful => ?first) fun t hok =>
    proceed_ind (fun u herr faithful => ?second) fun u hok' => ?agree)
  case first => exact absurd herr (writeVerify_ok_of_faithful faithful.enable1)
  case second => exact absurd herr (writeVerify_ok_of_faithful faithful.enable2)
  case agree => exact verifiedIfFaithful_of_no_fault ((fault_writeVerify hok').trans ((fault_writeVerify hok).trans hs))

end

/-- Settles O36: a setter raises F_INTEGRITY only where a readback differs from what was written just before it. -/
theorem aFaithfulChipNeverFailsVerification : Obligations.AFaithfulChipNeverFailsVerification := by
  intro s t i hi _ hs ht faithful
  suffices verified : VerifiedIfFaithful s.cfg t from verified (faithfulRegisters_of_chipFaithful faithful)
  cases hlegal : legalOperands s.cfg i
  case false =>
    obtain rfl := Host.Outcome.next.inj ((illegalOperandIsEParamInAnyState i s hlegal).symm.trans ht)
    exact verifiedIfFaithful_of_no_fault hs
  case true =>
    obtain ⟨m, rfl⟩ | ⟨g, rfl⟩ | ⟨g₁, g₂, rfl⟩ | ⟨c, rfl⟩ := hi
    · exact verifiedIfFaithful_afeActivateBlocks hs ht
    · have hg : g.toNat ≤ 3 := of_decide_eq_true hlegal
      obtain rfl := Host.Outcome.next.inj ((exec_afeSetGainTx hg).symm.trans ht)
      exact verifiedIfFaithful_setField hs (fieldValue_gainTx _ hg) (·.gain)
    · obtain ⟨hg₁, hg₂⟩ : g₁.toNat ≤ 3 ∧ g₂.toNat ≤ 3 := of_decide_eq_true hlegal
      obtain rfl := Host.Outcome.next.inj ((exec_afeSetGainsRx hg₁ hg₂).symm.trans ht)
      exact verifiedIfFaithful_setField hs (fieldValue_gainsRx _ hg₁ hg₂) (·.gain)
    · have hc : c.toNat ≤ 3 := of_decide_eq_true hlegal
      obtain rfl := Host.Outcome.next.inj ((exec_afeSetCalibration hc).symm.trans ht)
      exact verifiedIfFaithful_setField hs (fieldValue_cal _ _) (·.control1)

/-! ## Creating and releasing the AFE (41_afe.md R160, R161) -/

section
variable {s : State}

theorem exec_afeCreate (habsent : s.afe.life = .absent) (hlive : s.bus.life = .live) (hidle : s.busBusy = false)
    (hmode : s.bus.mode = .command) :
    exec .afeCreate s = .next
      (if s.bus.emul then s.probeAfe
      else if s.drawResource.2 then s.drawResource.1.probeAfe else s.drawResource.1.unwindAfe .eResource) :=
  exec_passes (exec_passes (exec_legal (exec_passes rfl habsent) hlive) hidle) hmode

/-- In EMU the probe makes the handle live, whatever it reads. -/
theorem probeAfe_emul (hemul : s.bus.emul = true) (hr : Carries s.cfg s.cfg.aRevision) :
    s.probeAfe =
      { s with
        busLog := s.busLog ++ [.cmdRd s.cfg.aRevision (shadowGet s.shadow s.cfg.aRevision.toNat)]
        afe :=
          { s.afe with
            life := .live, revision := shadowGet s.shadow s.cfg.aRevision.toNat, blocks := 0, cal := .none,
            gainTx := 0, gainRx1 := 0, gainRx2 := 0, cbOn := false }
        results := s.results ++ [⟨.ok, .none⟩] } := by
  unfold State.probeAfe
  rw [readReg_emul s _ hemul hr]
  exact if_neg fun h => absurd (hemul.symm.trans h.2) (by decide)

/-- In PHYS the probe compares what the chip sends with the expected revision. -/
theorem probeAfe_phys (hphys : s.bus.emul = false) {r : Byte} (hr : r = s.cfg.regBits s.drawReceived.2) :
    s.probeAfe =
      if r = s.cfg.expectedRevision then
        { s with
          env := s.drawReceived.1.env
          busLog := s.busLog ++ [.cmdRd s.cfg.aRevision r]
          afe :=
            { s.afe with
              life := .live, revision := r, blocks := 0, cal := .none, gainTx := 0, gainRx1 := 0, gainRx2 := 0, cbOn := false }
          results := s.results ++ [⟨.ok, .none⟩] }
      else
        { s with
          env := s.drawReceived.1.env
          busLog := s.busLog ++ [.cmdRd s.cfg.aRevision r]
          bus := { s.bus with life := .released }
          results := s.results ++ [⟨.ePresence, .none⟩] } := by
  unfold State.probeAfe
  rw [readReg_phys s _ hphys, ← hr]
  by_cases hrev : r = s.cfg.expectedRevision
  · rw [if_pos hrev]
    exact if_neg fun h => h.1 hrev
  · rw [if_neg hrev]
    exact if_pos ⟨hrev, hphys⟩

end

/-- Settles O25: the checks in order, in PHYS ENV's answer, and one probe. -/
theorem afeCreateRule : Obligations.AfeCreateRule := by
  intro s
  have drawn := drawResource_fst s
  have hcfg : s.drawResource.1.cfg = s.cfg := by rw [drawn]
  refine ⟨fun hlife => exec_fails rfl hlife, fun habsent hdead => ?noBus, fun habsent hlive hbusy => ?busy,
    fun habsent hlive hidle hmode => ?mode, fun habsent hlive hidle hmode hemul hadm => ?emu,
    fun habsent hlive hidle hmode hphys denied => ?noResource,
    fun habsent hlive hidle hmode hphys granted hrev => ?noPresence,
    fun habsent hlive hidle hmode hphys granted hrev => ?present⟩
  case noBus => rw [exec_passes rfl habsent, requireStatus_neg hdead]; rfl
  case busy => exact exec_fails (exec_legal (exec_passes rfl habsent) hlive) (by simp [hbusy])
  case mode => exact exec_fails (exec_passes (exec_legal (exec_passes rfl habsent) hlive) hidle) (by simp [hmode])
  case emu =>
    obtain ⟨-, -, -, -, carries⟩ := carries_of_admissible hadm
    rw [exec_afeCreate habsent hlive hidle hmode, if_pos hemul, probeAfe_emul hemul carries]
  case noResource =>
    rw [exec_afeCreate habsent hlive hidle hmode, if_neg (by simp [hphys]), if_neg (by simp [denied]), drawn]
    rfl
  case noPresence =>
    rw [exec_afeCreate habsent hlive hidle hmode, if_neg (by simp [hphys]), if_pos granted,
      probeAfe_phys (by rw [drawn]; exact hphys) (by rw [hcfg]), if_neg (by rw [hcfg]; exact hrev)]
    generalize s.drawResource.1.drawReceived = received
    rw [drawn]
  case present =>
    rw [exec_afeCreate habsent hlive hidle hmode, if_neg (by simp [hphys]), if_pos granted,
      probeAfe_phys (by rw [drawn]; exact hphys) (by rw [hcfg, hrev]), if_pos (by rw [hcfg])]
    generalize s.drawResource.1.drawReceived = received
    rw [drawn]

/-- Settles O26: one check, and two fields of the handle. -/
theorem afeReleaseRule : Obligations.AfeReleaseRule := fun _ =>
  ⟨fun hlife => exec_fails rfl hlife, fun hlive => exec_passes rfl hlive⟩

/-! ## Standby, queries and the flag callback (41_afe.md R169 to R173) -/

/-- Settles O31: the range, and the mark that no step goes past. -/
theorem afeSetStandbyRule : Obligations.AfeSetStandbyRule := by
  intro s a
  have refused (ha : a.toNat ≤ 1) : exec (.afeSetStandby a) s = .next s.refuse := exec_legal rfl ((isFlag_iff a).mpr ha)
  refine ⟨fun ha => illegalOperandIsEParamInAnyState (.afeSetStandby a) s (decide_eq_false (Nat.not_le.mpr ha)), refused,
    fun t ha hs ht => ?_⟩
  obtain rfl := Host.Outcome.next.inj ((refused ha).symm.trans ht)
  simp [step, hs]

/-- Settles O32: each query has one check. -/
theorem afeQueriesRule : Obligations.AfeQueriesRule := fun _ =>
  ⟨fun hlife => ⟨exec_fails rfl hlife, exec_fails rfl hlife⟩, fun hlive => ⟨exec_passes rfl hlive, exec_passes rfl hlive⟩,
    exec_notLive rfl, fun hlive => exec_passes rfl hlive⟩

/-- Settles O33: the range, the lifecycle, and whether the callback is registered already. -/
theorem afeSetFlagsCallbackRule : Obligations.AfeSetFlagsCallbackRule := by
  intro s a
  refine ⟨fun ha => illegalOperandIsEParamInAnyState (.afeSetFlagsCallback a) s (decide_eq_false (Nat.not_le.mpr ha)),
    fun ha hlife => exec_fails (exec_legal rfl ((isFlag_iff a).mpr ha)) hlife, ?register, ?again, ?unregister⟩
  case register =>
    rintro rfl hlive hoff
    rw [exec_passes (exec_legal rfl rfl) hlive, if_pos rfl, if_neg (by simp [hoff])]
    rfl
  case again =>
    rintro rfl hlive hon
    rw [exec_passes (exec_legal rfl rfl) hlive, if_pos rfl, if_pos hon]
    rfl
  case unregister =>
    rintro rfl hlive
    rw [exec_passes (exec_legal rfl rfl) hlive, if_neg (by decide)]
    rfl

end Sys2Proof.Machine

/-! PROOFS of the statements about 42_sched.md: the arbiter's invariant, which every step keeps, the SCHED operations, the steps of
TXE, and the waits of HOST. -/

namespace Sys2Proof.Machine

/-! ## Buffers in the sample space -/

section
variable {s t : State} {b c : Fin 2} {p : Nat}

/-- The two buffers share no sample address (20_memory.md R60). -/
theorem sampleAddr_outside (h : b ≠ c) (hp : p < s.sch.len) :
    ¬ (s.sampleAddr b 0 ≤ s.sampleAddr c p ∧ s.sampleAddr c p < s.sampleAddr b 0 + s.sch.len) := by
  rintro ⟨low, high⟩
  simp only [State.sampleAddr, Nat.add_zero] at low high
  rcases Nat.lt_or_gt_of_ne (Fin.val_ne_of_ne h) with below | above
  · have := Nat.mul_le_mul_right s.sch.len below
    rw [Nat.succ_mul] at this
    omega
  · have := Nat.mul_le_mul_right s.sch.len above
    rw [Nat.succ_mul] at this
    omega

/-- The buffers after the next fill data is stored in buffer `b` (42_sched.md R206). -/
def State.filled (s : State) (b : Fin 2) : List (Nat × Half) :=
  samplesPut (s.sampleAddr b 0) (s.fillSrc s.fillCount) s.buf

/-- A fill whose data fits counts its invocation and stores it. -/
theorem fill_fits (b : Fin 2) (h : ∀ x ∈ s.fillSrc s.fillCount, x.toNat < 2 ^ s.cfg.sampleBits) :
    s.fill b = .ok { s with fillCount := s.fillCount + 1, buf := s.filled b } := by
  rcases fill_cases s b with ⟨-, filled⟩ | ⟨misfit, -⟩
  · exact filled
  · exact absurd ((all_sampleFits s _).mpr h) (by simp [misfit])

/-- A fill with a sample that does not fit counts its invocation and stores nothing (20_memory.md R70). -/
theorem fill_misfit (b : Fin 2) (h : ∃ x ∈ s.fillSrc s.fillCount, 2 ^ s.cfg.sampleBits ≤ x.toNat) :
    s.fill b = .error { s with fillCount := s.fillCount + 1, fault := some .sampleRange } := by
  rcases fill_cases s b with ⟨fits, -⟩ | ⟨-, faulted⟩
  · obtain ⟨x, hx, wide⟩ := h
    exact absurd ((all_sampleFits s _).mp fits x hx) (Nat.not_lt.mpr wide)
  · exact faulted

/-- What a fill that went on did. -/
theorem fill_eq_ok (h : s.fill b = .ok t) :
    (∀ x ∈ s.fillSrc s.fillCount, x.toNat < 2 ^ s.cfg.sampleBits) ∧
      t = { s with fillCount := s.fillCount + 1, buf := s.filled b } := by
  rcases fill_cases s b with ⟨fits, e⟩ | ⟨-, e⟩ <;> rw [e] at h <;> cases h
  exact ⟨(all_sampleFits s _).mp fits, rfl⟩

/-- The filled buffer reads the data, every other address as before. -/
theorem sampleAt_filled (s : State) (b : Fin 2) (x : Nat) :
    sampleAt (s.filled b) x =
      if s.sampleAddr b 0 ≤ x ∧ x < s.sampleAddr b 0 + s.sch.len then (s.fillSrc s.fillCount)[x - s.sampleAddr b 0]?
      else sampleAt s.buf x := by
  rw [State.filled, sampleAt_put, fillSrc_length]

/-- A fill leaves the other buffer (20_memory.md R75). -/
theorem sampleAt_filled_other (h : b ≠ c) (hp : p < s.sch.len) :
    sampleAt (s.filled b) (s.sampleAddr c p) = sampleAt s.buf (s.sampleAddr c p) := by
  rw [sampleAt_filled, if_neg (sampleAddr_outside h hp)]

/-- A buffer is ready exactly if each of its entries holds a sample that fits. -/
theorem bufferReady_iff :
    s.bufferReady b = true ↔
      ∀ p < s.sch.len, ∃ v, sampleAt s.buf (s.sampleAddr b p) = some v ∧ v.toNat < 2 ^ s.cfg.sampleBits := by
  simp only [State.bufferReady, List.all_eq_true, List.mem_range]
  refine forall₂_congr fun p _ => ?_
  cases sampleAt s.buf (s.sampleAddr b p) <;> simp [State.sampleFits]

/-- A fill that went on made its buffer ready and leaves the other one ready if it was. -/
theorem bufferReady_fill (h : s.fill b = .ok t) (hc : c = b ∨ s.bufferReady c = true) : t.bufferReady c = true := by
  obtain ⟨fits, rfl⟩ := fill_eq_ok h
  refine bufferReady_iff.mpr fun p (hp : p < s.sch.len) => ?_
  by_cases hcb : c = b
  · subst hcb
    have inside : p < (s.fillSrc s.fillCount).length := by rwa [fillSrc_length]
    refine ⟨_, ?_, fits _ (List.getElem_mem inside)⟩
    have stored := sampleAt_filled s c (s.sampleAddr c p)
    rw [if_pos (by simpa [State.sampleAddr] using hp), show s.sampleAddr c p - s.sampleAddr c 0 = p by
      simp [State.sampleAddr], List.getElem?_eq_getElem inside] at stored
    exact stored
  · obtain ⟨v, hv, hfits⟩ := bufferReady_iff.mp (hc.resolve_left hcb) p hp
    exact ⟨v, (sampleAt_filled_other (Ne.symm hcb) hp).trans hv, hfits⟩

end

/-! ## The arbiter's invariant (42_sched.md R212, R234)

`State.arbiterRunning` and `State.arbiterInv` with their conditions under names. -/

/-- The invariant of a running two-buffer scheduler. -/
structure ArbiterRunning (s : State) : Prop where
  busLive : s.bus.life = .live
  sampleMode : s.bus.mode = .sample
  inBuffer : s.sch.txPos < s.sch.len
  inFlight : s.bufferReady s.sch.txCur = true
  freshReady : ∀ b, s.sch.fresh.get b = true → s.bufferReady b = true
  needFill : s.sch.phase = .needFill → s.sch.fillTgt ≠ s.sch.txCur ∧ s.sch.fresh.get s.sch.fillTgt = false
  needFlush : s.sch.phase = .needFlush →
    (s.sch.fillTgt ≠ s.sch.txCur ∧ s.sch.fresh.get s.sch.fillTgt = true) ∨
      (s.sch.fillTgt = s.sch.txCur ∧ s.sch.fresh.get (otherBuffer s.sch.fillTgt) = false)

/-- The invariant in every state. -/
structure ArbiterInv (s : State) : Prop where
  length : s.sch.life = .created → 1 ≤ s.sch.len
  running : s.busBusy = true → ArbiterRunning s
  inFlush : s.wait = .flush → s.busBusy = true ∧ s.sch.phase = .needFlush
  inStop : s.wait = .stop → s.busBusy = true ∧ s.sch.terminate = true

theorem arbiterRunning_iff (s : State) : s.arbiterRunning = true ↔ ArbiterRunning s := by
  simp only [State.arbiterRunning, Bool.and_eq_true, decide_eq_true_eq]
  constructor
  · rintro ⟨⟨⟨⟨⟨⟨live, mode, pos⟩, flight⟩, fresh0⟩, fresh1⟩, fill⟩, flush⟩
    exact ⟨live, mode, pos, flight, Fin.forall_fin_two.mpr ⟨fresh0, fresh1⟩, fill, flush⟩
  · rintro ⟨live, mode, pos, flight, fresh, fill, flush⟩
    exact ⟨⟨⟨⟨⟨⟨live, mode, pos⟩, flight⟩, fresh 0⟩, fresh 1⟩, fill⟩, flush⟩

theorem arbiterInv_iff (s : State) : s.arbiterInv = true ↔ ArbiterInv s := by
  simp only [State.arbiterInv, Bool.and_eq_true, decide_eq_true_eq, arbiterRunning_iff]
  constructor
  · rintro ⟨⟨⟨length, running⟩, flush⟩, stop⟩
    exact ⟨length, running, flush, stop⟩
  · rintro ⟨length, running, flush, stop⟩
    exact ⟨⟨⟨length, running⟩, flush⟩, stop⟩

/-- What the invariant reads of a state, everything else as at reset. -/
def State.arbiterParts (s : State) : State :=
  { State.reset with
    cfg := s.cfg, bus := { State.reset.bus with life := s.bus.life, mode := s.bus.mode }, sch := s.sch, buf := s.buf,
    wait := s.wait }

theorem arbiterInv_parts (s : State) : s.arbiterParts.arbiterInv = s.arbiterInv := rfl

section
variable {s t : State}

theorem ArbiterInv.congr (hs : ArbiterInv s) (h : t.arbiterParts = s.arbiterParts) : ArbiterInv t := by
  rw [← arbiterInv_iff, ← arbiterInv_parts] at hs ⊢
  rwa [h]

theorem busBusy_congr (h : t.sch = s.sch) : t.busBusy = s.busBusy := by
  rw [State.busBusy, State.busBusy, State.schN, State.schN, h]

theorem busBusy_of_life (h : s.sch.life ≠ .running) : s.busBusy = false :=
  (busBusy_eq_false s).mpr fun running => h running.1

/-- Where TXE does not own the bus and HOST is not blocked, the invariant asks for a length only. -/
theorem ArbiterInv.of_idle (hidle : s.busBusy = false) (hw : s.wait = .ready)
    (hlen : s.sch.life = .created → 1 ≤ s.sch.len) : ArbiterInv s where
  length := hlen
  running busy := absurd (hidle.symm.trans busy) (by decide)
  inFlush blocked := absurd (hw.symm.trans blocked) (by decide)
  inStop blocked := absurd (hw.symm.trans blocked) (by decide)

/-- Such a state may change in anything but the scheduler. -/
theorem ArbiterInv.of_sch (hs : ArbiterInv s) (hidle : s.busBusy = false) (hw : t.wait = .ready) (hsch : t.sch = s.sch) :
    ArbiterInv t :=
  .of_idle ((busBusy_congr hsch).trans hidle) hw fun created => by
    rw [hsch] at created ⊢
    exact hs.length created

/-- TXE owns only a live bus. -/
theorem ArbiterInv.idle_of_dead (hs : ArbiterInv s) (h : s.bus.life ≠ .live) : s.busBusy = false :=
  Bool.eq_false_iff.mpr fun busy => h (hs.running busy).busLive

/-! ### The shared operations -/

theorem Traffic.arbiterParts (h : Traffic s t) : t.arbiterParts = s.arbiterParts := by
  simp only [State.arbiterParts, h.cfg, h.bus, h.sch, h.buf, h.wait]

/-- A fill whose data does not fit leaves what the invariant reads. -/
theorem arbiterParts_fillError {b : Fin 2} (h : s.fill b = .error t) : t.arbiterParts = s.arbiterParts := by
  rcases fill_cases s b with ⟨-, e⟩ | ⟨-, e⟩ <;> rw [e] at h <;> cases h
  rfl

theorem arbiterParts_prefillError (h : s.prefill = .error t) : t.arbiterParts = s.arbiterParts := by
  unfold State.prefill at h
  split at h
  · exact arbiterParts_fillError h
  · cases h

theorem beginRun_one (h : s.schN = 1) :
    s.beginRun =
      { s with
        sch :=
          { s.sch with
            life := .running, fillTgt := 0, txCur := 0, txPos := 0, fresh := { s.sch.fresh with b0 := false },
            phase := .needFill, txeActive := false } }.reply .ok := by
  simp [State.beginRun, h]

theorem beginRun_two (h : s.schN = 2) :
    s.beginRun =
      { s with
        sch :=
          { s.sch with
            life := .running, fillTgt := 1, txCur := 0, txPos := 0, fresh := { b0 := true, b1 := false },
            phase := .needFill, txeActive := true } }.reply .ok := by
  simp [State.beginRun, h]

/-- A start with two buffers puts the pre-filled buffer 0 in flight and buffer 1 out for filling (42_sched.md R202). -/
theorem ArbiterRunning.beginRun (hfill : s.fill 0 = .ok t) (hN : s.schN = 2) (hlive : s.bus.life = .live)
    (hmode : s.bus.mode = .sample) (hlen : 1 ≤ s.sch.len) : ArbiterRunning t.beginRun := by
  have ready : t.bufferReady 0 = true := bufferReady_fill hfill (.inl rfl)
  obtain ⟨-, rfl⟩ := fill_eq_ok hfill
  rw [beginRun_two (by exact hN)]
  exact {
    busLive := hlive
    sampleMode := hmode
    inBuffer := hlen
    inFlight := ready
    freshReady := Fin.forall_fin_two.mpr ⟨fun _ => ready, fun fresh => absurd fresh (by simp [FreshBits.get])⟩
    needFill := fun _ => by simp [FreshBits.get]
    needFlush := nofun }

theorem ArbiterInv.beginRun (hs : ArbiterInv s) (hcreated : s.sch.life = .created) (hlive : s.bus.life = .live)
    (hmode : s.bus.mode = .sample) (hw : s.wait = .ready) (h : s.prefill = .ok t) : ArbiterInv t.beginRun := by
  rcases buffers_cases s.sch.variant with one | two
  · obtain rfl : s = t := by simpa [State.prefill, State.schN, one] using h
    rw [beginRun_one one]
    exact .of_idle ((busBusy_eq_false _).mpr fun ⟨_, two⟩ => absurd (one.symm.trans two) (by decide)) hw nofun
  · have hfill : s.fill 0 = .ok t := by simpa [State.prefill, State.schN, two] using h
    have running := ArbiterRunning.beginRun hfill two hlive hmode (hs.length hcreated)
    obtain ⟨-, rfl⟩ := fill_eq_ok hfill
    rw [beginRun_two (by exact two)] at running ⊢
    exact {
      length := nofun
      running := fun _ => running
      inFlush := fun blocked => absurd (hw.symm.trans blocked) (by decide)
      inStop := fun blocked => absurd (hw.symm.trans blocked) (by decide) }

/-- A fill makes its target ready and fresh, and touches neither the buffer in flight nor a fresh one (42_sched.md R203). -/
theorem ArbiterRunning.filled (hs : ArbiterRunning s) (hphase : s.sch.phase = .needFill)
    (h : s.fill s.sch.fillTgt = .ok t) :
    ArbiterRunning { t with sch.fresh := t.sch.fresh.set s.sch.fillTgt true, sch.phase := .needFlush } := by
  have ready (c : Fin 2) (hc : c = s.sch.fillTgt ∨ s.bufferReady c = true) : t.bufferReady c = true :=
    bufferReady_fill h hc
  obtain ⟨-, rfl⟩ := fill_eq_ok h
  obtain ⟨apart, -⟩ := hs.needFill hphase
  exact {
    busLive := hs.busLive
    sampleMode := hs.sampleMode
    inBuffer := hs.inBuffer
    inFlight := ready _ (.inr hs.inFlight)
    freshReady := fun c fresh => by
      by_cases hc : c = s.sch.fillTgt
      · exact ready c (.inl hc)
      · exact ready c (.inr (hs.freshReady c ((fresh_get_set_ne _ true hc).symm.trans fresh)))
    needFill := nofun
    needFlush := fun _ => .inl ⟨apart, fresh_get_set _ _ _⟩ }

/-- Once TXE has taken the filled buffer, the other one is out for filling: it is neither in flight nor fresh
(42_sched.md R205). -/
theorem ArbiterRunning.finishFlush (hs : ArbiterRunning s) (hphase : s.sch.phase = .needFlush)
    (htaken : s.sch.txCur = s.sch.fillTgt) : ArbiterRunning s.finishFlush where
  busLive := hs.busLive
  sampleMode := hs.sampleMode
  inBuffer := hs.inBuffer
  inFlight := hs.inFlight
  freshReady := hs.freshReady
  needFill _ := by
    rcases hs.needFlush hphase with ⟨apart, -⟩ | ⟨-, spent⟩
    · exact absurd htaken.symm apart
    · rw [← htaken] at spent
      exact ⟨otherBuffer_ne _, spent⟩
  needFlush := nofun

theorem ArbiterInv.finishFlush (hs : ArbiterInv s) (hphase : s.sch.phase = .needFlush)
    (htaken : s.sch.txCur = s.sch.fillTgt) : ArbiterInv s.finishFlush where
  length := hs.length
  running busy := (hs.running busy).finishFlush hphase htaken
  inFlush := nofun
  inStop := nofun

theorem arbiterInv_finishStop (s : State) : ArbiterInv s.finishStop :=
  .of_idle (busBusy_of_life nofun) rfl nofun

/-! ### The buffer boundary (42_sched.md R231) -/

section
variable (s)

/-- Once `terminate` is set TXE decides nothing. -/
theorem bufferBoundary_terminate (h : s.sch.terminate = true) :
    s.bufferBoundary = { s with sch.txPos := 0, sch.fresh := s.sch.fresh.set s.sch.txCur false } := by
  simp [State.bufferBoundary, h]

/-- TXE moves to a fresh buffer. -/
theorem bufferBoundary_move (h : s.sch.terminate = false) (hfresh : s.sch.fresh.get (otherBuffer s.sch.txCur) = true) :
    s.bufferBoundary =
      { s with
        sch :=
          { s.sch with
            txPos := 0, fresh := s.sch.fresh.set s.sch.txCur false, txCur := otherBuffer s.sch.txCur } } := by
  simp [State.bufferBoundary, h, fresh_get_set_ne _ _ (otherBuffer_ne s.sch.txCur), hfresh]

/-- TXE repeats a buffer and counts a miss if the other one is not fresh. -/
theorem bufferBoundary_miss (h : s.sch.terminate = false) (hstale : s.sch.fresh.get (otherBuffer s.sch.txCur) = false) :
    s.bufferBoundary =
      { s with
        sch :=
          { s.sch with txPos := 0, fresh := s.sch.fresh.set s.sch.txCur false, missed := s.sch.missed + 1 } } := by
  simp [State.bufferBoundary, h, fresh_get_set_ne _ _ (otherBuffer_ne s.sch.txCur), hstale]

end

/-- Where TXE repeats its buffer, or stops deciding, the buffer in flight stays and is no longer fresh. -/
theorem ArbiterRunning.spent (hs : ArbiterRunning s) (m : Nat) :
    ArbiterRunning
      { s with sch := { s.sch with txPos := 0, fresh := s.sch.fresh.set s.sch.txCur false, missed := m } } where
  busLive := hs.busLive
  sampleMode := hs.sampleMode
  inBuffer := Nat.zero_lt_of_lt hs.inBuffer
  inFlight := hs.inFlight
  freshReady c fresh := by
    by_cases hc : c = s.sch.txCur
    · exact hc ▸ hs.inFlight
    · exact hs.freshReady c ((fresh_get_set_ne _ false hc).symm.trans fresh)
  needFill hphase := by
    obtain ⟨apart, stale⟩ := hs.needFill hphase
    exact ⟨apart, (fresh_get_set_ne _ false apart).trans stale⟩
  needFlush hphase := by
    rcases hs.needFlush hphase with ⟨apart, fresh⟩ | ⟨taken, stale⟩
    · exact .inl ⟨apart, (fresh_get_set_ne _ false apart).trans fresh⟩
    · exact .inr ⟨taken, (fresh_get_set_ne _ false (taken ▸ otherBuffer_ne _)).trans stale⟩

/-- Where the other buffer is fresh, it is the one last filled: TXE takes it (42_sched.md R231, R234). -/
theorem ArbiterRunning.fresh_other (hs : ArbiterRunning s)
    (hfresh : s.sch.fresh.get (otherBuffer s.sch.txCur) = true) :
    s.sch.phase = .needFlush ∧ s.sch.fillTgt = otherBuffer s.sch.txCur := by
  cases hphase : s.sch.phase with
  | needFill =>
    obtain ⟨apart, stale⟩ := hs.needFill hphase
    rw [eq_otherBuffer_of_ne apart, hfresh] at stale
    cases stale
  | needFlush =>
    rcases hs.needFlush hphase with ⟨apart, -⟩ | ⟨taken, stale⟩
    · exact ⟨rfl, eq_otherBuffer_of_ne apart⟩
    · rw [taken, hfresh] at stale
      cases stale

theorem ArbiterRunning.move (hs : ArbiterRunning s) (hfresh : s.sch.fresh.get (otherBuffer s.sch.txCur) = true) :
    ArbiterRunning
      { s with
        sch :=
          { s.sch with
            txPos := 0, fresh := s.sch.fresh.set s.sch.txCur false, txCur := otherBuffer s.sch.txCur } } := by
  obtain ⟨hphase, target⟩ := hs.fresh_other hfresh
  have spent := hs.spent s.sch.missed
  exact { spent with
    inFlight := hs.freshReady _ hfresh
    needFill := fun filling => absurd (hphase.symm.trans filling) (by decide)
    needFlush := fun _ => .inr ⟨target, by
      have : otherBuffer s.sch.fillTgt = s.sch.txCur := (eq_otherBuffer_of_ne (target ▸ (otherBuffer_ne _).symm)).symm
      exact this ▸ fresh_get_set _ _ _⟩ }

theorem ArbiterInv.bufferBoundary (hs : ArbiterInv s) : ArbiterInv s.bufferBoundary := by
  cases hterm : s.sch.terminate with
  | true =>
    rw [bufferBoundary_terminate s hterm]
    exact { hs with running := fun busy => (hs.running busy).spent s.sch.missed }
  | false =>
    cases hfresh : s.sch.fresh.get (otherBuffer s.sch.txCur) with
    | true =>
      rw [bufferBoundary_move s hterm hfresh]
      exact { hs with running := fun busy => (hs.running busy).move hfresh }
    | false =>
      rw [bufferBoundary_miss s hterm hfresh]
      exact { hs with running := fun busy => (hs.running busy).spent (s.sch.missed + 1) }

/-! ### The steps of TXE (42_sched.md R230, R232) -/

/-- What TXE does after a sample: the next position, or the boundary after the last one. -/
def State.advance (s : State) : State :=
  if s.sch.txPos + 1 < s.sch.len then { s with sch.txPos := s.sch.txPos + 1 } else s.bufferBoundary

/-- An enabled emit step sends the entry at TXE's position and advances. -/
theorem txeEmit_eq (h : s.emitEnabled = true) :
    s.txeEmit = proceed (s.sendEntry s.sch.txCur s.sch.txPos) State.advance := by
  obtain ⟨busy, active, going⟩ := (emitEnabled_iff s).mp h
  rw [txeEmit_enabled busy active going]
  rcases sendEntry_cases s s.sch.txCur s.sch.txPos with ⟨v, sent⟩ | ⟨f, -, stopped⟩
  · rw [sent]
    rfl
  · rw [stopped]
    rfl

theorem ArbiterInv.advance (hs : ArbiterInv s) : ArbiterInv s.advance := by
  unfold State.advance
  split
  next inside => exact { hs with running := fun busy => { hs.running busy with inBuffer := inside } }
  next => exact hs.bufferBoundary

theorem ArbiterInv.txeEmit (hs : ArbiterInv s) : ArbiterInv s.txeEmit := by
  cases h : s.emitEnabled with
  | true =>
    rw [txeEmit_eq h]
    exact proceed_ind (fun t ht => hs.congr (traffic_sendEntry (.inr ht)).arbiterParts)
      fun t ht => (hs.congr (traffic_sendEntry (.inl ht)).arbiterParts).advance
  | false => rwa [State.txeEmit, h]

theorem ArbiterInv.txeHalt (hs : ArbiterInv s) : ArbiterInv s.txeHalt := by
  unfold State.txeHalt
  split
  · exact { hs with running := fun busy => { hs.running busy with } }
  · exact hs

theorem arbiterParts_flagmonStep (s : State) (x : FlagPin) : (s.flagmonStep x).arbiterParts = s.arbiterParts := by
  unfold State.flagmonStep
  split <;> rfl

theorem arbiterParts_envStep (s : State) (x : FlagPin) : (s.envStep x).arbiterParts = s.arbiterParts := by
  unfold State.envStep
  simp only
  split <;> rfl

/-! ### Instructions and turns -/

/-- HOST runs an operation only while it is not blocked. -/
theorem Effect.arbiterInv {i : Instr} (h : Effect s i t) (hs : ArbiterInv s) (hw : s.wait = .ready) : ArbiterInv t := by
  cases h with
  | traffic _ h | reply _ _ _ h | openAfe _ h | afeUpdate _ _ h =>
    have kept := hs.congr h.arbiterParts
    exact kept.congr rfl
  | refuse | configure | releaseAfe => exact hs.congr rfl
  | openBus _ _ h _ habsent =>
    exact hs.of_sch (hs.idle_of_dead (by simp [habsent])) (h.wait.trans hw) h.sch
  | releaseBus _ _ hsch =>
    exact hs.of_sch (busBusy_of_life (by rcases hsch with e | e <;> simp [e])) hw rfl
  | setMode _ _ hidle => exact hs.of_sch hidle hw rfl
  | unwind _ h _ _ _ hidle => exact hs.of_sch hidle (h.wait.trans hw) h.sch
  | openSched _ _ h _ _ hlen => exact .of_idle (busBusy_of_life nofun) (h.wait.trans hw) fun _ => hlen
  | start h _ hcreated hbus hx =>
    obtain ⟨hlive, hmode⟩ := hbus
    exact (hs.congr h.arbiterParts).beginRun (h.sch ▸ hcreated) (h.bus ▸ hlive) (h.bus ▸ hmode) (h.wait.trans hw) hx
  | startError h _ _ hx => exact hs.congr ((arbiterParts_prefillError hx).trans h.arbiterParts)
  | stopCreated | release => exact .of_idle (busBusy_of_life nofun) hw nofun
  | stopWait hrunning hactive =>
    exact {
      length := hs.length
      running := fun busy => { hs.running busy with }
      inFlush := nofun
      inStop := fun _ => ⟨(busBusy_iff s).mpr ⟨hrunning, hactive.1⟩, rfl⟩ }
  | stopNow => exact arbiterInv_finishStop _
  | fill _ hphase ht =>
    have filled (busy : s.busBusy = true) := (hs.running busy).filled hphase ht
    obtain ⟨-, rfl⟩ := fill_eq_ok ht
    exact {
      length := hs.length
      running := fun busy => { filled busy with }
      inFlush := fun blocked => absurd (hw.symm.trans blocked) (by decide)
      inStop := fun blocked => absurd (hw.symm.trans blocked) (by decide) }
  | fillError _ ht => exact hs.congr (arbiterParts_fillError ht)
  | flushSync hrunning hone h =>
    refine .of_idle ((busBusy_eq_false _).mpr fun ⟨_, two⟩ => ?_) (h.wait.trans hw) fun created => ?_
    · have kept : s.schN = 2 := (congrArg (·.variant.buffers) h.sch).symm.trans two
      exact absurd (hone.symm.trans kept) (by decide)
    · have kept : s.sch.life = .created := (congrArg (·.life) h.sch).symm.trans created
      exact absurd (hrunning.symm.trans kept) (by decide)
  | flushEnd _ _ hphase htaken => exact hs.finishFlush hphase htaken
  | flushWait hrunning htwo hphase =>
    exact {
      length := hs.length
      running := fun busy => { hs.running busy with }
      inFlush := fun _ => ⟨(busBusy_iff s).mpr ⟨hrunning, htwo⟩, hphase⟩
      inStop := nofun }

theorem TurnCase.arbiterInv (h : TurnCase s t) (hs : ArbiterInv s) : ArbiterInv t := by
  cases h with
  | operation _ rest hw _ _ he | wire _ _ rest hw _ _ he => exact (exec_effect he).arbiterInv (hs.congr rfl) hw
  | rejected _ _ _ _ ht | nothing ht | wireWide _ _ _ _ _ _ ht => exact ht ▸ hs.congr rfl
  | flushEnds hw htaken ht => exact ht ▸ hs.finishFlush (hs.inFlush hw).2 htaken
  | stopEnds _ _ ht => exact ht ▸ arbiterInv_finishStop s
  | emit ht => exact ht ▸ hs.txeEmit
  | halt ht => exact ht ▸ hs.txeHalt
  | flagmon x ht => exact ht ▸ hs.congr (arbiterParts_flagmonStep s x)
  | env x ht => exact ht ▸ hs.congr (arbiterParts_envStep s x)

/-- Every step of every agent keeps the invariant: taking the turn off the schedule is not read by it. -/
theorem step_arbiterInv (hs : ArbiterInv s) (h : step s = .next t) : ArbiterInv t := by
  obtain ⟨_, _, _, _, turn⟩ := step_cases h
  exact turn.arbiterInv (hs.congr rfl)

end

/-- Settles O54, by the cases of a step (`step_cases`) and of an instruction (`exec_effect`): a fill and a start make the buffer
they write ready, and only a boundary, a fill and the end of a flush move a buffer between TXE and HOST. -/
theorem everyStepKeepsTheArbiterInvariant : Obligations.EveryStepKeepsTheArbiterInvariant := fun s t hs h =>
  (arbiterInv_iff t).mpr (step_arbiterInv ((arbiterInv_iff s).mp hs) h)

/-! ## The lifecycle of the scheduler (42_sched.md R201, R202, R208, R209) -/

section
variable {i : Instr} {s k : State}

theorem exec_noSched (hexec : exec i s = .next (s.requireSched k)) (h : s.sch.life = .absent ∨ s.sch.life = .released) :
    exec i s = .next (s.raise .lifecycle) :=
  exec_fails hexec fun ⟨absent, released⟩ => h.elim absent released

theorem exec_sched (hexec : exec i s = .next (s.requireSched k)) {life : SchedLife} (h : s.sch.life = life)
    (hne : life ≠ .absent ∧ life ≠ .released := by decide) : exec i s = .next k :=
  exec_passes hexec (h ▸ hne)

/-- An operation that asks ENV for a resource goes on in EMU, and in PHYS if ENV grants it, with the answers then left
(60_exceptions.md R252). -/
theorem acquire_granted {env : Env}
    (h : (s.bus.emul = true ∧ env = s.env) ∨
      (s.bus.emul = false ∧ s.drawResource.2 = true ∧ env = s.drawResource.1.env)) (k : State → State) :
    (if s.bus.emul then k s else if s.drawResource.2 then k s.drawResource.1 else s.drawResource.1.reply .eResource) =
      k { s with env := env } := by
  rcases h with ⟨emul, rfl⟩ | ⟨phys, granted, rfl⟩
  · rw [if_pos emul]
  · rw [if_neg (by simp [phys]), if_pos granted, ← drawResource_fst]

theorem acquire_denied (hphys : s.bus.emul = false) (hdenied : s.drawResource.2 = false) (k : State → State) :
    (if s.bus.emul then k s else if s.drawResource.2 then k s.drawResource.1 else s.drawResource.1.reply .eResource) =
      { s with env := s.drawResource.1.env }.reply .eResource := by
  rw [if_neg (by simp [hphys]), if_neg (by simp [hdenied]), ← drawResource_fst]

end

/-- Settles O37: the range (`illegalOperandIsEParamInAnyState`), the refused variant, the lifecycle, the bus, and in PHYS ENV's
answer, in this order. -/
theorem schedCreateRule : Obligations.SchedCreateRule := by
  intro s v w variant hvariant
  obtain rfl : variant = variantOf v := hvariant
  refine ⟨fun hbad => ?range, fun hv hpos hmax => ?refused, fun hv hpos hmax hdma => ?_⟩
  case range =>
    refine illegalOperandIsEParamInAnyState (.schedCreate v w) s (decide_eq_false ?_)
    rintro ⟨hv, hpos, hmax, hdma⟩
    rcases hbad with h | h | h | ⟨rfl, h⟩
    · omega
    · omega
    · omega
    · exact absurd (hdma rfl) (by omega)
  case refused =>
    subst hv
    exact exec_legal rfl (decide_eq_true ⟨by decide, hpos, hmax, by simp⟩)
  have legal : schedOperandsLegal s.cfg v w = true :=
    decide_eq_true ⟨by omega, hpos, hmax, fun ⟨two, long⟩ => absurd (hdma two) (by omega)⟩
  have notAudio : v ≠ 3 := by
    rintro rfl
    exact absurd hv (by decide)
  have checked := (exec_legal (i := .schedCreate v w) rfl legal).trans (congrArg _ (if_neg notAudio))
  refine ⟨fun hlife => exec_fails checked hlife, fun habsent hdead => ?noBus, fun habsent hlive hphys denied => ?noResource,
    fun env habsent hlive granted => ?created⟩
  case noBus => rw [exec_passes checked habsent, requireStatus_neg hdead]; rfl
  case noResource =>
    rw [exec_passes checked habsent, requireStatus_pos hlive]
    exact congrArg _ (acquire_denied hphys denied fun u => u.openSched (variantOf v) w.toNat)
  case created =>
    rw [exec_passes checked habsent, requireStatus_pos hlive]
    exact congrArg _ (acquire_granted granted fun u => u.openSched (variantOf v) w.toNat)

section
variable {s : State}

/-- A start that passes its checks. -/
theorem exec_schedStart (hcreated : s.sch.life = .created) (hlive : s.bus.life = .live) (hmode : s.bus.mode = .sample) :
    exec .schedStart s = .next
      (if s.bus.emul = false ∧ s.schN = 2 then
        if s.drawResource.2 then proceed s.drawResource.1.prefill State.beginRun else s.drawResource.1.reply .eResource
      else proceed s.prefill State.beginRun) :=
  exec_legal (exec_legal (exec_sched rfl hcreated) hcreated) ⟨hlive, hmode⟩

/-- With one buffer a start asks for nothing and fills nothing. -/
theorem exec_schedStart_one (hcreated : s.sch.life = .created) (hlive : s.bus.life = .live) (hmode : s.bus.mode = .sample)
    (hone : s.schN = 1) : exec .schedStart s = .next s.beginRun := by
  rw [exec_schedStart hcreated hlive hmode, if_neg (by simp [hone]), State.prefill, if_neg (by simp [hone]), proceed_ok]

/-- With two buffers it asks ENV for a resource and fills buffer 0. -/
theorem exec_schedStart_two (hcreated : s.sch.life = .created) (hlive : s.bus.life = .live) (hmode : s.bus.mode = .sample)
    (htwo : s.schN = 2) :
    exec .schedStart s = .next
      (if s.bus.emul then proceed (s.fill 0) State.beginRun
      else if s.drawResource.2 then proceed (s.drawResource.1.fill 0) State.beginRun
      else s.drawResource.1.reply .eResource) := by
  have kept : s.drawResource.1.schN = 2 := by rw [drawResource_fst]; exact htwo
  rw [exec_schedStart hcreated hlive hmode, State.prefill, State.prefill, if_pos htwo, if_pos kept]
  cases s.bus.emul <;> simp [htwo]

end

/-- Settles O38: the checks in order; with two buffers ENV's answer and the pre-fill of buffer 0, whose data is the same whatever
ENV has answered (`fillSrc_of_fills`). -/
theorem schedStartRule : Obligations.SchedStartRule := by
  intro s
  refine ⟨exec_noSched rfl, fun hlife => ?state, fun hcreated hbus => ?bus, fun hcreated hlive hmode hsync => ?one,
    fun hcreated hlive hmode hN hphys denied => ?noResource, fun env hcreated hlive hmode hN granted => ?two⟩
  case state =>
    rcases hlife with h | h <;>
      rw [exec_sched rfl h, requireStatus_neg (by simp [h])] <;> rfl
  case bus =>
    rw [exec_legal (exec_sched rfl hcreated) hcreated, requireStatus_neg]
    · rfl
    · rintro ⟨hlive, hmode⟩
      rcases hbus with dead | command
      · exact dead hlive
      · exact absurd (command.symm.trans hmode) (by decide)
  case one =>
    rw [exec_schedStart_one hcreated hlive hmode (schN_sync hsync), beginRun_one (schN_sync hsync)]
    rfl
  case noResource =>
    rw [exec_schedStart_two hcreated hlive hmode (schN_two hN)]
    exact congrArg _ (acquire_denied hphys denied fun u => proceed (u.fill 0) State.beginRun)
  case two =>
    have run : exec .schedStart s = .next (proceed (({ s with env := env } : State).fill 0) State.beginRun) := by
      rw [exec_schedStart_two hcreated hlive hmode (schN_two hN)]
      exact congrArg _ (acquire_granted granted fun u => proceed (u.fill 0) State.beginRun)
    have fills : env.fills = s.env.fills := by
      rcases granted with ⟨-, rfl⟩ | ⟨-, -, rfl⟩
      · rfl
      · exact fills_drawResource s
    have source := fillSrc_of_fills s env s.fillCount fills
    constructor
    · intro wide
      rw [run, fill_misfit 0 (by rw [source]; exact wide), proceed_error]
    · intro fits
      have filled := fill_fits (s := { s with env := env }) 0 (by rw [source]; exact fits)
      refine ⟨({ s with env := env } : State).filled 0, fun x => ?_, ?_⟩
      · rw [sampleAt_filled, source]
        simp [State.sampleAddr]
      · rw [run, filled, proceed_ok, beginRun_two (by exact schN_two hN)]
        rfl

/-- Settles O41: the three lifecycles in which it succeeds at once, and a running TXE, which HOST waits for. -/
theorem schedStopRule : Obligations.SchedStopRule := by
  intro s
  have running (h : s.sch.life = .running) :
      exec .schedStop s = .next
        (if s.schN = 2 ∧ s.sch.txeActive = true then { s with sch.terminate := true, wait := .stop }
        else ({ s with sch.terminate := true } : State).finishStop) := by
    rw [exec_sched rfl h, if_neg (by simp [h]), if_neg (by simp [h])]
  refine ⟨exec_noSched rfl, fun hcreated => ?created, fun hstopped => ?stopped, fun hrunning hdone => ?now,
    fun hrunning hN hactive => ?wait⟩
  case created => rw [exec_sched rfl hcreated, if_pos hcreated]; rfl
  case stopped => rw [exec_sched rfl hstopped, if_neg (by simp [hstopped]), if_pos hstopped]; rfl
  case now =>
    rw [running hrunning, if_neg]
    · rfl
    · rintro ⟨two, active⟩
      rcases hdone with sync | halted
      · exact absurd ((schN_sync sync).symm.trans two) (by decide)
      · exact absurd (halted.symm.trans active) (by decide)
  case wait => rw [running hrunning, if_pos ⟨schN_two hN, hactive⟩]

/-- Settles O42: the two checks, then the release. -/
theorem schedReleaseRule : Obligations.SchedReleaseRule := by
  intro s
  refine ⟨exec_noSched rfl, fun hlife => ?_, fun hstopped => exec_passes (exec_sched rfl hstopped) hstopped⟩
  rcases hlife with h | h <;> exact exec_fails (exec_sched rfl h) (by simp [h])

/-- Settles O43: each query has one check, the first a second one. -/
theorem schedQueriesRule : Obligations.SchedQueriesRule := by
  intro s
  refine ⟨fun hlife => ⟨exec_noSched rfl hlife, exec_noSched rfl hlife⟩, fun hlife => ?_,
    fun hrunning => exec_legal (exec_sched rfl hrunning) hrunning, fun hlife => ?_⟩
  · rcases hlife with h | h <;> rw [exec_sched rfl h, requireStatus_neg (by simp [h])] <;> rfl
  · rcases hlife with h | h | h <;> exact exec_sched rfl h

/-! ## Fill and flush (42_sched.md R203 to R205) -/

section
variable {i : Instr} {s k : State} {p q : Phase}
  (hexec : exec i s = .next (s.requireSched (s.requireFault (s.sch.life = .running ∧ s.sch.phase = p) .seq k)))
include hexec

/-- A fill and a flush are operations of a running scheduler, each in its phase. -/
theorem exec_inTurn (hrunning : s.sch.life = .running) (hphase : s.sch.phase = p) : exec i s = .next k :=
  exec_passes (exec_sched hexec hrunning) ⟨hrunning, hphase⟩

theorem exec_outOfTurn
    (h : s.sch.life = .created ∨ s.sch.life = .stopped ∨ (s.sch.life = .running ∧ s.sch.phase = q))
    (hne : q ≠ p := by decide) : exec i s = .next (s.raise .seq) := by
  rcases h with created | stopped | ⟨running, phase⟩
  · exact exec_fails (exec_sched hexec created) (by simp [created])
  · exact exec_fails (exec_sched hexec stopped) (by simp [stopped])
  · exact exec_fails (exec_sched hexec running) fun turn => hne (phase.symm.trans turn.2)

end

/-- Settles O39: the two checks, then the fill of the target (`fill_fits`, `fill_misfit`). -/
theorem schedFillNextBufferRule : Obligations.SchedFillNextBufferRule := by
  intro s
  refine ⟨exec_noSched rfl, exec_outOfTurn rfl, fun hrunning hphase wide => ?misfit,
    fun base hrunning hphase fits hbase => ?fits⟩
  case misfit => rw [exec_inTurn rfl hrunning hphase, fill_misfit _ wide, proceed_error]
  case fits =>
    obtain rfl : base = s.sampleAddr s.sch.fillTgt 0 := hbase
    refine ⟨s.filled s.sch.fillTgt, s.sch.fresh.set s.sch.fillTgt true, sampleAt_filled s _, fresh_get_set _ _ _,
      fresh_get_set_ne _ true (otherBuffer_ne _), ?_⟩
    rw [exec_inTurn rfl hrunning hphase, fill_fits _ fits]
    rfl

section
variable {s : State} {b : Fin 2} {p : Nat}

/-- Buffer 0 begins at sample address 0. -/
@[simp] theorem sampleAddr_zero (s : State) (p : Nat) : s.sampleAddr 0 p = p := by simp [State.sampleAddr]

/-- An entry that is empty, or a position past the buffer, is F_UNWRITTEN (20_memory.md R70). -/
theorem sendEntry_unwritten (h : s.sch.len ≤ p ∨ sampleAt s.buf (s.sampleAddr b p) = none) :
    s.sendEntry b p = .error (s.raise .unwritten) := by
  rcases memRead_one s b p with ⟨v, inside, hv, -⟩ | ⟨-, e⟩
  · rcases h with past | empty
    · exact absurd inside (Nat.not_lt.mpr past)
    · rw [hv] at empty
      cases empty
  · rw [State.sendEntry, e]

/-- A filled entry is sent as a sample word. -/
theorem sendEntry_written {v : Half} (hp : p < s.sch.len) (hv : sampleAt s.buf (s.sampleAddr b p) = some v) :
    s.sendEntry b p = s.sampleWord v := by
  rcases memRead_one s b p with ⟨w, -, hw, e⟩ | ⟨past | empty, -⟩
  · obtain rfl : v = w := Option.some.inj (hv.symm.trans hw)
    rw [State.sendEntry, e]
    simp only [State.sampleWords]
    cases s.sampleWord v <;> rfl
  · exact absurd hp (Nat.not_lt.mpr past)
  · rw [hv] at empty
    cases empty

theorem sampleWord_command (v : Half) (h : s.bus.mode = .command) : s.sampleWord v = .error (s.raise .mode) := by
  simp [State.sampleWord, h]

theorem sampleWord_misfit {v : Half} (h : s.bus.mode = .sample) (hv : 2 ^ s.cfg.sampleBits ≤ v.toNat) :
    s.sampleWord v = .error (s.raise .sampleRange) := by
  rw [State.sampleWord, if_pos h, if_neg (not_sampleFits hv)]

theorem sampleWord_fits {v : Half} (h : s.bus.mode = .sample) (hv : v.toNat < 2 ^ s.cfg.sampleBits) :
    s.sampleWord v = .ok { s with busLog := s.busLog ++ [.sample v] } := by
  rw [State.sampleWord, if_pos h, if_pos ((sampleFits_iff v).mpr hv)]

/-- A transmission whose first entry cannot be sent stops there. -/
theorem syncTransmit_first (hlen : 0 < s.sch.len) {t : State} (h : s.sendEntry 0 0 = .error t) : s.syncTransmit = .error t := by
  obtain ⟨n, hn⟩ : ∃ n, s.sch.len = n + 1 := ⟨s.sch.len - 1, by omega⟩
  simp only [State.syncTransmit, hn, State.sendFrom, h]

/-- A transmission sends the entries before the first that cannot be sent (`sendFrom_error`). -/
theorem syncTransmit_stops {ws : List Half} {f : Fault} (hmode : s.bus.mode = .sample) (hlen : ws.length < s.sch.len)
    (hw : ∀ p < ws.length, sampleAt s.buf p = ws[p]?) (hf : ∀ w ∈ ws, w.toNat < 2 ^ s.cfg.sampleBits)
    (he : ({ s with busLog := s.busLog ++ ws.map .sample } : State).sendEntry 0 ws.length =
      .error (({ s with busLog := s.busLog ++ ws.map .sample } : State).raise f)) :
    s.syncTransmit = .error (({ s with busLog := s.busLog ++ ws.map .sample } : State).raise f) :=
  sendFrom_error s s.sch.len 0 ws.length ws f _ hmode rfl hlen (by omega) (fun k hk => by simpa using hw k hk) hf rfl
    (by simpa using he)

/-- A transmission of filled, fitting entries sends them all (`sendFrom_ok`). -/
theorem syncTransmit_all {ws : List Half} (hmode : s.bus.mode = .sample) (hlen : ws.length = s.sch.len)
    (hw : ∀ p < s.sch.len, sampleAt s.buf p = ws[p]?) (hf : ∀ w ∈ ws, w.toNat < 2 ^ s.cfg.sampleBits) :
    s.syncTransmit = .ok { s with busLog := s.busLog ++ ws.map .sample } :=
  sendFrom_ok s _ 0 ws hmode hlen (by omega) (fun k hk => by simpa using hw k hk) hf

variable (hrunning : s.sch.life = .running) (hphase : s.sch.phase = .needFlush)
include hrunning hphase

theorem exec_flush_one (hsync : s.sch.variant = .sync) :
    exec .schedFlushAndWaitBuffer s = .next (proceed s.syncTransmit fun t =>
      { t with sch.fresh := t.sch.fresh.set 0 false, sch.phase := .needFill }.reply .ok (.index 0)) :=
  (exec_inTurn rfl hrunning hphase).trans (congrArg _ (if_pos (schN_sync hsync)))

theorem exec_flush_two (hN : s.sch.variant ≠ .sync) :
    exec .schedFlushAndWaitBuffer s = .next
      (if s.sch.txCur = s.sch.fillTgt then s.finishFlush else { s with wait := .flush }) :=
  (exec_inTurn rfl hrunning hphase).trans (congrArg _ (if_neg (by simp [schN_two hN])))

end

/-- Settles O40: the two checks; with one buffer the transmission up to its first entry that cannot be sent (`syncTransmit_stops`,
`syncTransmit_all`), with two whether TXE has taken the filled buffer. -/
theorem schedFlushRule : Obligations.SchedFlushRule := by
  intro s
  refine ⟨exec_noSched rfl, exec_outOfTurn rfl, fun hrunning hphase hsync hmode hlen => ?command,
    fun ws k hrunning hphase hsync hmode hk hl hw hf => ?stops, fun ws hrunning hphase hsync hmode hl hw hf => ?sent,
    fun hrunning hphase hN htaken => ?taken, fun hrunning hphase hN htaken => ?blocked⟩
  case command =>
    rw [exec_flush_one hrunning hphase hsync]
    constructor
    · intro empty
      rw [syncTransmit_first hlen (sendEntry_unwritten (.inr (by simpa using empty)))]
      rfl
    · intro v hv
      have written := sendEntry_written (s := s) (b := 0) hlen (by simpa using hv)
      rw [syncTransmit_first hlen (written.trans (sampleWord_command v hmode))]
      rfl
  case stops =>
    subst hl
    rw [exec_flush_one hrunning hphase hsync]
    constructor
    · intro empty
      rw [syncTransmit_stops hmode hk hw hf (sendEntry_unwritten (.inr (by simpa using empty)))]
      rfl
    · intro v hv wide
      have written := sendEntry_written (s := { s with busLog := s.busLog ++ ws.map .sample }) (b := 0) hk (by simpa using hv)
      rw [syncTransmit_stops hmode hk hw hf (written.trans (sampleWord_misfit hmode wide))]
      rfl
  case sent =>
    rw [exec_flush_one hrunning hphase hsync, syncTransmit_all hmode hl hw hf]
    rfl
  case taken => rw [exec_flush_two hrunning hphase hN, if_pos htaken]; rfl
  case blocked => rw [exec_flush_two hrunning hphase hN, if_neg htaken]

/-! ## HOST's waits (42_sched.md R205, R208, R213) -/

/-- A step takes the first turn off the schedule. -/
theorem step_listed {s : State} {turn : Turn} {ts : List Turn} (hf : s.fault = none) (hv : s.runVoid = false)
    (ht : s.turns = turn :: ts) : step s = runTurn { s with turns := ts } turn := by
  rw [step_running hf hv, nextTurn_listed s ht]

theorem step_host {s : State} {ts : List Turn} (hf : s.fault = none) (hv : s.runVoid = false) (ht : s.turns = .host :: ts) :
    step s = hostTurn { s with turns := ts } :=
  step_listed hf hv ht

/-- A blocked HOST goes on exactly if its condition holds. -/
theorem hostTurn_blocked {s : State} (h : s.wait ≠ .ready) :
    hostTurn s = .next (if s.waitOver then s.resume else s) := by
  cases hw : s.wait with
  | ready => exact absurd hw h
  | flush | stop => simp only [hostTurn, hw]

section
variable {s : State}

theorem waitOver_flush (h : s.wait = .flush) : s.waitOver = decide (s.sch.txCur = s.sch.fillTgt) := by
  simp only [State.waitOver, h]

theorem waitOver_stop (h : s.wait = .stop) : s.waitOver = !s.sch.txeActive := by
  simp only [State.waitOver, h]

theorem resume_flush (h : s.wait = .flush) : s.resume = s.finishFlush := by simp only [State.resume, h]

theorem resume_stop (h : s.wait = .stop) : s.resume = s.finishStop := by simp only [State.resume, h]

end

/-- Settles O10: the condition of each wait, false and true. -/
theorem waitsEndOnlyWhenTheirConditionHolds : Obligations.WaitsEndOnlyWhenTheirConditionHolds := by
  intro s ts hf hv ht
  have turn (h : s.wait ≠ .ready) := (step_host hf hv ht).trans (hostTurn_blocked (s := { s with turns := ts }) h)
  refine ⟨fun hw hother => ?flushOn, fun hw htaken => ?flushEnds, fun hw hactive => ?stopOn, fun hw hhalted => ?stopEnds⟩ <;>
    rw [turn (by simp [hw])]
  case flushOn => rw [waitOver_flush (by exact hw), if_neg (by simp [hother])]
  case flushEnds =>
    rw [waitOver_flush (by exact hw), if_pos (by simp [htaken]), resume_flush (by exact hw)]
    rfl
  case stopOn => rw [waitOver_stop (by exact hw), if_neg (by simp [hactive])]
  case stopEnds =>
    rw [waitOver_stop (by exact hw), if_pos (by simp [hhalted]), resume_stop (by exact hw)]
    rfl

/-! ## The steps of TXE (42_sched.md R230 to R232) -/

section
variable {s : State} {ts : List Turn} (hf : s.fault = none) (hv : s.runVoid = false)
include hf hv

theorem step_txeEmit (ht : s.turns = .txeEmit :: ts) : step s = .next ({ s with turns := ts } : State).txeEmit :=
  step_listed hf hv ht

theorem step_txeHalt (ht : s.turns = .txeHalt :: ts) : step s = .next ({ s with turns := ts } : State).txeHalt :=
  step_listed hf hv ht

end

section
variable {s : State}

theorem advance_inside (h : s.sch.txPos + 1 < s.sch.len) : s.advance = { s with sch.txPos := s.sch.txPos + 1 } := if_pos h

theorem advance_last (h : s.sch.txPos + 1 = s.sch.len) : s.advance = s.bufferBoundary := if_neg (by omega)

theorem txeEmit_unwritten (h : s.emitEnabled = true)
    (hentry : s.sch.len ≤ s.sch.txPos ∨ sampleAt s.buf (s.sampleAddr s.sch.txCur s.sch.txPos) = none) :
    s.txeEmit = s.raise .unwritten := by
  rw [txeEmit_eq h, sendEntry_unwritten hentry, proceed_error]

section
variable {v : Half} (h : s.emitEnabled = true) (hpos : s.sch.txPos < s.sch.len)
  (hentry : sampleAt s.buf (s.sampleAddr s.sch.txCur s.sch.txPos) = some v)
include h hpos hentry

theorem txeEmit_command (hmode : s.bus.mode = .command) : s.txeEmit = s.raise .mode := by
  rw [txeEmit_eq h, sendEntry_written hpos hentry, sampleWord_command v hmode, proceed_error]

theorem txeEmit_misfit (hmode : s.bus.mode = .sample) (hwide : 2 ^ s.cfg.sampleBits ≤ v.toNat) :
    s.txeEmit = s.raise .sampleRange := by
  rw [txeEmit_eq h, sendEntry_written hpos hentry, sampleWord_misfit hmode hwide, proceed_error]

theorem txeEmit_fits (hmode : s.bus.mode = .sample) (hfits : v.toNat < 2 ^ s.cfg.sampleBits) :
    s.txeEmit = ({ s with busLog := s.busLog ++ [.sample v] } : State).advance := by
  rw [txeEmit_eq h, sendEntry_written hpos hentry, sampleWord_fits hmode hfits, proceed_ok]

end

end

/-- Settles O44: the emit step's three faults, its advance and the three outcomes of a boundary; the halt step. -/
theorem txeStepsRule : Obligations.TxeStepsRule := by
  intro s ts hf hv
  refine ⟨fun ht => ⟨fun hoff => ?off, fun hbusy hactive hgoing => ?on⟩,
    fun ht => ⟨fun hactive hterm => ?halt, fun hoff => ?noHalt⟩⟩
  case off => rw [step_txeEmit hf hv ht, txeEmit_disabled (by exact hoff)]
  case on =>
    have enabled : ({ s with turns := ts } : State).emitEnabled = true := (emitEnabled_iff s).mpr ⟨hbusy, hactive, hgoing⟩
    rw [step_txeEmit hf hv ht]
    refine ⟨fun hentry => ?unwritten, fun v hpos hentry => ⟨fun hmode => ?command, fun hmode hwide => ?misfit,
      fun hmode hfits hinside => ?inside, fun fresh hmode hfits hlast hfresh => ?boundary⟩⟩
    case unwritten => rw [txeEmit_unwritten enabled hentry.symm]; rfl
    case command => rw [txeEmit_command enabled hpos hentry hmode]; rfl
    case misfit => rw [txeEmit_misfit enabled hpos hentry hmode hwide]; rfl
    case inside => rw [txeEmit_fits enabled hpos hentry hmode hfits, advance_inside (by exact hinside)]
    case boundary =>
      subst hfresh
      rw [txeEmit_fits enabled hpos hentry hmode hfits, advance_last (by exact hlast)]
      exact ⟨fun hterm => congrArg _ (bufferBoundary_terminate _ hterm),
        fun hterm hother => congrArg _ (bufferBoundary_move _ hterm hother),
        fun hterm hother => congrArg _ (bufferBoundary_miss _ hterm hother)⟩
  case halt => rw [step_txeHalt hf hv ht, State.txeHalt,
    if_pos (by exact (haltEnabled_iff s).mpr ⟨hactive, hterm⟩)]
  case noHalt =>
    rw [step_txeHalt hf hv ht, State.txeHalt, if_neg]
    intro enabled
    obtain ⟨active, term⟩ := (haltEnabled_iff s).mp enabled
    rcases hoff with h | h
    · exact absurd (h.symm.trans active) (by decide)
    · exact absurd (h.symm.trans term) (by decide)

/-! ### Under the invariant -/

section
variable {s : State}

/-- The entry at TXE's position is filled and fits, and the bus is in SAMPLE mode: an emit step sends. -/
theorem ArbiterRunning.txeEmit (hs : ArbiterRunning s) (h : s.emitEnabled = true) :
    ∃ v, s.txeEmit = ({ s with busLog := s.busLog ++ [.sample v] } : State).advance := by
  obtain ⟨v, entry, fits⟩ := bufferReady_iff.mp hs.inFlight s.sch.txPos hs.inBuffer
  exact ⟨v, txeEmit_fits h hs.inBuffer entry hs.sampleMode fits⟩

/-- Of all the state an advance writes TXE's position and buffer, the fresh bits and the missed count. -/
theorem advance_eq (s : State) :
    ∃ pos fresh cur missed, s.advance =
      { s with sch := { s.sch with txPos := pos, fresh := fresh, txCur := cur, missed := missed } } := by
  unfold State.advance
  split
  · exact ⟨_, _, _, _, rfl⟩
  · cases hterm : s.sch.terminate with
    | true => exact ⟨_, _, _, _, bufferBoundary_terminate s hterm⟩
    | false =>
      cases hother : s.sch.fresh.get (otherBuffer s.sch.txCur) with
      | true => exact ⟨_, _, _, s.sch.missed, bufferBoundary_move s hterm hother⟩
      | false => exact ⟨_, _, s.sch.txCur, _, bufferBoundary_miss s hterm hother⟩

theorem ArbiterInv.txeEmit_fault (hs : ArbiterInv s) : s.txeEmit.fault = s.fault := by
  cases h : s.emitEnabled with
  | true =>
    obtain ⟨busy, -⟩ := (emitEnabled_iff s).mp h
    obtain ⟨v, sent⟩ := (hs.running busy).txeEmit h
    obtain ⟨_, _, _, _, advanced⟩ := advance_eq { s with busLog := s.busLog ++ [.sample v] }
    rw [sent, advanced]
  | false => rw [State.txeEmit, h]; rfl

theorem fault_txeHalt (s : State) : s.txeHalt.fault = s.fault := by
  unfold State.txeHalt
  split <;> rfl

end

/-- Settles O55: an emit step sends (`ArbiterRunning.txeEmit`), and a halt step raises nothing. -/
theorem txeNeverFaultsUnderTheInvariant : Obligations.TxeNeverFaultsUnderTheInvariant := by
  intro s t ts hs ht h
  obtain ⟨hf, hv⟩ := step_next h
  have inv : ArbiterInv { s with turns := ts } := ((arbiterInv_iff s).mp hs).congr rfl
  rcases ht with emit | halt
  · obtain rfl := Host.Outcome.next.inj ((step_txeEmit hf hv emit).symm.trans h)
    exact inv.txeEmit_fault.trans hf
  · obtain rfl := Host.Outcome.next.inj ((step_txeHalt hf hv halt).symm.trans h)
    exact (fault_txeHalt _).trans hf

/-- Settles O47: only a fill that goes on writes the buffers, and its target is not in flight (`ArbiterRunning.needFill`). -/
theorem aFillLeavesTheBufferInFlight : Obligations.AFillLeavesTheBufferInFlight := by
  intro s t p hs hbusy he hp
  have running := ((arbiterInv_iff s).mp hs).running hbusy
  cases exec_effect he with
  | traffic _ h | reply _ _ _ h | afeUpdate _ _ h => exact congrArg (sampleAt · _) h.buf
  | refuse => rfl
  | fill _ hphase ht =>
    obtain ⟨apart, -⟩ := running.needFill hphase
    obtain ⟨-, rfl⟩ := fill_eq_ok ht
    exact sampleAt_filled_other apart hp
  | fillError _ ht => exact congrArg (fun u => sampleAt u.buf _) (arbiterParts_fillError ht)

/-! ## A pass over the rest of the buffer in flight (42_sched.md R230, R231) -/

/-- TXE is emitting, nothing tells it to end, and `ws` are the samples left of the buffer in flight. -/
structure Passing (s : State) (ws : List Half) : Prop where
  busy : s.busBusy = true
  active : s.sch.txeActive = true
  going : s.sch.terminate = false
  mode : s.bus.mode = .sample
  left : s.sch.txPos + ws.length = s.sch.len
  entries : ∀ k < ws.length, sampleAt s.buf (s.sampleAddr s.sch.txCur (s.sch.txPos + k)) = ws[k]?
  fits : ∀ w ∈ ws, w.toNat < 2 ^ s.cfg.sampleBits

section
variable {s : State} {w : Half} {ws : List Half}

theorem Passing.txeEmit (h : Passing s (w :: ws)) :
    s.txeEmit = ({ s with busLog := s.busLog ++ [.sample w] } : State).advance := by
  have left := h.left
  rw [List.length_cons] at left
  exact txeEmit_fits ((emitEnabled_iff s).mpr ⟨h.busy, h.active, by simp [h.going]⟩) (by omega) (h.entries 0 (by simp)) h.mode
    (h.fits w (by simp))

/-- The samples left after the next one. -/
theorem Passing.tail (h : Passing s (w :: ws)) (ts : List Turn) (log : List BusEvent) :
    Passing { s with turns := ts, busLog := log, sch.txPos := s.sch.txPos + 1 } ws :=
  { h with
    left := by
      have left := h.left
      rw [List.length_cons] at left
      change s.sch.txPos + 1 + ws.length = s.sch.len
      omega
    entries := fun k hk => by
      have entry := h.entries (k + 1) (Nat.succ_lt_succ hk)
      rw [List.getElem?_cons_succ, ← Nat.add_assoc, Nat.add_right_comm] at entry
      exact entry
    fits := fun x hx => h.fits x (List.mem_cons_of_mem _ hx) }

/-- As many emit steps as samples are left send them in order and end at the boundary. -/
theorem run_pass {ts : List Turn} (h : Passing s ws) (hne : ws ≠ []) (hf : s.fault = none) (hv : s.runVoid = false)
    (ht : s.turns = List.replicate ws.length .txeEmit ++ ts) :
    core.run ws.length s =
      .next ({ s with turns := ts, busLog := s.busLog ++ ws.map .sample } : State).bufferBoundary := by
  induction ws generalizing s with
  | nil => exact absurd rfl hne
  | cons w ws ih =>
    have first := step_txeEmit (ts := List.replicate ws.length .txeEmit ++ ts) hf hv
      (by simpa [List.replicate_succ] using ht)
    have passing : Passing { s with turns := List.replicate ws.length .txeEmit ++ ts } (w :: ws) := { h with }
    rw [passing.txeEmit] at first
    have left := h.left
    rw [List.length_cons] at left ⊢
    rw [run_succ _ _ _ first]
    cases ws with
    | nil =>
      rw [advance_last (by exact left)]
      rfl
    | cons w' ws =>
      rw [advance_inside (by simp at left ⊢; omega),
        ih (h.tail _ _) (by simp) hf hv rfl]
      simp
      rfl

end

/-- Settles O45: the pass over the whole buffer (`run_pass`), and what its boundary decides. -/
theorem onePassSendsTheWholeBuffer : Obligations.OnePassSendsTheWholeBuffer := by
  intro s ts ws hf hv ht hbusy hmode hactive hterm hpos hlen hl hw hfits
  have passing : Passing s ws :=
    { busy := hbusy, active := hactive, going := hterm, mode := hmode, left := by omega,
      entries := fun k hk => by
        rw [hpos, Nat.zero_add]
        exact hw k (hl ▸ hk)
      fits := hfits }
  have run := run_pass passing (List.length_pos_iff.mp (by omega)) hf hv (hl ▸ ht)
  rw [hl] at run
  refine ⟨_, run, ?_⟩
  cases hother : s.sch.fresh.get (1 - s.sch.txCur) with
  | true =>
    rw [bufferBoundary_move _ (by exact hterm) (by exact hother)]
    exact ⟨rfl, rfl, rfl, fresh_get_set _ _ _, rfl, fun _ => ⟨rfl, rfl⟩, nofun⟩
  | false =>
    rw [bufferBoundary_miss _ (by exact hterm) (by exact hother)]
    exact ⟨rfl, rfl, rfl, fresh_get_set _ _ _, rfl, nofun, fun _ => ⟨rfl, rfl⟩⟩

/-! ## The waits end (42_sched.md R205, R208, R213, R233) -/

section
variable {s : State}

/-- While HOST is in a flush, the next boundary leaves the filled buffer in flight: TXE takes it, or has it already. -/
theorem ArbiterRunning.boundary_takes (hs : ArbiterRunning s) (hphase : s.sch.phase = .needFlush)
    (hterm : s.sch.terminate = false) :
    ∃ m, s.bufferBoundary =
      { s with
        sch :=
          { s.sch with
            txPos := 0, fresh := s.sch.fresh.set s.sch.txCur false, txCur := s.sch.fillTgt, missed := m } } := by
  rcases hs.needFlush hphase with ⟨apart, fresh⟩ | ⟨taken, stale⟩
  · have target := eq_otherBuffer_of_ne apart
    rw [target] at fresh ⊢
    exact ⟨_, bufferBoundary_move s hterm fresh⟩
  · rw [taken] at stale ⊢
    exact ⟨_, bufferBoundary_miss s hterm stale⟩

/-- Consecutive filled entries hold a list of samples. -/
theorem exists_samples {m : List (Nat × Half)} {P : Half → Prop} {a n : Nat}
    (h : ∀ k < n, ∃ v, sampleAt m (a + k) = some v ∧ P v) :
    ∃ ws : List Half, ws.length = n ∧ (∀ k < n, sampleAt m (a + k) = ws[k]?) ∧ ∀ w ∈ ws, P w := by
  choose entry holds fits using h
  refine ⟨List.ofFn fun k : Fin n => entry k k.isLt, List.length_ofFn, fun k hk => ?_, fun w hw => ?_⟩
  · rw [holds k hk, List.getElem?_ofFn, dif_pos hk]
  · obtain ⟨k, rfl⟩ := List.mem_ofFn.mp hw
    exact fits k k.isLt

/-- The samples left of the buffer in flight, which is wholly filled. -/
theorem ArbiterRunning.passing (hs : ArbiterRunning s) (hbusy : s.busBusy = true) (hactive : s.sch.txeActive = true)
    (hterm : s.sch.terminate = false) : ∃ ws, ws.length = s.sch.len - s.sch.txPos ∧ Passing s ws := by
  have inBuffer := hs.inBuffer
  obtain ⟨ws, hl, entries, fits⟩ := exists_samples (a := s.sampleAddr s.sch.txCur s.sch.txPos)
    (n := s.sch.len - s.sch.txPos) fun k hk => by
      have ready := bufferReady_iff.mp hs.inFlight (s.sch.txPos + k) (by omega)
      rwa [State.sampleAddr, ← Nat.add_assoc] at ready
  refine ⟨ws, hl, hbusy, hactive, hterm, hs.sampleMode, by omega, fun k hk => ?_, fits⟩
  rw [State.sampleAddr, ← Nat.add_assoc]
  exact entries k (hl ▸ hk)

end

/-- After the rest of the buffer in flight, HOST's turn ends its wait in a flush. -/
theorem flush_ends {s : State} {ts : List Turn} (hs : ArbiterInv s) (hf : s.fault = none) (hv : s.runVoid = false)
    (hw : s.wait = .flush) (hactive : s.sch.txeActive = true) (hterm : s.sch.terminate = false)
    (ht : s.turns = List.replicate (s.sch.len - s.sch.txPos) .txeEmit ++ .host :: ts) :
    ∃ t, core.run (s.sch.len - s.sch.txPos + 1) s = .next t ∧ t.turns = ts ∧ t.fault = none ∧ t.wait = .ready ∧
      t.sch.phase = .needFill ∧ t.sch.txCur = s.sch.fillTgt ∧ t.sch.fillTgt = 1 - s.sch.fillTgt ∧
      t.results = s.results ++ [⟨.ok, .index (1 - s.sch.fillTgt)⟩] := by
  obtain ⟨busy, phase⟩ := hs.inFlush hw
  have running := hs.running busy
  have inBuffer := running.inBuffer
  obtain ⟨ws, hl, passing⟩ := running.passing busy hactive hterm
  have pass := run_pass passing (List.length_pos_iff.mp (by omega)) hf hv (hl ▸ ht)
  obtain ⟨m, taken⟩ := ArbiterRunning.boundary_takes
    (s := { s with turns := .host :: ts, busLog := s.busLog ++ ws.map .sample }) { running with } phase hterm
  rw [hl, taken] at pass
  rw [run_add _ _ _ _ pass, run_succ _ _ _ ((step_host (by exact hf) (by exact hv) rfl).trans
    (hostTurn_blocked (by simp [hw])))]
  rw [waitOver_flush (by exact hw), if_pos (by simp), resume_flush (by exact hw)]
  exact ⟨_, rfl, rfl, hf, rfl, rfl, rfl, rfl, rfl⟩

/-! ### Under weak fairness of TXE -/

/-- A condition that enables a step and that every other turn keeps holds at some turn at which the step is taken. -/
theorem WeaklyFair.taken_while {enabled : State → Bool} {turn : Turn} {r : Nat → State} (h : WeaklyFair enabled turn r)
    {I : State → Prop} {k : Nat} (h0 : I (r k)) (henabled : ∀ s, I s → enabled s = true)
    (hkeeps : ∀ j, k ≤ j → I (r j) → (r j).nextTurn.2 ≠ turn → I (r (j + 1))) :
    ∃ j, k ≤ j ∧ I (r j) ∧ (r j).nextTurn.2 = turn := by
  by_contra hnever
  have always : ∀ j, k ≤ j → I (r j) := by
    intro j hj
    induction j, hj using Nat.le_induction with
    | base => exact h0
    | succ j hj ih => exact hkeeps j hj ih fun taken => hnever ⟨j, hj, ih, taken⟩
  obtain ⟨j, hj, taken⟩ := h k fun j hj => henabled _ (always j hj)
  exact hnever ⟨j, hj, always j hj, taken⟩

theorem arbiterParts_nextTurn (s : State) : s.nextTurn.1.arbiterParts = s.arbiterParts := by rw [nextTurn_fst]; rfl

section
variable {s t : State}

/-- While HOST is blocked, a turn that is not TXE's leaves what the invariant reads. -/
theorem arbiterParts_runTurn {turn : Turn} (hblocked : s.waitOver = false) (hemit : turn ≠ .txeEmit)
    (hhalt : turn ≠ .txeHalt) (h : runTurn s turn = .next t) : t.arbiterParts = s.arbiterParts := by
  cases turn with
  | host =>
    have waiting : s.wait ≠ .ready := fun ready => by simp [State.waitOver, ready] at hblocked
    have stays : hostTurn s = .next s := by rw [hostTurn_blocked waiting, hblocked]; rfl
    obtain rfl := Host.Outcome.next.inj (stays.symm.trans h)
    rfl
  | txeEmit => exact absurd rfl hemit
  | txeHalt => exact absurd rfl hhalt
  | flagmon x =>
    obtain rfl := Host.Outcome.next.inj h
    exact arbiterParts_flagmonStep s x
  | env x =>
    obtain rfl := Host.Outcome.next.inj h
    exact arbiterParts_envStep s x

/-- HOST waits in a flush for a TXE that is emitting and has not taken the filled buffer. -/
structure FlushWaiting (s : State) : Prop where
  inv : ArbiterInv s
  wait : s.wait = .flush
  active : s.sch.txeActive = true
  going : s.sch.terminate = false
  other : s.sch.txCur ≠ s.sch.fillTgt

theorem sch_of_arbiterParts (h : t.arbiterParts = s.arbiterParts) : t.sch = s.sch :=
  show t.arbiterParts.sch = s.arbiterParts.sch from congrArg _ h

theorem wait_of_arbiterParts (h : t.arbiterParts = s.arbiterParts) : t.wait = s.wait :=
  show t.arbiterParts.wait = s.arbiterParts.wait from congrArg _ h

theorem FlushWaiting.congr (hs : FlushWaiting s) (h : t.arbiterParts = s.arbiterParts) : FlushWaiting t := by
  have sch := sch_of_arbiterParts h
  have wait := wait_of_arbiterParts h
  exact ⟨hs.inv.congr h, wait.trans hs.wait, sch ▸ hs.active, sch ▸ hs.going, sch ▸ hs.other⟩

theorem FlushWaiting.waitOver (hs : FlushWaiting s) : s.waitOver = false := by
  rw [waitOver_flush hs.wait]
  exact decide_eq_false hs.other

theorem FlushWaiting.emitEnabled (hs : FlushWaiting s) : s.emitEnabled = true :=
  (emitEnabled_iff s).mpr ⟨(hs.inv.inFlush hs.wait).1, hs.active, by simp [hs.going]⟩

/-- Only TXE's emit step matters to such a wait. -/
theorem FlushWaiting.runTurn_other {turn : Turn} (hs : FlushWaiting s) (hemit : turn ≠ .txeEmit)
    (h : runTurn s turn = .next t) : t.arbiterParts = s.arbiterParts := by
  by_cases hhalt : turn = .txeHalt
  · subst hhalt
    have off : s.haltEnabled = false := by simp [State.haltEnabled, hs.going]
    obtain rfl := Host.Outcome.next.inj h
    rw [State.txeHalt, off]
    rfl
  · exact arbiterParts_runTurn hs.waitOver hemit hhalt h

/-- An emit step goes on in the buffer in flight, or TXE takes the filled one. -/
theorem FlushWaiting.txeEmit (hs : FlushWaiting s) :
    s.txeEmit.wait = .flush ∧
      ((FlushWaiting s.txeEmit ∧ s.txeEmit.sch.len - s.txeEmit.sch.txPos < s.sch.len - s.sch.txPos) ∨
        s.txeEmit.sch.txCur = s.txeEmit.sch.fillTgt) := by
  obtain ⟨busy, phase⟩ := hs.inv.inFlush hs.wait
  have running := hs.inv.running busy
  have kept := hs.inv.txeEmit
  obtain ⟨v, sent⟩ := running.txeEmit hs.emitEnabled
  rw [sent] at kept ⊢
  by_cases hinside : s.sch.txPos + 1 < s.sch.len
  · rw [advance_inside (by exact hinside)] at kept ⊢
    refine ⟨hs.wait, .inl ⟨⟨kept, hs.wait, hs.active, hs.going, hs.other⟩, ?_⟩⟩
    change s.sch.len - (s.sch.txPos + 1) < s.sch.len - s.sch.txPos
    omega
  · have inBuffer := running.inBuffer
    obtain ⟨m, taken⟩ := ArbiterRunning.boundary_takes (s := { s with busLog := s.busLog ++ [.sample v] })
      { running with } phase hs.going
    rw [advance_last (by change s.sch.txPos + 1 = s.sch.len; omega), taken]
    exact ⟨hs.wait, .inr rfl⟩

/-- HOST waits in a stop for a TXE that has not halted. -/
structure StopWaiting (s : State) : Prop where
  inv : ArbiterInv s
  wait : s.wait = .stop
  active : s.sch.txeActive = true

theorem StopWaiting.congr (hs : StopWaiting s) (h : t.arbiterParts = s.arbiterParts) : StopWaiting t :=
  ⟨hs.inv.congr h, (wait_of_arbiterParts h).trans hs.wait, sch_of_arbiterParts h ▸ hs.active⟩

theorem StopWaiting.haltEnabled (hs : StopWaiting s) : s.haltEnabled = true :=
  (haltEnabled_iff s).mpr ⟨hs.active, (hs.inv.inStop hs.wait).2⟩

theorem StopWaiting.txeHalt (hs : StopWaiting s) : s.txeHalt.wait = .stop ∧ s.txeHalt.sch.txeActive = false := by
  rw [State.txeHalt, if_pos hs.haltEnabled]
  exact ⟨hs.wait, rfl⟩

/-- TXE stays active in an emit step. -/
theorem StopWaiting.txeEmit (hs : StopWaiting s) : StopWaiting s.txeEmit := by
  have inv := hs.inv.txeEmit
  cases h : s.emitEnabled with
  | false => rwa [State.txeEmit, h]
  | true =>
    obtain ⟨v, sent⟩ := (hs.inv.running (hs.inv.inStop hs.wait).1).txeEmit h
    obtain ⟨_, _, _, _, advanced⟩ := advance_eq { s with busLog := s.busLog ++ [.sample v] }
    rw [sent, advanced] at inv ⊢
    exact ⟨inv, hs.wait, hs.active⟩

theorem StopWaiting.runTurn_other {turn : Turn} (hs : StopWaiting s) (hhalt : turn ≠ .txeHalt)
    (h : runTurn s turn = .next t) : StopWaiting t := by
  by_cases hemit : turn = .txeEmit
  · subst hemit
    exact Host.Outcome.next.inj h ▸ hs.txeEmit
  · have blocked : s.waitOver = false := by simp [waitOver_stop hs.wait, hs.active]
    exact hs.congr (arbiterParts_runTurn blocked hemit hhalt h)

end

section
variable {r : Nat → State} {k : Nat} (hr : EndlessRun r) (hfair : TxeWeaklyFair r)
include hr hfair

/-- By induction on the samples left of the buffer in flight, the next of which TXE sends some time. -/
theorem flush_taken {n : Nat} (h : FlushWaiting (r k)) (hn : (r k).sch.len - (r k).sch.txPos = n) :
    ∃ j, k ≤ j ∧ (r j).wait = .flush ∧ (r j).sch.txCur = (r j).sch.fillTgt := by
  induction n using Nat.strong_induction_on generalizing k with
  | _ n ih =>
    obtain ⟨j, hj, ⟨waiting, left⟩, taken⟩ := hfair.1.taken_while
      (I := fun s => FlushWaiting s ∧ s.sch.len - s.sch.txPos = n) ⟨h, hn⟩ (fun _ hs => hs.1.emitEnabled)
      fun j _ hs hother => by
        have parts := (hs.1.congr (arbiterParts_nextTurn _)).runTurn_other hother (hr.turn j)
        have same := parts.trans (arbiterParts_nextTurn _)
        exact ⟨hs.1.congr same, sch_of_arbiterParts same ▸ hs.2⟩
    have turn := hr.turn j
    rw [taken] at turn
    have sent := Host.Outcome.next.inj turn
    obtain ⟨wait, ⟨again, fewer⟩ | done⟩ := (waiting.congr (arbiterParts_nextTurn _)).txeEmit
    · rw [sent] at again fewer
      rw [sch_of_arbiterParts (arbiterParts_nextTurn (r j)), left] at fewer
      obtain ⟨i, hi, found⟩ := ih _ fewer again rfl
      exact ⟨i, by omega, found⟩
    · rw [sent] at wait done
      exact ⟨j + 1, by omega, wait, done⟩

/-- TXE stays active and HOST in its stop until TXE halts, and the halt step is enabled until then. -/
theorem stop_halts (hs : StopWaiting (r k)) : ∃ j, k ≤ j ∧ (r j).wait = .stop ∧ (r j).sch.txeActive = false := by
  obtain ⟨j, hj, waiting, taken⟩ := hfair.2.taken_while hs (fun _ hs => hs.haltEnabled) fun j _ hs hother =>
    (hs.congr (arbiterParts_nextTurn _)).runTurn_other hother (hr.turn j)
  have turn := hr.turn j
  rw [taken] at turn
  have halted := (waiting.congr (arbiterParts_nextTurn _)).txeHalt
  rw [Host.Outcome.next.inj turn] at halted
  exact ⟨j + 1, by omega, halted⟩

end

/-- Settles O46: `flush_ends` for the emit steps in a row; for an endless run with a fair TXE `flush_taken` and `stop_halts`,
unless the wait's condition holds already. -/
theorem flushWaitEndsWithinOneBuffer : Obligations.FlushWaitEndsWithinOneBuffer := by
  refine ⟨fun s ts hs => flush_ends ((arbiterInv_iff s).mp hs), fun r k hr hfair hs => ?_⟩
  have inv := (arbiterInv_iff _).mp hs
  refine ⟨fun hw hactive hterm => ?flush, fun hw => ?stop⟩
  case flush =>
    by_cases htaken : (r k).sch.txCur = (r k).sch.fillTgt
    · exact ⟨k, le_rfl, hw, htaken⟩
    · exact flush_taken hr hfair ⟨inv, hw, hactive, hterm, htaken⟩ rfl
  case stop =>
    cases hactive : (r k).sch.txeActive with
    | true => exact stop_halts hr hfair ⟨inv, hw, hactive⟩
    | false => exact ⟨k, le_rfl, hw, hactive⟩

end Sys2Proof.Machine

/-! PROOFS of the statements about 60_exceptions.md: the end of a run, the draws from the outside world, the flag pins and their
callback, and how an operation ends: with OK, with another status and nothing changed, or with a fault. -/

namespace Sys2Proof.Machine

/-! ## After a fault or a refusal (60_exceptions.md R250, R255) -/

section
variable {s : State}

theorem step_faulted {f : Fault} (h : s.fault = some f) : step s = .fault f := by
  unfold step
  rw [h]

theorem step_void (hf : s.fault = none) (hv : s.runVoid = true) : step s = .refused .afterRefusedOperation := by
  unfold step
  rw [hf, hv]
  rfl

end

/-- Settles O9: the step looks at the fault record first, and then at the mark of a refused run. -/
theorem nothingStepsAfterAFaultOrARefusal : Obligations.NothingStepsAfterAFaultOrARefusal := fun _ =>
  ⟨fun _ => step_faulted, step_void⟩

/-! ## Draws (60_exceptions.md R252, 20_memory.md R66, 42_sched.md R206) -/

section
variable (s : State)

theorem drawResource_free (h : s.env.resources = []) :
    s.drawResource = ({ s with env := { s.env with draws := s.env.draws + 1 } }, Config.resourceAnswer s.env.draws) := by
  unfold State.drawResource
  split
  next listed => cases h.symm.trans listed
  next => rfl

theorem drawReceived_free (h : s.env.received = []) :
    s.drawReceived = ({ s with env := { s.env with draws := s.env.draws + 1 } }, Config.receivedWord s.env.draws) := by
  unfold State.drawReceived
  split
  next listed => cases h.symm.trans listed
  next => rfl

theorem fillSampleAt_eq (n p : Nat) :
    s.fillSampleAt n p = ((s.env.fills[n]?).bind fun d => d[p]?).getD (Config.fillSample n s.sch.len p) := by
  have entry : (s.env.fills.getD n [])[p]? = (s.env.fills[n]?).bind fun d => d[p]? := by
    rw [List.getD_eq_getElem?_getD]
    cases s.env.fills[n]? <;> rfl
  unfold State.fillSampleAt
  rw [entry]
  cases (s.env.fills[n]?).bind fun d => d[p]? <;> rfl

theorem getElem?_fillSrc (n : Nat) {p : Nat} (hp : p < s.sch.len) : (s.fillSrc n)[p]? = some (s.fillSampleAt n p) := by
  simp [State.fillSrc, hp]

end

/-- Settles O13: each draw looks at its list, and the fill source at one entry for each sample. -/
theorem drawsTakeListedAnswersFirst : Obligations.DrawsTakeListedAnswersFirst := fun s =>
  ⟨fun _ _ => drawResource_listed s, drawResource_free s, fun _ _ => drawReceived_listed s, drawReceived_free s,
    fun n => ⟨fillSrc_length s n, fun p hp => by rw [getElem?_fillSrc s n hp, fillSampleAt_eq]⟩⟩

/-! ## The flag pins (60_exceptions.md R261, R262) -/

section
variable {s : State} {x : FlagPin}

theorem envStep_reported (hlive : s.afe.life = .live) (hon : s.afe.cbOn = true) :
    s.envStep x =
      { s with flags := s.flags.set x (!s.flags.get x), afe := { s.afe with pend := s.afe.pend.set x true } } :=
  if_pos ⟨hlive, hon⟩

theorem envStep_unreported (h : s.afe.life ≠ .live ∨ s.afe.cbOn = false) :
    s.envStep x = { s with flags := s.flags.set x (!s.flags.get x) } :=
  if_neg fun ⟨hlive, hon⟩ => by simp [hlive, hon] at h

theorem flagmonEnabled_iff :
    s.flagmonEnabled x = true ↔ s.afe.life = .live ∧ s.afe.cbOn = true ∧ s.afe.pend.get x = true := by
  simp only [State.flagmonEnabled, Bool.and_eq_true, decide_eq_true_eq, and_assoc]

theorem flagmonStep_enabled (hlive : s.afe.life = .live) (hon : s.afe.cbOn = true) (hpend : s.afe.pend.get x = true) :
    s.flagmonStep x = { s with afe := { s.afe with pend := s.afe.pend.set x false }, cbLog := s.cbLog ++ [s.flags] } :=
  if_pos (flagmonEnabled_iff.mpr ⟨hlive, hon, hpend⟩)

theorem flagmonStep_disabled (h : s.afe.life ≠ .live ∨ s.afe.cbOn = false ∨ s.afe.pend.get x = false) :
    s.flagmonStep x = s :=
  if_neg fun enabled => by
    obtain ⟨hlive, hon, hpend⟩ := flagmonEnabled_iff.mp enabled
    simp [hlive, hon, hpend] at h

end

/-- Settles O48: the step of each agent, with its condition true and false. -/
theorem flagStepsRule : Obligations.FlagStepsRule := by
  intro s ts x hf hv
  refine ⟨fun ht => ?env, fun ht => ?flagmon⟩ <;> rw [step_listed hf hv ht, runTurn]
  case env =>
    exact ⟨fun hlive hon => congrArg _ (envStep_reported hlive hon), fun h => congrArg _ (envStep_unreported h)⟩
  case flagmon =>
    exact ⟨fun hlive hon hpend => congrArg _ (flagmonStep_enabled hlive hon hpend),
      fun h => congrArg _ (flagmonStep_disabled h)⟩

/-! ## The callback history (60_exceptions.md R263, 20_memory.md R76) -/

section
variable {s t : State}

/-- The three ways an emit step goes: not enabled, stopped at its entry, or past it. -/
theorem txeEmit_ind {P : State → Prop} (idle : P s)
    (stops : ∀ t, s.sendEntry s.sch.txCur s.sch.txPos = .error t → P t)
    (sends : ∀ t, s.sendEntry s.sch.txCur s.sch.txPos = .ok t → P t.advance) : P s.txeEmit := by
  cases h : s.emitEnabled with
  | true =>
    rw [txeEmit_eq h]
    exact proceed_ind stops sends
  | false => rwa [State.txeEmit, h]

theorem cbLog_fill {b : Fin 2} (h : s.fill b = .ok t ∨ s.fill b = .error t) : t.cbLog = s.cbLog := by
  rcases fill_cases s b with ⟨_, e⟩ | ⟨_, e⟩ <;> rw [e] at h <;> rcases h with h | h <;> cases h <;> rfl

theorem cbLog_prefill (h : s.prefill = .ok t ∨ s.prefill = .error t) : t.cbLog = s.cbLog := by
  unfold State.prefill at h
  split at h
  · exact cbLog_fill h
  · rcases h with h | h <;> cases h
    rfl

/-- No instruction writes the callback history. -/
theorem Effect.cbLog {i : Instr} (h : Effect s i t) : t.cbLog = s.cbLog := by
  cases h with
  | traffic _ h | reply _ _ _ h | openBus _ _ h | openAfe _ h | unwind _ h | afeUpdate _ _ h | openSched _ _ h
  | flushSync _ _ h => exact h.cbLog
  | start h _ _ _ hx => exact (cbLog_prefill (.inl hx)).trans h.cbLog
  | startError h _ _ hx => exact (cbLog_prefill (.inr hx)).trans h.cbLog
  | fill _ _ ht =>
    have filled := cbLog_fill (.inl ht)
    exact filled
  | fillError _ ht => exact cbLog_fill (.inr ht)
  | refuse | releaseBus | configure | setMode | releaseAfe | stopCreated | stopWait | stopNow | release | flushEnd
  | flushWait => rfl

theorem cbLog_txeEmit (s : State) : s.txeEmit.cbLog = s.cbLog := by
  refine txeEmit_ind (P := fun u => u.cbLog = s.cbLog) rfl (fun t ht => (traffic_sendEntry (.inr ht)).cbLog) fun t ht => ?_
  obtain ⟨_, _, _, _, advanced⟩ := advance_eq t
  rw [advanced]
  exact (traffic_sendEntry (.inl ht)).cbLog

theorem cbLog_txeHalt (s : State) : s.txeHalt.cbLog = s.cbLog := by
  unfold State.txeHalt
  split <;> rfl

theorem cbLog_envStep (s : State) (x : FlagPin) : (s.envStep x).cbLog = s.cbLog := by
  unfold State.envStep
  simp only
  split <;> rfl

/-- Of all turns a FLAGMON turn alone can write the callback history, and only where the callback is registered. -/
theorem TurnCase.cbLog (h : TurnCase s t) (hoff : s.afe.cbOn = false) : t.cbLog = s.cbLog := by
  cases h with
  | operation _ _ _ _ _ he | wire _ _ _ _ _ _ he => exact (exec_effect he).cbLog
  | rejected _ _ _ _ ht | nothing ht | flushEnds _ _ ht | stopEnds _ _ ht | wireWide _ _ _ _ _ _ ht => exact ht ▸ rfl
  | emit ht => exact ht ▸ cbLog_txeEmit s
  | halt ht => exact ht ▸ cbLog_txeHalt s
  | env x ht => exact ht ▸ cbLog_envStep s x
  | flagmon x ht => rw [ht, flagmonStep_disabled (.inr (.inl hoff))]

end

/-- Settles O49, by the cases of a step (`step_cases`): taking the turn off the schedule leaves the callback and its history. -/
theorem noFlagsEventWithoutTheCallback : Obligations.NoFlagsEventWithoutTheCallback := by
  intro s t hoff h
  obtain ⟨_, _, _, _, turn⟩ := step_cases h
  exact turn.cbLog hoff

/-! ## How an operation ends (60_exceptions.md R250, R259) -/

/-! ### Parts of an operation -/

/-- A part `r` of an operation returns nothing; it goes on with no fault raised, or has ended the step by a fault that is not
F_INTEGRITY. The verified register updates alone are no such part (41_afe.md R164). -/
structure PlainPart (s : State) (r : Except State State) : Prop where
  ok : ∀ t, r = .ok t → t.results = s.results ∧ t.fault = s.fault
  error : ∀ t, r = .error t → t.results = s.results ∧ t.fault ≠ some .integrity

section
variable {s t : State}

theorem PlainPart.of_ok (results : t.results = s.results) (fault : t.fault = s.fault) : PlainPart s (.ok t) where
  ok _ h := by cases h; exact ⟨results, fault⟩
  error _ h := nomatch h

theorem PlainPart.of_error (results : t.results = s.results) (fault : t.fault ≠ some .integrity) :
    PlainPart s (.error t) where
  ok _ h := nomatch h
  error _ h := by cases h; exact ⟨results, fault⟩

theorem plainPart_sampleWords (s : State) (ws : List Half) : PlainPart s (s.sampleWords ws) := by
  obtain ⟨_, ⟨e, -⟩ | ⟨f, hf, e⟩⟩ := sampleWords_cases s ws <;> rw [e]
  · exact .of_ok rfl rfl
  · exact .of_error rfl (by rcases hf with rfl | rfl <;> simp)

theorem plainPart_sampleWord (s : State) (w : Half) : PlainPart s (s.sampleWord w) := by
  rcases sampleWord_cases s w with ⟨-, e⟩ | ⟨-, -, e⟩ | ⟨-, -, e⟩ <;> rw [e]
  · exact .of_error rfl (by simp)
  · exact .of_error rfl (by simp)
  · exact .of_ok rfl rfl

theorem plainPart_sendEntry (s : State) (b : Fin 2) (p : Nat) : PlainPart s (s.sendEntry b p) := by
  rcases sendEntry_cases s b p with ⟨_, e⟩ | ⟨f, hf, e⟩ <;> rw [e]
  · exact .of_ok rfl rfl
  · exact .of_error rfl (by rcases hf with rfl | rfl | rfl <;> simp)

/-- The parts of a part that goes on are parts of the whole. -/
theorem PlainPart.trans {r : Except State State} (results : t.results = s.results) (fault : t.fault = s.fault)
    (h : PlainPart t r) : PlainPart s r where
  ok u hu := (h.ok u hu).imp (·.trans results) (·.trans fault)
  error u hu := (h.error u hu).imp_left (·.trans results)

theorem plainPart_sendFrom (n : Nat) (s : State) (p : Nat) : PlainPart s (s.sendFrom p n) := by
  induction n generalizing s p with
  | zero => exact .of_ok rfl rfl
  | succ n ih =>
    have first := plainPart_sendEntry s 0 p
    unfold State.sendFrom
    split
    next t ht =>
      obtain ⟨results, fault⟩ := first.error t ht
      exact .of_error results fault
    next t ht =>
      obtain ⟨results, fault⟩ := first.ok t ht
      exact .trans results fault (ih t (p + 1))

theorem plainPart_fill (s : State) (b : Fin 2) : PlainPart s (s.fill b) := by
  rcases fill_cases s b with ⟨-, e⟩ | ⟨-, e⟩ <;> rw [e]
  · exact .of_ok rfl rfl
  · exact .of_error rfl (by simp)

theorem plainPart_prefill (s : State) : PlainPart s s.prefill := by
  unfold State.prefill
  split
  · exact plainPart_fill s 0
  · exact .of_ok rfl rfl

/-! ### Verified register updates in EMU -/

theorem carries_enable1 {c : Config} (h : c.admissible = true) : Carries c c.aEnable1 :=
  have ⟨enable1, _⟩ := carries_of_admissible h
  enable1

theorem carries_enable2 {c : Config} (h : c.admissible = true) : Carries c c.aEnable2 :=
  have ⟨_, _, enable2, _⟩ := carries_of_admissible h
  enable2

theorem carries_gain {c : Config} (h : c.admissible = true) : Carries c c.aGain :=
  have ⟨_, gain, _⟩ := carries_of_admissible h
  gain

theorem carries_control1 {c : Config} (h : c.admissible = true) : Carries c c.aControl1 :=
  have ⟨_, _, _, control1, _⟩ := carries_of_admissible h
  control1

theorem Traffic.emuExact (h : Traffic s t) (emu : s.EmuExact) : t.EmuExact where
  emul := h.bus ▸ emu.emul
  admissible := h.cfg ▸ emu.admissible
  canonical := h.shadow emu.canonical

theorem not_emuExact_of_writeVerify {a : RegAddr} {v : Byte} (hr : s.cfg.admissible = true → Carries s.cfg a)
    (hv : s.cfg.admissible = true → v.toNat < 2 ^ s.cfg.regDataBits) (h : s.writeVerify a v = .error t) : ¬ s.EmuExact :=
  fun emu => by
    have agrees := writeVerify_emul s a v emu.emul (hr emu.admissible) emu.canonical (hv emu.admissible)
    cases agrees.symm.trans h

theorem not_emuExact_of_maskedUpdate {a : RegAddr} {mask val : Byte} (hr : s.cfg.admissible = true → Carries s.cfg a)
    (hv : FieldValue s.cfg mask val) (h : s.maskedUpdate a mask val = .error t) : ¬ s.EmuExact :=
  fun emu => by
    have agrees := maskedUpdate_emul s a mask val emu.emul (hr emu.admissible) emu.canonical hv.under
      (hv.fits emu.admissible)
    cases agrees.symm.trans h

end

/-! ### The inversion -/

/-- How an instruction ends, as far as HOST is told: one constructor per kind of end, with what is then unchanged and what the
errors of a device need (60_exceptions.md R250, R259). -/
inductive Ending (s : State) : Instr → State → Prop
  /-- Nothing is returned; a fault, if one is raised, is not F_INTEGRITY. -/
  | silent (i) {t : State} (results : t.results = s.results) (fault : t.fault = some .integrity → s.fault = some .integrity) :
      Ending s i t
  /-- OK is returned. -/
  | ok (i) {u : State} (v) (results : u.results = s.results) (fault : u.fault = s.fault) : Ending s i (u.reply .ok v)
  /-- Another status is returned, perhaps after ENV's answer to a resource request. -/
  | declined (i) {u : State} (e : Status) (drawn : u = { s with env := u.env }) (presence : e ≠ .ePresence)
      (resource : e = .eResource → s.bus.emul = false ∨ s.bus.life = .absent) : Ending s i (u.reply e)
  /-- E_REFUSED is returned. -/
  | refused (i) : Ending s i s.refuse
  /-- F_INTEGRITY: a verified register update did not read back what was written (41_afe.md R164). -/
  | mismatch (i) {t : State} (results : t.results = s.results) (inexact : ¬ s.EmuExact) : Ending s i t
  /-- AFE_CREATE failed (41_afe.md R160). -/
  | unwound {u : State} (e) (phys : s.bus.emul = false) : Ending s .afeCreate (u.unwindAfe e)

section
variable {s k : State} {i : Instr}

theorem ending_requireStatus {c : Prop} [Decidable c] {e : Status} (h : c → Ending s i k)
    (presence : e ≠ .ePresence := by decide) (resource : e ≠ .eResource := by decide) :
    Ending s i (s.requireStatus c e k) :=
  requireStatus_ind (fun _ => .declined i e rfl presence (absurd · resource)) h

theorem ending_raise {f : Fault} (hf : f ≠ .integrity) : Ending s i (s.raise f) :=
  .silent i rfl fun h => absurd (Option.some.inj h) hf

theorem ending_requireFault {c : Prop} [Decidable c] {f : Fault} (h : c → Ending s i k)
    (hf : f ≠ .integrity := by decide) : Ending s i (s.requireFault c f k) :=
  requireFault_ind (fun _ => ending_raise hf) h

theorem ending_proceed {r : Except State State} {f : State → State} (h : PlainPart s r)
    (hok : ∀ t, t.results = s.results → t.fault = s.fault → Ending s i (f t)) : Ending s i (proceed r f) :=
  proceed_ind
    (fun t ht =>
      have ⟨results, fault⟩ := h.error t ht
      .silent i results (absurd · fault))
    fun t ht =>
      have ⟨results, fault⟩ := h.ok t ht
      hok t results fault

/-- A setter of a field fails its verification only where register updates are not exact. -/
theorem ending_setField {a : RegAddr} {mask val : Byte} {f : AfeHandle → AfeHandle}
    (hr : s.cfg.admissible = true → Carries s.cfg a) (hv : FieldValue s.cfg mask val) :
    Ending s i (s.setField a mask val f) :=
  requireSetter_ind (fun _ => ending_raise) fun _ =>
    proceed_ind
      (fun _ ht => .mismatch i (traffic_maskedUpdate (.inr ht)).results (not_emuExact_of_maskedUpdate hr hv ht))
      fun _ ht =>
        have fault := fault_maskedUpdate ht
        .ok i _ (traffic_maskedUpdate (.inl ht)).results fault

theorem ending_execAfeActivateBlocks {m : Byte} {t : State} (h : execAfeActivateBlocks m s = .next t) : Ending s i t := by
  obtain rfl := Host.Outcome.next.inj h
  refine requireSetter_ind (fun _ => ending_raise) fun _ => proceed_ind (fun t ht => ?first) fun t ht =>
    proceed_ind (fun u hu => ?second) fun u hu => ?both
  case first =>
    exact .mismatch i (traffic_writeVerify (.inr ht)).results
      (not_emuExact_of_writeVerify carries_enable1 (encEnable1_lt · m) ht)
  all_goals have done := traffic_writeVerify (.inl ht)
  case second =>
    have inexact : ¬ t.EmuExact :=
      not_emuExact_of_writeVerify (done.cfg ▸ carries_enable2) (done.cfg ▸ (encEnable2_lt · m)) hu
    exact .mismatch i ((traffic_writeVerify (.inr hu)).results.trans done.results) (inexact ∘ done.emuExact)
  case both =>
    exact .ok i _ ((traffic_writeVerify (.inl hu)).results.trans done.results)
      ((fault_writeVerify hu).trans (fault_writeVerify ht))

/-- The probe of AFE_CREATE fails on a physical chip only. -/
theorem ending_probeAfe {u : State} (hu : Traffic s u) (hf : u.fault = s.fault) : Ending s .afeCreate u.probeAfe := by
  have probed := (hu.trans (traffic_readReg u u.cfg.aRevision)).results
  have fault := (fault_readReg u u.cfg.aRevision).trans hf
  unfold State.probeAfe
  simp only
  split
  next h => exact .unwound _ (hu.bus ▸ h.2)
  next => exact .ok _ _ probed fault

end

/-- Every instruction ends in one of the ways listed in `Ending`. -/
theorem exec_ending {i : Instr} {s t : State} (h : exec i s = .next t) : Ending s i t := by
  have drawn := drawResource_fst s
  have draw := traffic_drawResource s
  have fault := fault_drawResource s
  cases i <;> have h := Host.Outcome.next.inj h
  case afeActivateBlocks => exact ending_execAfeActivateBlocks (congrArg _ h)
  all_goals subst h
  case busCreate =>
    refine ending_requireStatus fun _ => ending_requireFault fun habsent => ?_
    split
    · split
      · exact .ok _ _ draw.results fault
      · exact .declined _ _ drawn (by decide) fun _ => .inr habsent
    · exact .ok _ _ rfl rfl
  case busRelease | schedRelease => exact ending_requireFault fun _ => ending_requireFault fun _ => .ok _ _ rfl rfl
  case busConfigure =>
    exact ending_requireStatus fun _ => ending_requireFault fun _ => ending_requireFault fun _ => .ok _ _ rfl rfl
  case busSetSampleMode =>
    refine ending_requireStatus fun _ => ending_requireFault fun _ => ending_requireFault fun _ => ?_
    split <;> exact .ok _ _ rfl rfl
  case busWriteCommand =>
    exact ending_requireStatus fun _ => ending_requireFault fun _ => ending_requireFault fun _ =>
      ending_requireFault fun _ => .ok _ _ (traffic_writeReg _ _ _).results (fault_writeReg _ _ _)
  case busReadCommand =>
    exact ending_requireStatus fun _ => ending_requireFault fun _ => ending_requireFault fun _ =>
      ending_requireFault fun _ => .ok _ _ (traffic_readReg _ _).results (fault_readReg _ _)
  case busTransferSingleSample =>
    exact ending_requireFault fun _ => ending_requireFault fun _ =>
      ending_proceed (plainPart_sampleWord _ _) fun _ => .ok _ _
  case busTransferSampleBuffer =>
    exact ending_requireFault fun _ => ending_requireFault fun _ => ending_requireFault fun _ =>
      ending_requireFault fun _ => ending_proceed (plainPart_sampleWords _ _) fun _ => .ok _ _
  case busRateToBits =>
    refine ending_requireStatus fun _ => ?_
    split
    · exact .ok _ _ rfl rfl
    · exact .declined _ _ rfl (by decide) nofun
  case busBitsToRate => exact ending_requireStatus fun _ => .ok _ _ rfl rfl
  case busGetEffectiveRate | afeRelease | afeGetRevision | afeGetState | afeIsPresent | schedGetMissed =>
    exact ending_requireFault fun _ => .ok _ _ rfl rfl
  case afeCreate =>
    refine ending_requireFault fun _ => ending_requireStatus fun _ => ending_requireFault fun _ =>
      ending_requireFault fun _ => ?_
    split
    · exact ending_probeAfe (.refl s) rfl
    next hphys =>
      split
      · exact ending_probeAfe draw fault
      · exact .unwound _ (Bool.eq_false_of_not_eq_true hphys)
  case afeSetGainTx g =>
    exact ending_requireStatus fun hg =>
      ending_setField (f := fun a => { a with gainTx := gainLevel g }) carries_gain (fieldValue_gainTx _ hg)
  case afeSetGainsRx g₁ g₂ =>
    exact ending_requireStatus fun ⟨hg₁, hg₂⟩ =>
      ending_setField (f := fun a => { a with gainRx1 := gainLevel g₁, gainRx2 := gainLevel g₂ }) carries_gain
        (fieldValue_gainsRx _ hg₁ hg₂)
  case afeSetCalibration c =>
    exact ending_requireStatus fun _ =>
      ending_setField (f := fun a => { a with cal := calOf c }) carries_control1 (fieldValue_cal _ _)
  case afeSetStandby => exact ending_requireStatus fun _ => .refused _
  case afeSetFlagsCallback =>
    refine ending_requireStatus fun _ => ending_requireFault fun _ => ?_
    split
    · split <;> exact .ok _ _ rfl rfl
    · exact .ok _ _ rfl rfl
  case schedCreate =>
    refine ending_requireStatus fun _ => ?_
    split
    · exact .refused _
    · refine ending_requireFault fun _ => ending_requireStatus fun _ => ?_
      split
      · exact .ok _ _ rfl rfl
      next hphys =>
        split
        · exact .ok _ _ draw.results fault
        · exact .declined _ _ drawn (by decide) fun _ => .inl (Bool.eq_false_of_not_eq_true hphys)
  case schedStart =>
    refine ending_requireFault fun _ => ending_requireStatus fun _ => ending_requireStatus fun _ => ?_
    split
    next hphys =>
      split
      · exact ending_proceed (.trans draw.results fault (plainPart_prefill _)) fun _ results fault => .ok _ _ results fault
      · exact .declined _ _ drawn (by decide) fun _ => .inl hphys.1
    · exact ending_proceed (plainPart_prefill _) fun _ results fault => .ok _ _ results fault
  case schedFillNextBuffer =>
    exact ending_requireFault fun _ => ending_requireFault fun _ =>
      ending_proceed (plainPart_fill _ _) fun _ results fault => .ok _ _ results fault
  case schedFlushAndWaitBuffer =>
    refine ending_requireFault fun _ => ending_requireFault fun _ => ?_
    split
    · exact ending_proceed (plainPart_sendFrom _ _ _) fun _ results fault => .ok _ _ results fault
    · split
      · exact .ok _ _ rfl rfl
      · exact .silent _ rfl id
  case schedGetAddressBufferInTx => exact ending_requireFault fun _ => ending_requireStatus fun _ => .ok _ _ rfl rfl
  case schedStop =>
    refine ending_requireFault fun _ => ?_
    split
    · exact .ok _ _ rfl rfl
    · split
      · exact .ok _ _ rfl rfl
      · simp only
        split
        · exact .silent _ rfl id
        · exact .ok _ _ rfl rfl
  case cmdWrite a v =>
    exact ending_requireFault fun _ => ending_requireFault fun _ => ending_requireFault fun _ =>
      .silent _ (traffic_writeReg s a v).results (fault_writeReg s a v).symm.trans
  case cmdRead a =>
    exact ending_requireFault fun _ => ending_requireFault fun _ => ending_requireFault fun _ =>
      .silent _ (traffic_readReg s a).results (fault_readReg s a).symm.trans
  case sample =>
    exact ending_requireFault fun _ => ending_requireFault fun _ =>
      ending_proceed (plainPart_sampleWord _ _) fun _ results fault => .silent _ results fault.symm.trans

/-! ### A status other than OK (60_exceptions.md R250) -/

section
variable {s t : State}

theorem results_ne_of_eq {r : Result} (h : t.results = s.results) : t.results ≠ s.results ++ [r] := by simp [h]

theorem result_of_reply {u : State} {e : Status} {v : Value} {r : Result} (hu : u.results = s.results)
    (h : (u.reply e v).results = s.results ++ [r]) : r = ⟨e, v⟩ := by
  have same : s.results ++ [⟨e, v⟩] = s.results ++ [r] := hu ▸ h
  simpa using same.symm

/-- An operation that changes the state has returned OK or nothing at all. -/
theorem Ending.unchanged {i : Instr} {r : Result} (h : Ending s i t) (hi : i ≠ .afeCreate)
    (hr : t.results = s.results ++ [r]) (hst : r.status ≠ .ok) :
    t = { s with results := t.results, env := t.env, runVoid := t.runVoid } := by
  cases h with
  | silent _ results | mismatch _ results => exact absurd hr (results_ne_of_eq results)
  | ok _ _ results => exact absurd (congrArg Result.status (result_of_reply results hr)) hst
  | @declined _ u _ drawn =>
    generalize u.env = env at drawn
    subst drawn
    rfl
  | refused => rfl
  | unwound => exact absurd rfl hi

end

/-- Settles O12: a status other than OK is returned where nothing has been done but draws (`exec_ending`). -/
theorem otherStatusesChangeNothing : Obligations.OtherStatusesChangeNothing := fun _ _ _ _ hi h hr hst =>
  (exec_ending h).unchanged hi hr hst

/-! ## Emulation suppresses the errors of a device (60_exceptions.md R259) -/

/-- From `s` to `t` F_INTEGRITY is not raised, and neither E_PRESENCE nor E_RESOURCE is returned. -/
structure NoDeviceError (s t : State) : Prop where
  fault : t.fault = some .integrity → s.fault = some .integrity
  result : ∀ r, t.results = s.results ++ [r] → r.status ≠ .ePresence ∧ r.status ≠ .eResource

section
variable {s t : State}

theorem NoDeviceError.of_silent (results : t.results = s.results)
    (fault : t.fault = some .integrity → s.fault = some .integrity) : NoDeviceError s t :=
  ⟨fault, fun _ hr => absurd hr (results_ne_of_eq results)⟩

theorem NoDeviceError.of_reply {u : State} {e : Status} {v : Value} (results : u.results = s.results)
    (fault : u.fault = s.fault) (presence : e ≠ .ePresence) (resource : e ≠ .eResource) :
    NoDeviceError s (u.reply e v) :=
  ⟨fault.symm.trans, fun r hr => by rw [result_of_reply results hr]; exact ⟨presence, resource⟩⟩

/-- In EMU, with a bus that was created, no instruction ends like that of a failing device. -/
theorem Ending.noDeviceError {i : Instr} (h : Ending s i t) (emu : s.EmuExact) (created : s.bus.life ≠ .absent) :
    NoDeviceError s t := by
  have notPhys : s.bus.emul ≠ false := by simp [emu.emul]
  cases h with
  | silent _ results fault => exact .of_silent results fault
  | ok _ _ results fault => exact .of_reply results fault (by decide) (by decide)
  | declined _ _ drawn presence resource =>
    exact .of_reply (by rw [drawn]) (by rw [drawn]) presence fun h => (resource h).elim notPhys created
  | refused =>
    have replied : NoDeviceError s (s.reply .eRefused) := .of_reply rfl rfl (by decide) (by decide)
    exact ⟨replied.fault, replied.result⟩
  | mismatch _ _ inexact => exact absurd emu inexact
  | unwound _ phys => exact absurd phys notPhys

theorem noDeviceError_txeEmit (s : State) : NoDeviceError s s.txeEmit := by
  have sent := plainPart_sendEntry s s.sch.txCur s.sch.txPos
  refine txeEmit_ind (.of_silent rfl id) (fun t ht => ?stops) fun t ht => ?sends
  case stops =>
    obtain ⟨results, fault⟩ := sent.error t ht
    exact .of_silent results (absurd · fault)
  case sends =>
    obtain ⟨results, fault⟩ := sent.ok t ht
    obtain ⟨_, _, _, _, advanced⟩ := advance_eq t
    rw [advanced]
    exact .of_silent results fault.symm.trans

theorem noDeviceError_txeHalt (s : State) : NoDeviceError s s.txeHalt := by
  unfold State.txeHalt
  split <;> exact .of_silent rfl id

theorem noDeviceError_flagmonStep (s : State) (x : FlagPin) : NoDeviceError s (s.flagmonStep x) := by
  unfold State.flagmonStep
  split <;> exact .of_silent rfl id

theorem noDeviceError_envStep (s : State) (x : FlagPin) : NoDeviceError s (s.envStep x) := by
  unfold State.envStep
  simp only
  split <;> exact .of_silent rfl id

theorem TurnCase.noDeviceError (h : TurnCase s t) (emu : s.EmuExact) (created : s.bus.life ≠ .absent) :
    NoDeviceError s t := by
  cases h with
  | operation _ _ _ _ _ he | wire _ _ _ _ _ _ he =>
    have ends := (exec_ending he).noDeviceError ⟨emu.emul, emu.admissible, emu.canonical⟩ created
    exact ⟨ends.fault, ends.result⟩
  | rejected _ _ _ _ ht => exact ht ▸ .of_reply rfl rfl (by decide) (by decide)
  | nothing ht => exact ht ▸ .of_silent rfl id
  | flushEnds _ _ ht | stopEnds _ _ ht => exact ht ▸ .of_reply rfl rfl (by decide) (by decide)
  | wireWide f _ _ _ _ hf ht =>
    have other : f ≠ .integrity := by rintro rfl; simp at hf
    exact ht ▸ .of_silent rfl fun h => absurd (Option.some.inj h) other
  | emit ht => exact ht ▸ noDeviceError_txeEmit s
  | halt ht => exact ht ▸ noDeviceError_txeHalt s
  | flagmon x ht => exact ht ▸ noDeviceError_flagmonStep s x
  | env x ht => exact ht ▸ noDeviceError_envStep s x

end

/-- Settles O60, by the cases of a step (`step_cases`) and of the end of an instruction (`exec_ending`). -/
theorem emulationNeverFailsLikeADevice : Obligations.EmulationNeverFailsLikeADevice := by
  intro s t hemul hadm hwf hcreated h
  obtain ⟨hfault, _, _, _, turn⟩ := step_cases h
  have clean := turn.noDeviceError ⟨hemul, hadm, hwf⟩ hcreated
  exact ⟨fun hint => absurd (hfault.symm.trans (clean.fault hint)) nofun, clean.result⟩

end Sys2Proof.Machine
